-- ==== Sys2Proof/Word.lean ====
section
/-! DEFINITION. The words of the hardware (00_scope.md R8, R11, R13): bytes, 32-bit registers, bit strings, and the two
units' names. -/

namespace Sys2Proof

/-- An 8-bit byte, and a Symbol ("one byte value (0–255)", R13). -/
abbrev Byte := BitVec 8

/-- A register or a command word: 32 bits (R21, R80). -/
abbrev Word := BitVec 32

/-- A bit string, first bit first (R11); `true` is the bit 1. -/
abbrev Bits := List Bool

/-- The two units (R2, R16, R20). -/
inductive UnitId where
  | enc
  | dec
deriving DecidableEq, Repr, Inhabited

/-- `ceil8(n)`: the number of bytes that hold `n` bits (R10). -/
def ceil8 (n : Nat) : Nat := (n + 7) / 8

end Sys2Proof
end

