-- ==== Sys2Proof/Syntax.lean ====
section
/-! DEFINITION. The operations of spec/opcode_table.json, one constructor per row. -/

namespace Sys2Proof

/-- The operations of the hardware. -/
inductive Instr where
  /-- `NOP`, either unit (R205). -/
  | nop (u : UnitId)
  /-- `ENCODE`, unit `ENC` (R206). -/
  | encode
  /-- `DECODE`, unit `DEC` (R207). -/
  | decode
  /-- `CLEAR`, either unit (R208). -/
  | clear (u : UnitId)
  /-- An illegal command word `w` written to unit `u` (R82, R209). -/
  | illegal (u : UnitId) (w : Word)
  /-- `FT.COUNT` (R110). -/
  | ftCount
  /-- `TB.BUILD` (R123). -/
  | tbBuild
  /-- `CA.ASSIGN` (R135). -/
  | caAssign
  /-- `BW.PACK` (R148). -/
  | bwPack
  /-- `ENC.SERIALIZE` (R161). -/
  | encSerialize
  /-- `DEC.PARSE` (R176). -/
  | decParse
  /-- `TR.REBUILD` (R179). -/
  | trRebuild
  /-- `TW.WALK` (R180). -/
  | twWalk
  /-- `PQ.INSERT(i)` (R121). -/
  | pqInsert (i : Nat)
  /-- `PQ.EXTRACTMIN() -> i` (R122). -/
  | pqExtractMin
  /-- `BW.PUTBIT(b)` (R146). -/
  | bwPutBit (b : Bool)
  /-- `BW.PUTCODE(bs)` (R147). -/
  | bwPutCode (bs : Bits)
  /-- `BR.GETBIT() -> b` (R150). -/
  | brGetBit
  /-- `TR.INSERT(s, bs)` (R178). -/
  | trInsert (s : Byte) (bs : Bits)
  /-- The pseudo-operation `encode(x)` (R213). -/
  | encodeBytes (x : List Byte)
  /-- The pseudo-operation `decode(c)` (R214). -/
  | decodeBytes (c : List Byte)
deriving DecidableEq, Repr

end Sys2Proof
end

