-- ==== Sys2Proof/Decode.lean ====
section
/-! DEFINITION. Encodings (30_encoding.md R80 to R85, opcode_table.json): the command word a host writes to register 0 of a
unit, and the phase field of the `STATUS` word of the unit that steps; decoding of both, and the encoder. -/

namespace Sys2Proof

/-- Command word, bits 7:0, `OP` (R80). -/
def cmdOp (w : Word) : BitVec 8 := w.extractLsb' 0 8

/-- Command word, bits 31:8, `RSV` (R80). -/
def cmdRsv (w : Word) : BitVec 24 := w.extractLsb' 8 24

/-- `STATUS`, bits 7:4, `PHASE` (R23, R83). -/
def statusPhase (w : Word) : BitVec 4 := w.extractLsb' 4 4

/-- What names the next operation of a unit: a command word written to its register 0, or the `STATUS` word of a unit that
takes a step. -/
inductive Fetch where
  | command (u : UnitId) (w : Word)
  | phase (u : UnitId) (status : Word)
deriving DecidableEq, Repr

/-- Why a fetch names no operation. -/
inductive DecodeError where
  /-- A phase code that names no phase of the unit: 0, and the codes R85 lists as "never". -/
  | reservedPhase (u : UnitId) (code : BitVec 4)
deriving DecidableEq, Repr

/-- The command a word stands for at a unit (R81, R82): total, since every other word is an illegal command. -/
def decodeCommand (u : UnitId) (w : Word) : Instr :=
  if cmdRsv w ≠ 0 then .illegal u w
  else if cmdOp w = 0x00 then .nop u
  else if cmdOp w = 0x01 ∧ u = .enc then .encode
  else if cmdOp w = 0x02 ∧ u = .dec then .decode
  else if cmdOp w = 0x03 then .clear u
  else .illegal u w

/-- The phase operation a phase code stands for at a unit (R85; the pair of unit and code is unique, C11). -/
def decodePhase (u : UnitId) (code : BitVec 4) : Except DecodeError Instr :=
  match u with
  | .enc =>
    if code = 1 then .ok .ftCount
    else if code = 2 then .ok .tbBuild
    else if code = 3 then .ok .caAssign
    else if code = 4 then .ok .bwPack
    else if code = 5 then .ok .encSerialize
    else .error (.reservedPhase .enc code)
  | .dec =>
    if code = 1 then .ok .decParse
    else if code = 2 then .ok .trRebuild
    else if code = 3 then .ok .twWalk
    else .error (.reservedPhase .dec code)

/-- The decoder: total, rejecting by name. -/
def decode (f : Fetch) : Except DecodeError Instr :=
  match f with
  | .command u w => .ok (decodeCommand u w)
  | .phase u status => decodePhase u (statusPhase status)

/-- The encoder: the word of a command (R81), the `match` word of a phase operation (opcode_table.json); a primitive and a
pseudo-operation have no encoding. -/
def encode (i : Instr) : Option Fetch :=
  match i with
  | .nop u => some (.command u 0x00000000)
  | .encode => some (.command .enc 0x00000001)
  | .decode => some (.command .dec 0x00000002)
  | .clear u => some (.command u 0x00000003)
  | .illegal u w => some (.command u w)
  | .ftCount => some (.phase .enc 0x00000010)
  | .tbBuild => some (.phase .enc 0x00000020)
  | .caAssign => some (.phase .enc 0x00000030)
  | .bwPack => some (.phase .enc 0x00000040)
  | .encSerialize => some (.phase .enc 0x00000050)
  | .decParse => some (.phase .dec 0x00000010)
  | .trRebuild => some (.phase .dec 0x00000020)
  | .twWalk => some (.phase .dec 0x00000030)
  | .pqInsert _ => none
  | .pqExtractMin => none
  | .bwPutBit _ => none
  | .bwPutCode _ => none
  | .brGetBit => none
  | .trInsert _ _ => none
  | .encodeBytes _ => none
  | .decodeBytes _ => none

/-- The unit a bare command word is written to, where nothing else says which: the unit on which it is legal; `ENC` where
both or neither would do (log 20). -/
def tableUnit (w : Word) : UnitId := if cmdRsv w = 0 ∧ cmdOp w = 0x02 then .dec else .enc

/-- The fetch that a word of opcode_table.json stands for (log 20): up to 8 bits are the low byte of a `STATUS` word, of
`ENC`; more are a command word. -/
def tableFetch (nbits w : Nat) : Fetch :=
  if nbits ≤ 8 then .phase .enc (BitVec.ofNat 32 (w % 256))
  else .command (tableUnit (BitVec.ofNat 32 w)) (BitVec.ofNat 32 w)

/-- The instruction the decoder reads from a word of opcode_table.json. -/
def decodeTableWord (nbits w : Nat) : Option Instr :=
  match decode (tableFetch nbits w) with
  | .ok i => some i
  | .error _ => none

end Sys2Proof
end

