-- ==== Sys2Proof/Machine/Work.lean ====
section
/-! DEFINITION. The types of the units' tables and working state (10_state.md R26 to R28, R32 to R40). -/

namespace Sys2Proof.Machine

/-- A table indexed by numbers, as its entries in ascending order of index; an index that is not listed holds nothing
(`FREE`, no code, count 0, bit 0, or an unspecified byte, as the table says). R98 allows any finite map for an arena. -/
abbrev Table (α : Type) := List (Nat × α)

/-- A byte buffer (R40, R60): the bytes that have a specified value, by address (log 12). -/
abbrev Memory := List Host.Cell

/-- The canonical form of a table: indices strictly rising. -/
abbrev Table.Wf {α : Type} (m : Table α) : Prop := (m.map Prod.fst).Pairwise (· < ·)

/-- The canonical form of a buffer: addresses strictly rising. An unlisted address has no value, so no listed byte equals
what an unlisted address reads as. -/
abbrev Memory.wf (m : Memory) : Prop := (m.map Prod.fst).Pairwise (· < ·)

/-- The diagnostic result registers `NSYM`, `SYMCNT`, `BITCNT` (R26, R27, R28, R240). -/
structure Diag where
  nsym   : BitVec 9
  symcnt : Word
  bitcnt : BitVec 40
deriving DecidableEq, Repr, Inhabited

/-- An entry of the encoder's node arena that is not `FREE` (R33): a `LEAF` with `SYM` and `W`, or an `INTERNAL` node with
`L`, `R` (`none` is `NIL`) and `W`. -/
inductive EncNode where
  | leaf (sym : Byte) (w : Nat)
  | internal (l r : Option Nat) (w : Nat)
deriving DecidableEq, Repr, Inhabited

/-- The encoder's working state (R32 to R36). `BITCNT` stands in `Diag`. -/
structure EncWork where
  /-- `FREQ`: the symbols in the mapping with their counts; an unlisted symbol has count 0 (R32). -/
  freq : Table Nat
  /-- `NODE`: the entries that are not `FREE` (R33). -/
  node : Table EncNode
  /-- `INQ`: the nodes whose bit is 1 (R34). -/
  inq  : Table Unit
  /-- `NINT` (R34). -/
  nint : Nat
  /-- `ROOT`, `none` is `NIL` (R34). -/
  root : Option Nat
  /-- `CBITS`, and with it `CLEN`, the string's length; an unlisted symbol has `CLEN = 0` (R35). -/
  code : Table Bits
  /-- `PAY` (R36). -/
  pay  : List Byte
deriving DecidableEq, Repr, Inhabited

/-- The BitWriter's state (R145): `PAY` and `BITCNT`. -/
structure BitWriter where
  pay    : List Byte
  bitcnt : BitVec 40
deriving DecidableEq, Repr, Inhabited

/-- One parsed entry of a container: `ESYM` and `EBITS` (R37); `ELEN` is the length of the bit string. -/
structure Entry where
  sym  : Byte
  bits : Bits
deriving DecidableEq, Repr, Inhabited

/-- An allocated node of the decoder's trie (R38): a `LEAF` with its symbol, or an `INTERNAL` node with `C0`, `C1` (`none` is
`NIL`). -/
inductive TrieNode where
  | leaf (sym : Byte)
  | internal (c0 c1 : Option Nat)
deriving DecidableEq, Repr, Inhabited

/-- The trie arena (R38): the allocated entries, in ascending index from 0; `TN` is the number of them. -/
abbrev Trie := List TrieNode

/-- The decoder's working state (R37 to R39). -/
structure DecWork where
  /-- `K` (R37). -/
  k       : BitVec 9
  /-- `ESYM`, `ELEN`, `EBITS` of the entries `0 .. K-1` (R37). -/
  entries : List Entry
  /-- `N` (R37). -/
  n       : Word
  /-- `PAY_OFF` (R37). -/
  payOff  : Word
  /-- `PAY_LEN` (R37). -/
  payLen  : Word
  /-- `T` and `TN` (R38). -/
  trie    : Trie
  /-- `SEEN`: the symbols whose bit is 1 (R38). -/
  seen    : Table Unit
  /-- `CUR` (R39). -/
  cur     : Nat
  /-- `EMITTED` (R39). -/
  emitted : Word
  /-- `BITPOS` (R39). -/
  bitpos  : BitVec 40
deriving DecidableEq, Repr, Inhabited

end Sys2Proof.Machine
end

