-- ==== Sys2Proof/Config.lean ====
section
/-! DEFINITION. The hardware's parameters (00_scope.md R8) and the free values: what the spec calls unspecified (R16,
93_implementation_defined.md S1 to S8). A free value is an opaque constant applied to a counter of the state, so no proof
can know it and two draws may differ. -/

namespace Sys2Proof

/-- The OPEN parameters (R8): `CNT_W` and the four buffer capacities. -/
structure Params where
  cntW      : Nat
  encInCap  : Word
  encOutCap : Word
  decInCap  : Word
  decOutCap : Word
deriving DecidableEq, Repr, Inhabited

namespace Config

/-- The ranges of the parameters (R8). -/
abbrev Valid (p : Params) : Prop :=
  1 ≤ p.cntW ∧ p.cntW ≤ 32 ∧ 1 ≤ p.encInCap.toNat ∧ 6 ≤ p.encOutCap.toNat ∧ 6 ≤ p.decInCap.toNat ∧
    1 ≤ p.decOutCap.toNat

/-- `CNT_W = 32` (R8's default); capacities 4096, the least the test vectors assume (DESIGN CHOICE, log 2). -/
def defaults : Params :=
  { cntW := 32, encInCap := 4096, encOutCap := 4096, decInCap := 4096, decOutCap := 4096 }

/-- `NODE_CAP` (R8): nodes in each arena. -/
def nodeCap : Nat := 511

/-- `K_MAX` (R8): the largest number of distinct symbols. -/
def kMax : Nat := 256

/-- `CODE_MAX` (R8): the longest code, in bits. -/
def codeMax : Nat := 255

/-- An unspecified byte at an address of a buffer (R44, R71, R204; log 6, log 7). -/
opaque unspecByte : Nat → Nat → Byte

/-- An unspecified register value (R25, R201; log 7). -/
opaque unspecWord : Nat → Word

/-- Unspecified `NSYM`, `SYMCNT`, `BITCNT` (R26 to R28, R233; log 7, log 8, log 9). -/
opaque unspecDiag : Nat → Machine.Diag

/-- Unspecified encoder working state (R233, R250; log 8, log 11). -/
opaque unspecEncWork : Nat → Machine.EncWork

/-- An unspecified bit string: what the BitWriter holds where `PAY` and `BITCNT` are unspecified (R36, R233; log 8). -/
opaque unspecBits : Nat → Bits

/-- Unspecified decoder working state (R233, R250; log 8, log 11). -/
opaque unspecDecWork : Nat → Machine.DecWork

/-- An unspecified node index (R122 where its `Requires` does not hold; log 14). -/
opaque unspecIndex : Nat → BitVec 9

/-- Which unit steps when both are `BUSY` and nothing else says which (R211; log 3): `true` is `ENC`. -/
opaque freeTurn : Nat → Bool

end Config
end Sys2Proof
end

