-- ==== Sys2Proof/Machine/State.lean ====
section
/-! DEFINITION. The state of the hardware (10_state.md), as plain data; the machine after reset; and the reasons a step can
stop. -/

namespace Sys2Proof.Machine

/-- `STATUS.STATE` (R84). -/
inductive UnitState where
  | idle
  | busy
  | done
  | fault
deriving DecidableEq, Repr, Inhabited

/-- `STATUS.ERR`: the typed failures (R86, R225). -/
inductive Failure where
  | none
  | emptyInput
  | overflow
  | malformedTree
  | corruptData
  | truncatedStream
  | bufferBound
deriving DecidableEq, Repr, Inhabited

/-- What a host can see of one unit (R21 to R28, R40): the fields of `STATUS`, the other registers, and the two buffers.
`CMD` is no storage (R22); `IN_CAP` and `OUT_CAP` are parameters (R29). -/
structure Block where
  /-- `STATUS.STATE` (R23). -/
  state  : UnitState
  /-- `STATUS.PHASE`, the sequencer register (R31). -/
  phase  : BitVec 4
  /-- `STATUS.ERR` (R23). -/
  err    : Failure
  /-- `STATUS.ILL` (R23). -/
  ill    : Bool
  /-- `IN_LEN` (R24). -/
  inLen  : Word
  /-- `OUT_LEN` (R25). -/
  outLen : Word
  /-- `NSYM`, `SYMCNT`, `BITCNT` (R26 to R28). -/
  diag   : Diag
  /-- `IN`: the bytes written since reset (R44). -/
  inBuf  : Memory
  /-- `OUT`: the bytes with a specified value (R44, R74). -/
  outBuf : Memory
deriving DecidableEq, Repr, Inhabited

/-- The moves that can come next: the host's actions (R200, R212), the two pseudo-operations (R213, R214), and a step of a
unit (R211). -/
inductive Event where
  /-- `RegRead(U, r)` (R201). -/
  | regRead (u : UnitId) (r : BitVec 4)
  /-- `RegWrite(U, r, v)` (R202). -/
  | regWrite (u : UnitId) (r : BitVec 4) (v : Word)
  /-- `HostWriteIn(U, a, b)` (R203). -/
  | writeIn (u : UnitId) (a : Nat) (b : Byte)
  /-- A host write to `U.OUT`, which is ignored (R200). -/
  | writeOut (u : UnitId) (a : Nat) (b : Byte)
  /-- `HostReadIn(U, a)` (R204). -/
  | readIn (u : UnitId) (a : Nat)
  /-- `HostReadOut(U, a)` (R204). -/
  | readOut (u : UnitId) (a : Nat)
  /-- `Reset` (R250). -/
  | reset
  /-- `wait U` (R212). -/
  | wait (u : UnitId)
  /-- The last lines of R213 and R214: read `STATUS`, and the output or the failure. -/
  | collect (u : UnitId)
  /-- A step of unit `U` (R211). -/
  | unitStep (u : UnitId)
  /-- The pseudo-operation `encode(x)` (R213). -/
  | encodeBytes (x : List Byte)
  /-- The pseudo-operation `decode(c)` (R214). -/
  | decodeBytes (c : List Byte)
deriving DecidableEq, Repr

/-- The result of a pseudo-operation: "success-with-value or a typed failure" (R13, R213, R214). -/
inductive HostResult where
  /-- No pseudo-operation has ended yet. -/
  | none
  | success (value : List Byte)
  | failure (e : Failure)
deriving DecidableEq, Repr, Inhabited

/-- The state: the two disjoint units (R20), the parameters (R8), and the model's own fields. -/
structure State where
  /-- The parameters (R8, log 2); no step changes them. -/
  params  : Params
  /-- Unit `ENC`, what a host can see. -/
  enc     : Block
  /-- Unit `ENC`, working state (R32 to R36). -/
  encWork : EncWork
  /-- Unit `DEC`, what a host can see. -/
  dec     : Block
  /-- Unit `DEC`, working state (R37 to R39). -/
  decWork : DecWork
  /-- MODEL'S OWN: the moves still to come, first one first (R200, R211; log 1). -/
  agenda  : List Event
  /-- MODEL'S OWN: counts the draws of free values (log 4). -/
  tick    : Nat
  /-- MODEL'S OWN: the value the last read, or value-returning primitive, handed over (log 5). -/
  ret     : Word
  /-- MODEL'S OWN: the result of the last pseudo-operation (log 5). -/
  result  : HostResult
deriving DecidableEq, Repr

/-- All diagnostic registers 0 (R43). -/
def Diag.zero : Diag := { nsym := 0, symcnt := 0, bitcnt := 0 }

/-- The encoder's working state as the acceptance of `ENCODE` sets it (R42). -/
def EncWork.initial : EncWork :=
  { freq := [], node := [], inq := [], nint := 0, root := none, code := [], pay := [] }

/-- The decoder's working state as the acceptance of `DECODE` sets it (R42). -/
def DecWork.initial : DecWork :=
  { k := 0, entries := [], n := 0, payOff := 0, payLen := 0, trie := [], seen := [], cur := 0, emitted := 0, bitpos := 0 }

/-- A unit's host-visible part after reset (R43, R250): every register 0, no byte of a buffer with a specified value. -/
def Block.reset : Block :=
  { state := .idle, phase := 0, err := .none, ill := false, inLen := 0, outLen := 0, diag := Diag.zero, inBuf := [], outBuf := [] }

/-- The machine right after reset (R43, R250). The working state's contents are unspecified there; the values taken are
R42's (DESIGN CHOICE, log 10). -/
def State.reset : State :=
  { params := Config.defaults
    enc := Block.reset
    encWork := EncWork.initial
    dec := Block.reset
    decWork := DecWork.initial
    agenda := []
    tick := 0
    ret := 0
    result := .none }

/-- Why the machine can be stuck. -/
inductive Fault where
  /-- Raised by `CA.ASSIGN` on a node arena in which the traversal of R135 never ends, because a node is its own descendant;
  no run reaches such an arena (R126). Safe. -/
  | assignDoesNotEnd
deriving DecidableEq, Repr

/-- Why a step is refused. -/
inductive Refusal where
  /-- Raised by an arm of `exec` whose instruction has no meaning yet. Safe. -/
  | notModelled (mnemonic : String)
  /-- Raised by a step of a unit that is `BUSY` with a phase code R85 says never occurs. No run reaches it. Safe. -/
  | reservedPhase (u : UnitId) (code : BitVec 4)
deriving DecidableEq, Repr

end Sys2Proof.Machine
end

