-- ==== Sys2Proof/Machine/Flags.lean ====
section
/-! DEFINITION. The flags: the codes of `STATE` and `ERR` and the `STATUS` word (30_encoding.md R83 to R86), and which result
registers a host may rely on (10_state.md R44). -/

namespace Sys2Proof.Machine

/-- `STATE` codes (R84). -/
def UnitState.toCode (x : UnitState) : Nat :=
  match x with
  | .idle => 0
  | .busy => 1
  | .done => 2
  | .fault => 3

/-- `ERR` codes (R86). -/
def Failure.toCode (e : Failure) : Nat :=
  match e with
  | .none => 0
  | .emptyInput => 1
  | .overflow => 2
  | .malformedTree => 3
  | .corruptData => 4
  | .truncatedStream => 5
  | .bufferBound => 6

/-- The `STATUS` word: `STATE + 16·PHASE + 256·ERR + 4096·ILL` (R83). -/
def Block.statusWord (b : Block) : Word :=
  BitVec.ofNat 32 (b.state.toCode + 16 * b.phase.toNat + 256 * b.err.toCode + 4096 * b.ill.toNat)

/-- The first phase of a command, which its acceptance sets: `COUNT`, `PARSE` (R31, R206, R207). -/
def firstPhase : BitVec 4 := 1

/-- `PHASE` = `NONE` (R85). -/
def phaseNone : BitVec 4 := 0

/-- `ENC` phase `BUILD` (R85). -/
def phaseBuild : BitVec 4 := 2

/-- `ENC` phase `ASSIGN` (R85). -/
def phaseAssign : BitVec 4 := 3

/-- `ENC` phase `PACK` (R85). -/
def phasePack : BitVec 4 := 4

/-- `ENC` phase `SERIALIZE` (R85). -/
def phaseSerialize : BitVec 4 := 5

/-- `DEC` phase `REBUILD` (R85). -/
def phaseRebuild : BitVec 4 := 2

/-- `DEC` phase `WALK` (R85). -/
def phaseWalk : BitVec 4 := 3

/-- Whether `NSYM`, `SYMCNT`, `BITCNT` have a defined value for a host read (R44): in `IDLE` and `DONE`. -/
def Block.diagDefined (b : Block) : Bool := b.state = .idle || b.state = .done

/-- Whether `OUT[a]` has a defined value for a host read (R44, R74, R204). -/
def Block.outDefined (b : Block) (a : Nat) : Bool := b.state = .done && decide (a < b.outLen.toNat)

end Sys2Proof.Machine
end

