-- ==== Sys2Proof/Machine/Operands.lean ====
section
/-! DEFINITION. How numbers and bit strings lie in bytes (00_scope.md R12, 20_memory.md R62, R63, 30_encoding.md R90,
44_bit_writer_reader.md R146 to R149). -/

namespace Sys2Proof.Machine

/-- `be16(b)` (R12, R63). -/
def be16 (b0 b1 : Byte) : Nat := 256 * b0.toNat + b1.toNat

/-- `be32(b)` (R12, R63). -/
def be32 (b0 b1 b2 b3 : Byte) : Nat :=
  2 ^ 24 * b0.toNat + 2 ^ 16 * b1.toNat + 2 ^ 8 * b2.toNat + b3.toNat

/-- `bytes16(v)`: the big-endian bytes of `v` (R12, R63). -/
def bytes16 (v : Nat) : List Byte := [BitVec.ofNat 8 (v / 256), BitVec.ofNat 8 v]

/-- `bytes32(v)` (R12, R63). -/
def bytes32 (v : Nat) : List Byte :=
  [BitVec.ofNat 8 (v / 2 ^ 24), BitVec.ofNat 8 (v / 2 ^ 16), BitVec.ofNat 8 (v / 2 ^ 8), BitVec.ofNat 8 v]

/-- Bit number `t` (0 first) of a byte read most significant bit first: its bit `7 − t` (R62). -/
def bitOfByte (b : Byte) (t : Nat) : Bool := b.getLsbD (7 - t)

/-- `bitat(b, t)`: bit `7 − (t mod 8)` of byte `b[t div 8]` (R12, R62). -/
def bitat (b : List Byte) (t : Nat) : Bool := bitOfByte (b.getD (t / 8) 0) (t % 8)

/-- The bit string of a `CODE` field: `bs[t] = bitat(c, t)` for `t < len`, padding not looked at (R90). -/
def codeBits (c : List Byte) (len : Nat) : Bits := (List.range len).map (bitat c)

/-- The empty BitWriter (R145). -/
def BitWriter.empty : BitWriter := { pay := [], bitcnt := 0 }

/-- `BW.PUTBIT(b)` (R146): start a new zero byte when `BITCNT mod 8 = 0`, add `b · 2^(7 − BITCNT mod 8)` to byte
`BITCNT div 8`, count the bit. Where `PAY` and `BITCNT` do not fit each other (R36, R145; never in a state of the invariant), the byte sum is
modulo 256, and no byte is written at an index that `PAY` does not have: the model's choice (log 28). -/
def BitWriter.putBit (w : BitWriter) (b : Bool) : BitWriter :=
  let n := w.bitcnt.toNat
  let pay := if n % 8 = 0 then w.pay ++ [0x00] else w.pay
  { pay := pay.modify (n / 8) (fun x => x + BitVec.ofNat 8 (b.toNat * 2 ^ (7 - n % 8)))
    bitcnt := w.bitcnt + 1 }

/-- `BW.PUTCODE(bs)` (R147): the bits one after another, first bit first. -/
def BitWriter.putCode (w : BitWriter) (bs : Bits) : BitWriter := bs.foldl BitWriter.putBit w

/-- `packbits(bs)`: "the value of `PAY` after `BW.PUTCODE(bs)` from the empty state" (R149). -/
def packbits (bs : Bits) : List Byte := (BitWriter.empty.putCode bs).pay

end Sys2Proof.Machine
end

