-- ==== Sys2Proof/Machine/Ops.lean ====
section
/-! DEFINITION. The operations every meaning is written with: tables and buffers, the two units, taking a fault
(60_exceptions.md R233) and returning from one (R234, 47_host_commands.md R208), accepting a command (R206, R207), and the
illegal command (R209). -/

namespace Sys2Proof.Machine

/-! Tables. -/

/-- The entry at index `i`. -/
def Table.get {α : Type} (m : Table α) (i : Nat) : Option α :=
  match m with
  | [] => none
  | (k, v) :: m => if k = i then some v else Table.get m i

/-- Write entry `i`, keeping the indices in ascending order. -/
def Table.set {α : Type} (m : Table α) (i : Nat) (x : α) : Table α :=
  match m with
  | [] => [(i, x)]
  | (k, v) :: m =>
    if i < k then (i, x) :: (k, v) :: m
    else if i = k then (i, x) :: m
    else (k, v) :: Table.set m i x

/-- Remove entry `i`. -/
def Table.erase {α : Type} (m : Table α) (i : Nat) : Table α := m.filter (fun e => e.1 ≠ i)

/-- The indices that are listed. -/
def Table.keys {α : Type} (m : Table α) : List Nat := m.map Prod.fst

/-! Buffers (20_memory.md R60, R75). -/

/-- The specified byte at an address; `none` where the byte is unspecified. -/
def Memory.read (m : Memory) (a : Nat) : Option Byte := Table.get m a

/-- Store one byte. -/
def Memory.write (m : Memory) (a : Nat) (b : Byte) : Memory := Table.set m a b

/-- `MemWrite(sp, a, n, v)`: store a byte sequence from address `a` up (R12, R75). -/
def Memory.writeAll (m : Memory) (a : Nat) (v : List Byte) : Memory :=
  match v with
  | [] => m
  | b :: v => Memory.writeAll (m.write a b) (a + 1) v

/-- `MemRead(sp, a, n)`: the bytes at `a .. a+n-1`, lowest address first, through a reader of one byte (R12, R75). -/
def memRead (rd : Nat → Byte) (a n : Nat) : List Byte := (List.range n).map (fun i => rd (a + i))

/-! The two units (10_state.md R20). -/

/-- The host-visible part of a unit. -/
def State.block (s : State) (u : UnitId) : Block :=
  match u with
  | .enc => s.enc
  | .dec => s.dec

/-- Replace the host-visible part of a unit. -/
def State.withBlock (s : State) (u : UnitId) (b : Block) : State :=
  match u with
  | .enc => { s with enc := b }
  | .dec => { s with dec := b }

/-- `IN_CAP` of a unit (R29). -/
def State.inCap (s : State) (u : UnitId) : Word :=
  match u with
  | .enc => s.params.encInCap
  | .dec => s.params.decInCap

/-- `OUT_CAP` of a unit (R29). -/
def State.outCap (s : State) (u : UnitId) : Word :=
  match u with
  | .enc => s.params.encOutCap
  | .dec => s.params.decOutCap

/-- Whether a unit's `STATE` is `BUSY` (R67, R211). -/
def State.busy (s : State) (u : UnitId) : Bool := (s.block u).state = .busy

/-- A draw of free values: later draws are other ones (log 4). -/
def State.drawn (s : State) : State := { s with tick := s.tick + 1 }

/-- The byte a unit, or a host, reads at an address of `IN`: the byte last written there since reset, else an unspecified
byte (R44, R204, R252; log 6). -/
def State.inByte (s : State) (u : UnitId) (a : Nat) : Byte :=
  ((s.block u).inBuf.read a).getD (Config.unspecByte s.tick a)

/-- The command's input `IN[0 .. IN_LEN-1]` (R70, R72). -/
def State.input (s : State) (u : UnitId) : List Byte := memRead (s.inByte u) 0 (s.block u).inLen.toNat

/-- An unspecified BitWriter, within the limits that R36 and R145 set at all times, `|PAY| = ceil8(BITCNT)` and zero padding: it
holds an unspecified bit string of fewer than 2^40 bits (log 8). -/
def freeBitWriter (k : Nat) : BitWriter :=
  if (Config.unspecBits k).length < 2 ^ 40 then BitWriter.empty.putCode (Config.unspecBits k) else BitWriter.empty

/-- A unit's working state becomes unspecified, `PAY` within the limits of R36 (R233, R250; log 8, log 11). -/
def State.forgetWork (s : State) (u : UnitId) : State :=
  match u with
  | .enc => { s with encWork := { Config.unspecEncWork s.tick with pay := (freeBitWriter s.tick).pay } }
  | .dec => { s with decWork := Config.unspecDecWork s.tick }

/-- A unit's working state as a command's acceptance initialises it (R42). -/
def State.initWork (s : State) (u : UnitId) : State :=
  match u with
  | .enc => { s with encWork := EncWork.initial }
  | .dec => { s with decWork := DecWork.initial }

/-- `PAY` becomes empty where `BITCNT` is set to 0, so that `|PAY| = ceil8(BITCNT)` holds "at all times" (R36, R145; log 27); the
decoder has no BitWriter. -/
def State.emptyPay (s : State) (u : UnitId) : State :=
  match u with
  | .enc => { s with encWork := { s.encWork with pay := [] } }
  | .dec => s

/-! Taking a fault, and leaving it. -/

/-- The diagnostic registers after a fault: unspecified, `ENC.BITCNT` fitting the unspecified `PAY` (R233, R36; log 8). -/
def faultDiag (u : UnitId) (k : Nat) : Diag :=
  match u with
  | .enc => { Config.unspecDiag k with bitcnt := (freeBitWriter k).bitcnt }
  | .dec => Config.unspecDiag k

/-- Fault entry on the host-visible part (R233): `ERR`, `STATE`, `OUT_LEN` written; `OUT` and the diagnostic registers
unspecified; `PHASE`, `ILL`, `IN_LEN`, `IN` kept. -/
def Block.raised (b : Block) (e : Failure) (d : Diag) : Block :=
  { b with state := .fault, err := e, outLen := 0, diag := d, outBuf := [] }

/-- `raise F` in unit `u` (R233): the shared operation of every fault. -/
def State.raise (s : State) (u : UnitId) (e : Failure) : State :=
  (State.forgetWork (s.withBlock u ((s.block u).raised e (faultDiag u s.tick))) u).drawn

/-- `CLEAR` on the host-visible part (R208), the return from a fault (R234). -/
def Block.cleared (b : Block) : Block :=
  { b with state := .idle, phase := phaseNone, err := .none, ill := false, outLen := 0, diag := Diag.zero, outBuf := [] }

/-- The return from a fault, or from `DONE`, to `IDLE` (R208, R234). `BITCNT <- 0` empties the BitWriter's `PAY` with it (R36;
log 27). -/
def State.returnToIdle (s : State) (u : UnitId) : State := State.emptyPay (s.withBlock u (s.block u).cleared) u

/-- The illegal command (R209): `ILL <- 1`, nothing else. -/
def State.markIllegal (s : State) (u : UnitId) : State := s.withBlock u { s.block u with ill := true }

/-- The diagnostic registers at acceptance (R206, R207): unspecified until `DONE`, but that the encoder's `BITCNT`, which is
the BitWriter's counter, starts at 0 (R42, R145). -/
def acceptDiag (u : UnitId) (d : Diag) : Diag :=
  match u with
  | .enc => { d with bitcnt := 0 }
  | .dec => d

/-- Acceptance on the host-visible part, of a length that fits (R206, R207): `ERR <- 0`, `OUT_LEN <- 0`, the result
unspecified, the first phase next, `BUSY`; `ILL` unchanged. -/
def Block.accepted (b : Block) (d : Diag) : Block :=
  { b with state := .busy, phase := firstPhase, err := .none, outLen := 0, diag := d, outBuf := [] }

/-- Acceptance of `ENCODE` or `DECODE` (R206, R207): the working state initialised (R42), then `BufferBound` with `PHASE` =
`NONE` when the input is longer than the buffer, else the first phase. -/
def State.accept (s : State) (u : UnitId) : State :=
  if s.inCap u < (s.block u).inLen then
    State.raise (s.withBlock u { s.block u with phase := phaseNone }) u .bufferBound
  else
    (State.initWork (s.withBlock u ((s.block u).accepted (acceptDiag u (Config.unspecDiag s.tick)))) u).drawn

/-- A command ends in success (R161, R176, R180): `OUT_LEN` and the diagnostic registers written, `PHASE <- NONE`,
`STATE <- DONE`. -/
def Block.finished (b : Block) (outLen : Word) (d : Diag) (out : Memory) : Block :=
  { b with state := .done, phase := phaseNone, outLen := outLen, diag := d, outBuf := out }

/-- Run `f` on the next state, or stop as before. -/
def andThen (o : Host.Outcome State Fault Refusal) (f : State → Host.Outcome State Fault Refusal) :
    Host.Outcome State Fault Refusal :=
  match o with
  | .next s => f s
  | .fault r => .fault r
  | .refused r => .refused r

end Sys2Proof.Machine
end

