-- ==== Sys2Proof/Machine/CodeAssigner.lean ====
section
/-! DEFINITION. CodeAssigner: the phase `CA.ASSIGN` (43_code_assigner.md). -/

namespace Sys2Proof.Machine

/-- How a traversal ends without a code table. -/
inductive AssignStop where
  /-- `raise MalformedTree` (R137). -/
  | malformed
  /-- The traversal goes on for ever (log 16). -/
  | endless
deriving DecidableEq, Repr

/-- More visits than a traversal that ends can make in an arena of `NODE_CAP` nodes. -/
def visitBound : Nat := 2 ^ (Config.nodeCap + 1)

/-- The traversal of R135 with its stack `STK`: pop, record a leaf, or push the right and then the left child. -/
def assignLoop (node : Table EncNode) (fuel : Nat) (stk : List (Nat × Bits)) (code : Table Bits) :
    Except AssignStop (Table Bits) :=
  match fuel, stk with
  | _, [] => .ok code
  | 0, _ :: _ => .error .endless
  | fuel + 1, (n, p) :: stk =>
    match Table.get node n with
    | some (.leaf s _) => assignLoop node fuel stk (Table.set code s.toNat p)
    | some (.internal (some l) (some r) _) => assignLoop node fuel ((l, p ++ [false]) :: (r, p ++ [true]) :: stk) code
    | some (.internal _ _ _) => .error .malformed
    | none => .error .malformed

/-- The code table of the tree under `root` (R135), the lone leaf's one-bit code "0" included (R136); `NIL` names no entry and
is treated as a `FREE` one (R137). -/
def assignCodes (node : Table EncNode) (root : Option Nat) (code : Table Bits) : Except AssignStop (Table Bits) :=
  match root with
  | none => .error .malformed
  | some r =>
    match Table.get node r with
    | some (.leaf s _) => .ok (Table.set code s.toNat [false])
    | _ => assignLoop node visitBound [(r, [])] code

/-- `CA.ASSIGN` (R135). -/
def execCaAssign (s : State) : Host.Outcome State Fault Refusal :=
  match assignCodes s.encWork.node s.encWork.root s.encWork.code with
  | .ok code =>
    .next { s with
      enc := { s.enc with phase := phasePack }
      encWork := { s.encWork with code := code } }
  | .error .malformed => .next (s.raise .enc .malformedTree)
  | .error .endless => .fault .assignDoesNotEnd

end Sys2Proof.Machine
end

