-- ==== Sys2Proof/Machine/Commands.lean ====
section
/-! DEFINITION. The host's commands (47_host_commands.md R205 to R210). -/

namespace Sys2Proof.Machine

/-- `NOP` (R205): no state changes, in any `STATE`. -/
def execNop (_u : UnitId) (s : State) : Host.Outcome State Fault Refusal := .next s

/-- A command that R82 makes illegal while the unit is `BUSY` (R209), and else does `f`. -/
def unlessBusy (u : UnitId) (s : State) (f : State → State) : State :=
  if s.busy u then s.markIllegal u else f s

/-- `ENCODE` (R206). -/
def execEncode (s : State) : Host.Outcome State Fault Refusal :=
  .next (unlessBusy .enc s (fun s => s.accept .enc))

/-- `DECODE` (R207). -/
def execDecode (s : State) : Host.Outcome State Fault Refusal :=
  .next (unlessBusy .dec s (fun s => s.accept .dec))

/-- `CLEAR` (R208). -/
def execClear (u : UnitId) (s : State) : Host.Outcome State Fault Refusal :=
  .next (unlessBusy u s (fun s => s.returnToIdle u))

/-- An illegal command (R209). -/
def execIllegal (u : UnitId) (_w : Word) (s : State) : Host.Outcome State Fault Refusal := .next (s.markIllegal u)

end Sys2Proof.Machine
end

