-- ==== Sys2Proof/Machine/FrequencyTable.lean ====
section
/-! DEFINITION. FrequencyTable: the phase `FT.COUNT` (41_frequency_table.md). -/

namespace Sys2Proof.Machine

/-- `FREQ[s]`: an unlisted symbol has count 0 (R32). -/
def Table.count (f : Table Nat) (s : Nat) : Nat := (Table.get f s).getD 0

/-- The loop of R110 over the input bytes: `none` is `raise Overflow`, at the first byte whose counter already holds the
largest `CNT_W`-bit value. -/
def countBytes (cntW : Nat) (f : Table Nat) (input : List Byte) : Option (Table Nat) :=
  match input with
  | [] => some f
  | b :: rest =>
    if f.count b.toNat = 2 ^ cntW - 1 then none
    else countBytes cntW (f.set b.toNat (f.count b.toNat + 1)) rest

/-- The number of symbols `s` in 0 to 255 with `FREQ[s] > 0` (R110). -/
def distinctSymbols (f : Table Nat) : Nat := ((List.range 256).filter (fun s => 0 < f.count s)).length

/-- `FT.COUNT` (R110). -/
def execFtCount (s : State) : Host.Outcome State Fault Refusal :=
  match countBytes s.params.cntW s.encWork.freq (s.input .enc) with
  | none => .next (s.raise .enc .overflow)
  | some f =>
    .next { s.drawn with
      enc := { s.enc with
        phase := if distinctSymbols f = 0 then phaseSerialize else phaseBuild
        diag := { s.enc.diag with nsym := BitVec.ofNat 9 (distinctSymbols f), symcnt := s.enc.inLen } }
      encWork := { s.encWork with freq := f } }

end Sys2Proof.Machine
end

