-- ==== Sys2Proof/Machine/Parser.lean ====
section
/-! DEFINITION. The phase `DEC.PARSE` (46_decoder.md R176, R177). -/

namespace Sys2Proof.Machine

/-- The entry loop of R176: `k` entries from byte `p` up, through a reader of `DEC.IN`; the entries and the cursor after them;
`none` is `raise CorruptData`. -/
def parseEntries (rd : Nat → Byte) (len k p : Nat) : Option (List Entry × Nat) :=
  match k with
  | 0 => some ([], p)
  | k + 1 =>
    if len < p + 2 then none
    else if (rd (p + 1)).toNat = 0 then none
    else if len < p + 2 + ceil8 (rd (p + 1)).toNat then none
    else
      match parseEntries rd len k (p + 2 + ceil8 (rd (p + 1)).toNat) with
      | none => none
      | some (es, q) =>
        some ({ sym := rd p, bits := codeBits (memRead rd (p + 2) (ceil8 (rd (p + 1)).toNat)) (rd (p + 1)).toNat } :: es, q)

/-- A parsed header (R37). -/
structure Header where
  k       : Nat
  entries : List Entry
  n       : Nat
  payOff  : Nat
deriving DecidableEq, Repr

/-- The header of the container of `len` bytes (R176), the checks in the order written; `none` is `raise CorruptData`. -/
def parseHeader (rd : Nat → Byte) (len : Nat) : Option Header :=
  if len < 2 then none
  else if Config.kMax < be16 (rd 0) (rd 1) then none
  else
    match parseEntries rd len (be16 (rd 0) (rd 1)) 2 with
    | none => none
    | some (es, p) =>
      if len < p + 4 then none
      else some { k := be16 (rd 0) (rd 1), entries := es, n := be32 (rd p) (rd (p + 1)) (rd (p + 2)) (rd (p + 3)), payOff := p + 4 }

/-- The parsed header in the decoder's working state (R37, R176). -/
def DecWork.withHeader (w : DecWork) (h : Header) (len : Nat) : DecWork :=
  { w with
    k := BitVec.ofNat 9 h.k
    entries := h.entries
    n := BitVec.ofNat 32 h.n
    payOff := BitVec.ofNat 32 h.payOff
    payLen := BitVec.ofNat 32 (len - h.payOff) }

/-- `DEC.PARSE` (R176); when `N = 0` the command ends here with empty output (R177). -/
def execDecParse (s : State) : Host.Outcome State Fault Refusal :=
  match parseHeader (s.inByte .dec) s.dec.inLen.toNat with
  | none => .next (s.raise .dec .corruptData)
  | some h =>
    .next { s.drawn with
      dec :=
        if h.n = 0 then
          s.dec.finished 0 { nsym := BitVec.ofNat 9 h.k, symcnt := 0, bitcnt := 0 } s.dec.outBuf
        else
          { s.dec with
            phase := phaseRebuild
            diag := { s.dec.diag with nsym := BitVec.ofNat 9 h.k, symcnt := BitVec.ofNat 32 h.n } }
      decWork := s.decWork.withHeader h s.dec.inLen.toNat }

end Sys2Proof.Machine
end

