-- ==== Sys2Proof/Machine/BitPacker.lean ====
section
/-! DEFINITION. BitWriter and BitReader as operations, and the phase `BW.PACK` (44_bit_writer_reader.md). -/

namespace Sys2Proof.Machine

/-- `CBITS[s]`: empty for a symbol without a code (R35). -/
def Table.bits (code : Table Bits) (s : Nat) : Bits := (Table.get code s).getD []

/-- The BitWriter of `ENC` (R36, R145). -/
def State.bitWriter (s : State) : BitWriter := { pay := s.encWork.pay, bitcnt := s.enc.diag.bitcnt }

/-- Store the BitWriter's state back. -/
def State.withBitWriter (s : State) (w : BitWriter) : State :=
  { s with
    enc := { s.enc with diag := { s.enc.diag with bitcnt := w.bitcnt } }
    encWork := { s.encWork with pay := w.pay } }

/-- `BW.PUTBIT(b)` as an operation of its own (R146). -/
def execBwPutBit (b : Bool) (s : State) : Host.Outcome State Fault Refusal :=
  .next (s.withBitWriter (s.bitWriter.putBit b))

/-- `BW.PUTCODE(bs)` as an operation of its own (R147). -/
def execBwPutCode (bs : Bits) (s : State) : Host.Outcome State Fault Refusal :=
  .next (s.withBitWriter (s.bitWriter.putCode bs))

/-- The loop of R148: the code of each input byte, in input order. -/
def packInput (code : Table Bits) (w : BitWriter) (input : List Byte) : BitWriter :=
  input.foldl (fun w b => w.putCode (code.bits b.toNat)) w

/-- `BW.PACK` (R148). -/
def execBwPack (s : State) : Host.Outcome State Fault Refusal :=
  let t := s.drawn.withBitWriter (packInput s.encWork.code s.bitWriter (s.input .enc))
  .next { t with enc := { t.enc with phase := phaseSerialize } }

/-- The bit `BR.GETBIT` yields (R150): bit `7 − (BITPOS mod 8)` of the byte at `PAY_OFF + BITPOS div 8`. -/
def payloadBit (rd : Nat → Byte) (payOff bitpos : Nat) : Bool := bitOfByte (rd (payOff + bitpos / 8)) (bitpos % 8)

/-- `BR.GETBIT() -> b` as an operation of its own (R150): the bit goes to `ret` (log 22). -/
def execBrGetBit (s : State) : Host.Outcome State Fault Refusal :=
  .next { s.drawn with
    decWork := { s.decWork with bitpos := s.decWork.bitpos + 1 }
    ret := BitVec.ofNat 32
      (payloadBit (s.inByte .dec) s.decWork.payOff.toNat s.decWork.bitpos.toNat).toNat }

end Sys2Proof.Machine
end

