-- ==== Sys2Proof/Machine/Serializer.lean ====
section
/-! DEFINITION. The container (30_encoding.md R87 to R94) and the phase `ENC.SERIALIZE` (45_encoder.md R161). -/

namespace Sys2Proof.Machine

/-- The entry of symbol `s`: `SYM`, `LEN`, `CODE`; nothing when `CLEN[s] = 0` (R89, R161). -/
def entryBytes (code : Table Bits) (s : Nat) : List Byte :=
  if 0 < (code.bits s).length then
    BitVec.ofNat 8 s :: BitVec.ofNat 8 (code.bits s).length :: packbits (code.bits s)
  else []

/-- The container: `K`, the entries in ascending symbol order, `N`, the payload (R87, R161). -/
def containerBytes (nsym symcnt : Nat) (code : Table Bits) (pay : List Byte) : List Byte :=
  bytes16 nsym ++ ((List.range 256).flatMap (entryBytes code) ++ (bytes32 symcnt ++ pay))

/-- The container of the encoder's present tables. -/
def State.container (s : State) : List Byte :=
  containerBytes s.enc.diag.nsym.toNat s.enc.diag.symcnt.toNat s.encWork.code s.encWork.pay

/-- `ENC.SERIALIZE` (R161). -/
def execEncSerialize (s : State) : Host.Outcome State Fault Refusal :=
  if s.params.encOutCap.toNat < s.container.length then .next (s.raise .enc .bufferBound)
  else
    .next { s with
      enc := s.enc.finished (BitVec.ofNat 32 s.container.length) s.enc.diag (s.enc.outBuf.writeAll 0 s.container) }

end Sys2Proof.Machine
end

