-- ==== Sys2Proof/Machine/TreeBuilder.lean ====
section
/-! DEFINITION. TreeBuilder: the priority collection, its primitives, and the phase `TB.BUILD` (42_tree_builder.md). -/

namespace Sys2Proof.Machine

/-- `W` of a node (R33). -/
def EncNode.weight (n : EncNode) : Nat :=
  match n with
  | .leaf _ w => w
  | .internal _ _ w => w

/-- `W[i]`: 0 for a `FREE` entry (R42). -/
def EncWork.weight (w : EncWork) (i : Nat) : Nat := ((Table.get w.node i).map EncNode.weight).getD 0

/-- The priority order: `(W[i], i) < (W[j], j)`, lexicographic (R120). -/
abbrev EncWork.Before (w : EncWork) (i j : Nat) : Prop :=
  w.weight i < w.weight j ∨ (w.weight i = w.weight j ∧ i < j)

/-- The member of a list of nodes that comes first in the order of R120. -/
def EncWork.first (w : EncWork) (is : List Nat) : Option Nat :=
  match is with
  | [] => none
  | i :: rest =>
    match w.first rest with
    | none => some i
    | some j => if w.Before i j then some i else some j

/-- The nodes in the collection: those with `INQ[i] = 1` (R34, R120). -/
def EncWork.members (w : EncWork) : List Nat := Table.keys w.inq

/-- `PQ.INSERT(i)`: `INQ[i] <- 1` (R121). -/
def EncWork.pqInsert (w : EncWork) (i : Nat) : EncWork := { w with inq := Table.set w.inq i () }

/-- `PQ.EXTRACTMIN() -> i`: the member that comes first, taken out; `none` when there is no member (R122). -/
def EncWork.pqExtractMin (w : EncWork) : Option (Nat × EncWork) :=
  (w.first w.members).map (fun i => (i, { w with inq := Table.erase w.inq i }))

/-- The body of the leaf loop of R123 for symbol `s`. -/
def EncWork.addLeaf (w : EncWork) (s : Nat) : EncWork :=
  if 0 < w.freq.count s then
    EncWork.pqInsert { w with node := Table.set w.node s (.leaf (BitVec.ofNat 8 s) (w.freq.count s)) } s
  else w

/-- The leaf loop of R123: ascending symbol order. -/
def EncWork.addLeaves (w : EncWork) : EncWork := (List.range 256).foldl EncWork.addLeaf w

/-- The new internal node of R123 over `a` ("first extracted", left) and `b` ("second extracted", right). -/
def EncWork.join (w : EncWork) (a b : Nat) : EncWork :=
  let i := 256 + w.nint
  let w := { w with node := Table.set w.node i (.internal (some a) (some b) (w.weight a + w.weight b)) }
  { w.pqInsert i with nint := w.nint + 1 }

/-- The body of the merge loop of R123: extract two, join them. It runs only while the collection has two members. -/
def EncWork.merge (w : EncWork) : EncWork :=
  match w.pqExtractMin with
  | none => w
  | some (a, w1) =>
    match w1.pqExtractMin with
    | none => w
    | some (b, w2) => w2.join a b

/-- The merge loop of R123; `fuel` is the number of members, which every turn lessens. -/
def EncWork.mergeAll (fuel : Nat) (w : EncWork) : EncWork :=
  match fuel with
  | 0 => w
  | fuel + 1 => if 1 < w.inq.length then mergeAll fuel w.merge else w

/-- The whole of `TB.BUILD`'s loops: leaves, then merges (R123). -/
def EncWork.built (w : EncWork) : EncWork := EncWork.mergeAll w.addLeaves.inq.length w.addLeaves

/-- `TB.BUILD` (R123); `ROOT` is the one member left (a free value where there is none, log 14). -/
def execTbBuild (s : State) : Host.Outcome State Fault Refusal :=
  if s.enc.diag.nsym = 0 then .next (s.raise .enc .emptyInput)
  else
    .next { s.drawn with
      enc := { s.enc with phase := phaseAssign }
      encWork := { s.encWork.built with
        root := match s.encWork.built.members with
          | [] => (Config.unspecEncWork s.tick).root
          | i :: _ => some i } }

/-- `PQ.INSERT(i)` as an operation of its own (R121; log 15). -/
def execPqInsert (i : Nat) (s : State) : Host.Outcome State Fault Refusal :=
  .next { s with encWork := s.encWork.pqInsert i }

/-- `PQ.EXTRACTMIN() -> i` as an operation of its own (R122): the index goes to `ret`; on an empty collection the index is a
free value (log 14). -/
def execPqExtractMin (s : State) : Host.Outcome State Fault Refusal :=
  match s.encWork.pqExtractMin with
  | some (i, w) => .next { s.drawn with encWork := w, ret := BitVec.ofNat 32 i }
  | none => .next { s.drawn with ret := (Config.unspecIndex s.tick).setWidth 32 }

end Sys2Proof.Machine
end

