-- ==== Sys2Proof/Machine/TreeRebuilder.lean ====
section
/-! DEFINITION. The decoder's trie: the primitive `TR.INSERT` and the phase `TR.REBUILD` (46_decoder.md R178, R179). -/

namespace Sys2Proof.Machine

/-- `child(n, b)`: `C0[n]` or `C1[n]`; `NIL` for an entry that has no children (R178). -/
def Trie.child (t : Trie) (n : Nat) (b : Bool) : Option Nat :=
  match t[n]?, b with
  | some (.internal c0 _), false => c0
  | some (.internal _ c1), true => c1
  | some (.leaf _), _ => none
  | none, _ => none

/-- `child(n, b) <- i` (R178; on an entry that is not `INTERNAL`, log 23). -/
def Trie.setChild (t : Trie) (n : Nat) (b : Bool) (i : Nat) : Trie :=
  t.modify n (fun x =>
    match x, b with
    | .internal _ c1, false => .internal (some i) c1
    | .internal c0 _, true => .internal c0 (some i)
    | .leaf s, _ => .leaf s)

/-- Whether `KIND[n] = LEAF`, and then `SYM[n]` (R38). -/
def Trie.leafAt (t : Trie) (n : Nat) : Option Byte :=
  match t[n]? with
  | some (.leaf s) => some s
  | some (.internal _ _) => none
  | none => none

/-- `alloc(kind, sym)` (R178): the trie with one more entry, and its index; `none` is `raise CorruptData` when `NODE_CAP`
entries are taken. -/
def Trie.alloc (t : Trie) (x : TrieNode) : Option (Trie × Nat) :=
  if t.length = Config.nodeCap then none else some (t ++ [x], t.length)

/-- The loop of R178 from node `cur` over the bits still to place; `none` is `raise CorruptData`. -/
def Trie.place (t : Trie) (s : Byte) (cur : Nat) (bs : Bits) : Option Trie :=
  match bs with
  | [] => some t
  | b :: rest =>
    match t.leafAt cur with
    | some _ => none
    | none =>
      match rest, t.child cur b with
      | _ :: _, some nxt => Trie.place t s nxt rest
      | _ :: _, none =>
        match t.alloc (.internal none none) with
        | none => none
        | some (t, nxt) => Trie.place (t.setChild cur b nxt) s nxt rest
      | [], some _ => none
      | [], none =>
        match t.alloc (.leaf s) with
        | none => none
        | some (t, nxt) => some (t.setChild cur b nxt)

/-- `TR.INSERT(s, bs)` (R178) on the trie and `SEEN`; `none` is `raise CorruptData`. -/
def trieInsert (t : Trie) (seen : Table Unit) (s : Byte) (bs : Bits) : Option (Trie × Table Unit) :=
  if (Table.get seen s.toNat).isSome then none
  else
    match t.place s 0 bs with
    | none => none
    | some t => some (t, Table.set seen s.toNat ())

/-- The entry loop of R179, in container order. -/
def insertEntries (t : Trie) (seen : Table Unit) (es : List Entry) : Option (Trie × Table Unit) :=
  match es with
  | [] => some (t, seen)
  | e :: es =>
    match trieInsert t seen e.sym e.bits with
    | none => none
    | some (t, seen) => insertEntries t seen es

/-- The trie of a working state (R179): `none` is `raise CorruptData`; the entries inserted are `0 .. K-1`. -/
def DecWork.rebuild (w : DecWork) : Option (Trie × Table Unit) :=
  if w.k = 0 then none
  else
    match w.trie.alloc (.internal none none) with
    | none => none
    | some (t, _) => insertEntries t w.seen (w.entries.take w.k.toNat)

/-- `TR.REBUILD` (R179). -/
def execTrRebuild (s : State) : Host.Outcome State Fault Refusal :=
  match s.decWork.rebuild with
  | none => .next (s.raise .dec .corruptData)
  | some (t, seen) =>
    .next { s with
      dec := { s.dec with phase := phaseWalk }
      decWork := { s.decWork with trie := t, seen := seen } }

/-- `TR.INSERT(s, bs)` as an operation of its own (R178). -/
def execTrInsert (sym : Byte) (bs : Bits) (s : State) : Host.Outcome State Fault Refusal :=
  match trieInsert s.decWork.trie s.decWork.seen sym bs with
  | none => .next (s.raise .dec .corruptData)
  | some (t, seen) => .next { s with decWork := { s.decWork with trie := t, seen := seen } }

end Sys2Proof.Machine
end

