-- ==== Sys2Proof/Machine/TreeWalker.lean ====
section
/-! DEFINITION. The phase `TW.WALK` (46_decoder.md R180). -/

namespace Sys2Proof.Machine

/-- How far a walk has come: `CUR`, `EMITTED`, `BITPOS`, and the symbols written to `OUT`. -/
structure WalkState where
  cur     : Nat
  emitted : Nat
  bitpos  : Nat
  out     : Memory
deriving DecidableEq, Repr

/-- The loop of R180. `left` is the number of payload bits not yet yielded, `8 × PAY_LEN − BITPOS`. -/
def walkLoop (rd : Nat → Byte) (payOff n : Nat) (t : Trie) (left : Nat) (w : WalkState) : Except Failure WalkState :=
  if w.emitted < n then
    match left with
    | 0 => .error .truncatedStream
    | left + 1 =>
      match t.child w.cur (payloadBit rd payOff w.bitpos) with
      | none => .error .corruptData
      | some nxt =>
        match t.leafAt nxt with
        | some s =>
          walkLoop rd payOff n t left
            { cur := 0, emitted := w.emitted + 1, bitpos := w.bitpos + 1, out := w.out.write w.emitted s }
        | none => walkLoop rd payOff n t left { w with cur := nxt, bitpos := w.bitpos + 1 }
  else .ok w

/-- The walk of a unit's payload (R180), `CUR`, `EMITTED`, `BITPOS` starting at 0. -/
def State.walk (s : State) : Except Failure WalkState :=
  walkLoop (s.inByte .dec) s.decWork.payOff.toNat s.decWork.n.toNat s.decWork.trie (8 * s.decWork.payLen.toNat)
    { cur := 0, emitted := 0, bitpos := 0, out := s.dec.outBuf }

/-- `TW.WALK` (R180). -/
def execTwWalk (s : State) : Host.Outcome State Fault Refusal :=
  if s.params.decOutCap < s.decWork.n then .next (s.raise .dec .bufferBound)
  else
    match s.walk with
    | .error e => .next (s.raise .dec e)
    | .ok w =>
      .next { s.drawn with
        dec := s.dec.finished s.decWork.n { s.dec.diag with bitcnt := BitVec.ofNat 40 w.bitpos } w.out
        decWork := { s.decWork with
          cur := w.cur, emitted := BitVec.ofNat 32 w.emitted, bitpos := BitVec.ofNat 40 w.bitpos } }

end Sys2Proof.Machine
end

