-- ==== Sys2Proof/Machine/HostAccess.lean ====
section
/-! DEFINITION. The host's accesses (47_host_commands.md R200 to R204), reset (70_reset_and_hazards.md R250), the steps a
unit takes while the host waits, and the two pseudo-operations (R212 to R214). -/

namespace Sys2Proof.Machine

/-- The diagnostic registers a host read sees: the stored ones where they are defined, else unspecified ones (R44, R201). -/
def State.visibleDiag (s : State) (u : UnitId) : Diag :=
  if (s.block u).diagDefined then (s.block u).diag else Config.unspecDiag s.tick

/-- The value of `RegRead(U, r)` (R201, R21). -/
def State.regValue (s : State) (u : UnitId) (r : BitVec 4) : Word :=
  match r.toNat with
  | 0 => 0
  | 1 => (s.block u).statusWord
  | 2 => (s.block u).inLen
  | 3 => if s.busy u then Config.unspecWord s.tick else (s.block u).outLen
  | 4 => (s.visibleDiag u).nsym.setWidth 32
  | 5 => (s.visibleDiag u).symcnt
  | 6 => (s.visibleDiag u).bitcnt.extractLsb' 0 32
  | 7 => ((s.visibleDiag u).bitcnt.extractLsb' 32 8).setWidth 32
  | 8 => s.inCap u
  | 9 => s.outCap u
  | _ => 0

/-- `RegRead(U, r)` (R201): no effect on the hardware; the value goes to `ret`. -/
def State.regRead (s : State) (u : UnitId) (r : BitVec 4) : State := { s.drawn with ret := s.regValue u r }

/-- A write to `IN_LEN` (R202, R67): ignored while `BUSY`. -/
def State.writeInLen (s : State) (u : UnitId) (v : Word) : State :=
  if s.busy u then s else s.withBlock u { s.block u with inLen := v }

/-- `HostWriteIn(U, a, b)` (R203): ignored while `BUSY` and at an address outside the buffer. -/
def State.writeIn (s : State) (u : UnitId) (a : Nat) (b : Byte) : State :=
  if s.busy u = false ∧ a < (s.inCap u).toNat then
    s.withBlock u { s.block u with inBuf := (s.block u).inBuf.write a b }
  else s

/-- `HostReadIn(U, a)` (R204, R71): legal in every `STATE`. -/
def State.readIn (s : State) (u : UnitId) (a : Nat) : State :=
  { s.drawn with
    ret := (if a < (s.inCap u).toNat then s.inByte u a else Config.unspecByte s.tick a).setWidth 32 }

/-- The byte `HostReadOut(U, a)` returns (R204, R74). -/
def State.outByte (s : State) (u : UnitId) (a : Nat) : Byte :=
  if (s.block u).outDefined a then ((s.block u).outBuf.read a).getD (Config.unspecByte s.tick a)
  else Config.unspecByte s.tick a

/-- `HostReadOut(U, a)` (R204). -/
def State.readOut (s : State) (u : UnitId) (a : Nat) : State := { s.drawn with ret := (s.outByte u a).setWidth 32 }

/-- `Reset` of one unit (R250, R251): the registers as after reset, the buffers and the working state unspecified, but that `PAY` fits
`BITCNT = 0` (R36; log 27). -/
def State.resetUnit (s : State) (u : UnitId) : State := State.emptyPay (State.forgetWork (s.withBlock u Block.reset) u) u

/-- `Reset` (R250): both units. -/
def State.resetUnits (s : State) : State := ((s.resetUnit .enc).resetUnit .dec).drawn

/-- One step of a unit (R211): the phase operation that `STATUS.PHASE` names. -/
def unitPhase (u : UnitId) (s : State) : Host.Outcome State Fault Refusal :=
  match decode (.phase u (s.block u).statusWord) with
  | .ok .ftCount => execFtCount s
  | .ok .tbBuild => execTbBuild s
  | .ok .caAssign => execCaAssign s
  | .ok .bwPack => execBwPack s
  | .ok .encSerialize => execEncSerialize s
  | .ok .decParse => execDecParse s
  | .ok .trRebuild => execTrRebuild s
  | .ok .twWalk => execTwWalk s
  | _ => .refused (.reservedPhase u (s.block u).phase)

/-- The steps of unit `u` while a host waits for it to leave `BUSY` (R212), at most `fuel` of them. -/
def unitRun (u : UnitId) (fuel : Nat) (s : State) : Host.Outcome State Fault Refusal :=
  match fuel with
  | 0 => .next s
  | fuel + 1 => if s.busy u then andThen (unitPhase u s) (unitRun u fuel) else .next s

/-- The most steps a command takes: five for `ENCODE`, three for `DECODE` (R17, R160, R175). -/
def maxPhases (u : UnitId) : Nat :=
  match u with
  | .enc => 5
  | .dec => 3

/-- `wr U.IN[a..] <- x` (R212): one byte write after another. -/
def State.writeInAll (s : State) (u : UnitId) (a : Nat) (x : List Byte) : State :=
  match x with
  | [] => s
  | b :: x => State.writeInAll (s.writeIn u a b) u (a + 1) x

/-- The output a host reads in `DONE`: `OUT[0 .. OUT_LEN-1]` (R213, R214). -/
def State.output (s : State) (u : UnitId) : List Byte := memRead (s.outByte u) 0 (s.block u).outLen.toNat

/-- The end of R213 and R214: with `STATE = DONE` success with the output, with `STATE = FAULT` the failure `ERR`. -/
def State.collect (s : State) (u : UnitId) : State :=
  { s.drawn with
    result :=
      match (s.block u).state with
      | .done => .success (s.output u)
      | .fault => .failure (s.block u).err
      | .idle => s.result
      | .busy => s.result }

/-- The end of `wait U`: the read of `STATUS` that finds `STATE ≠ BUSY` (R212). -/
def State.waitRead (s : State) (u : UnitId) : State := s.regRead u 1

/-- The pseudo-operation `encode(x)`, its expansion run from first line to last (R213; log 19). -/
def execEncodeBytes (x : List Byte) (s : State) : Host.Outcome State Fault Refusal :=
  andThen (execEncode ((s.writeInAll .enc 0 x).writeInLen .enc (BitVec.ofNat 32 x.length))) (fun s =>
    andThen (unitRun .enc (maxPhases .enc) s) (fun s => .next ((s.waitRead .enc).collect .enc)))

/-- The pseudo-operation `decode(c)`, its expansion run from first line to last (R214; log 19). -/
def execDecodeBytes (c : List Byte) (s : State) : Host.Outcome State Fault Refusal :=
  andThen (execDecode ((s.writeInAll .dec 0 c).writeInLen .dec (BitVec.ofNat 32 c.length))) (fun s =>
    andThen (unitRun .dec (maxPhases .dec) s) (fun s => .next ((s.waitRead .dec).collect .dec)))

/-- The lines of R213 as moves of the host. -/
def encodeExpansion (x : List Byte) : List Event :=
  x.mapIdx (fun a b => .writeIn .enc a b) ++
    [.regWrite .enc 2 (BitVec.ofNat 32 x.length), .regWrite .enc 0 0x00000001, .wait .enc, .collect .enc]

/-- The lines of R214 as moves of the host. -/
def decodeExpansion (c : List Byte) : List Event :=
  c.mapIdx (fun a b => .writeIn .dec a b) ++
    [.regWrite .dec 2 (BitVec.ofNat 32 c.length), .regWrite .dec 0 0x00000002, .wait .dec, .collect .dec]

end Sys2Proof.Machine
end

