-- ==== Sys2Proof/Machine/Dispatch.lean ====
section
/-! DEFINITION. The one dispatch of an instruction to its meaning. -/

namespace Sys2Proof.Machine

/-- The effect of an operation. -/
def exec (i : Instr) (s : State) : Host.Outcome State Fault Refusal :=
  match i with
  | .nop u => Sys2Proof.Machine.execNop u s
  | .encode => Sys2Proof.Machine.execEncode s
  | .decode => Sys2Proof.Machine.execDecode s
  | .clear u => Sys2Proof.Machine.execClear u s
  | .illegal u w => Sys2Proof.Machine.execIllegal u w s
  | .ftCount => Sys2Proof.Machine.execFtCount s
  | .tbBuild => Sys2Proof.Machine.execTbBuild s
  | .caAssign => Sys2Proof.Machine.execCaAssign s
  | .bwPack => Sys2Proof.Machine.execBwPack s
  | .encSerialize => Sys2Proof.Machine.execEncSerialize s
  | .decParse => Sys2Proof.Machine.execDecParse s
  | .trRebuild => Sys2Proof.Machine.execTrRebuild s
  | .twWalk => Sys2Proof.Machine.execTwWalk s
  | .pqInsert j => Sys2Proof.Machine.execPqInsert j s
  | .pqExtractMin => Sys2Proof.Machine.execPqExtractMin s
  | .bwPutBit b => Sys2Proof.Machine.execBwPutBit b s
  | .bwPutCode bs => Sys2Proof.Machine.execBwPutCode bs s
  | .brGetBit => Sys2Proof.Machine.execBrGetBit s
  | .trInsert sym bs => Sys2Proof.Machine.execTrInsert sym bs s
  | .encodeBytes x => Sys2Proof.Machine.execEncodeBytes x s
  | .decodeBytes c => Sys2Proof.Machine.execDecodeBytes c s

end Sys2Proof.Machine
end

