-- ==== Sys2Proof/Machine/Moves.lean ====
section
/-! DEFINITION. The moves of the agenda: the host's actions and the steps of the units (00_scope.md R17, 47_host_commands.md R200 to
R204, R211, R212). -/

namespace Sys2Proof.Machine

/-- Run what a fetch names. -/
def runFetched (f : Fetch) (s : State) : Host.Outcome State Fault Refusal :=
  match decode f with
  | .ok i => exec i s
  | .error (.reservedPhase u code) => .refused (.reservedPhase u code)

/-- A step of unit `u`: it has one exactly when it is `BUSY` (R211). -/
def unitStep (u : UnitId) (s : State) : Host.Outcome State Fault Refusal :=
  if s.busy u then runFetched (.phase u (s.block u).statusWord) s else .next s

/-- `RegWrite(U, r, v)` (R202): register 0 issues the command, register 2 is `IN_LEN`, every other write is ignored. -/
def regWrite (u : UnitId) (r : BitVec 4) (v : Word) (s : State) : Host.Outcome State Fault Refusal :=
  if r = 0 then runFetched (.command u v) s
  else if r = 2 then .next (s.writeInLen u v)
  else .next s

/-- The unit that steps when the agenda is used up: a `BUSY` one (R17, R211); with both `BUSY` the choice is free (log 3). -/
def State.nextUnit (s : State) : UnitId :=
  if s.busy .enc = true ∧ (s.busy .dec = false ∨ Config.freeTurn s.tick = true) then .enc else .dec

/-- A step where the agenda is used up (R17, R211). With both units `BUSY` the choice of the unit is a draw of its own, so that one
step's choice says nothing of the next one's, whether or not the phase draws (R9: the units may run in any order; log 3). -/
def freeStep (s : State) : Host.Outcome State Fault Refusal :=
  unitStep s.nextUnit (if s.busy .enc = true ∧ s.busy .dec = true then s.drawn else s)

/-- The move `e`, taken off the agenda of `s` already. -/
def perform (e : Event) (s : State) : Host.Outcome State Fault Refusal :=
  match e with
  | .regRead u r => .next (s.regRead u r)
  | .regWrite u r v => regWrite u r v s
  | .writeIn u a b => .next (s.writeIn u a b)
  | .writeOut _ _ _ => .next s
  | .readIn u a => .next (s.readIn u a)
  | .readOut u a => .next (s.readOut u a)
  | .reset => .next s.resetUnits
  | .wait u => if s.busy u then unitStep u { s with agenda := .wait u :: s.agenda } else .next (s.waitRead u)
  | .collect u => .next (s.collect u)
  | .unitStep u => unitStep u s
  | .encodeBytes x => exec (.encodeBytes x) s
  | .decodeBytes c => exec (.decodeBytes c) s

end Sys2Proof.Machine
end

