-- ==== Sys2Proof/Machine/Step.lean ====
section
/-! DEFINITION. One step of the whole hardware: the next move on the agenda, or, where none is left, a `BUSY` unit's own step
(00_scope.md R17, 47_host_commands.md R200, R211). -/

namespace Sys2Proof.Machine

/-- One step of the hardware. -/
def step (s : State) : Host.Outcome State Fault Refusal :=
  match s.agenda with
  | [] => freeStep s
  | e :: rest => perform e { s with agenda := rest }

/-- `s` with a word of opcode_table.json placed where the next step fetches (log 20): a command word as the host's next
`CMD` write, a phase word as the `PHASE` of a `BUSY` `ENC` whose step is next. -/
def State.withFetchWord (s : State) (nbits w : Nat) : State :=
  match tableFetch nbits w with
  | .command u v => { s with agenda := .regWrite u 0 v :: s.agenda }
  | .phase u v =>
    State.withBlock { s with agenda := .unitStep u :: s.agenda } u
      { s.block u with state := .busy, phase := statusPhase v }

end Sys2Proof.Machine
end

