-- ==== Sys2Proof/Safety.lean ====
section
/-! DEFINITION. The terms claims are stated in: code trees, prefix-freeness, tries that spell codes, and the invariant of a
safe run (every state that a run from reset reaches, whatever the agenda). -/

namespace Sys2Proof.Machine

/-- A binary prefix tree as the spec's data model has it (00_scope.md R15): "either a Leaf (holds one Symbol) or an Internal
(holds exactly two child ownerships, left and right, no symbol)". -/
inductive CodeTree where
  | leaf (s : Byte)
  | node (l r : CodeTree)
deriving DecidableEq, Repr

/-- Entry `i` of an arena is the root of tree `t` (R33). -/
def CodeTree.At (arena : Table EncNode) (t : CodeTree) (i : Nat) : Prop :=
  match t with
  | .leaf s => ∃ w, Table.get arena i = some (.leaf s w)
  | .node l r => ∃ a b w, Table.get arena i = some (.internal (some a) (some b) w) ∧ l.At arena a ∧ r.At arena b

/-- The symbols at the leaves, from left to right. -/
def CodeTree.symbols (t : CodeTree) : List Byte :=
  match t with
  | .leaf s => [s]
  | .node l r => l.symbols ++ r.symbols

/-- The sum of the leaf frequencies beneath a tree's root (R33). -/
def CodeTree.total (f : Table Nat) (t : CodeTree) : Nat :=
  match t with
  | .leaf s => f.count s.toNat
  | .node l r => l.total f + r.total f

/-- Entry `i` is the root of tree `t`, and every node carries the sum of the frequencies of the leaves beneath it (R33, R126 (c)). -/
def CodeTree.WeighedAt (f : Table Nat) (arena : Table EncNode) (t : CodeTree) (i : Nat) : Prop :=
  match t with
  | .leaf s => Table.get arena i = some (.leaf s (f.count s.toNat))
  | .node l r => ∃ a b, Table.get arena i = some (.internal (some a) (some b) (l.total f + r.total f)) ∧
      l.WeighedAt f arena a ∧ r.WeighedAt f arena b

/-- The leaves with their paths from the root: "append "0" descending left, "1" descending right" (R135). -/
def CodeTree.paths (t : CodeTree) : List (Byte × Bits) :=
  match t with
  | .leaf s => [(s, [])]
  | .node l r => l.paths.map (fun e => (e.1, false :: e.2)) ++ r.paths.map (fun e => (e.1, true :: e.2))

/-- The code table of a tree: leaf paths (R135), and the one-bit code "0" for a lone leaf (R136). -/
def CodeTree.codes (t : CodeTree) : List (Byte × Bits) :=
  match t with
  | .leaf s => [(s, [false])]
  | .node l r => (CodeTree.node l r).paths

/-- How often the symbol `s` occurs in `x` (R110). -/
def occurrences (x : List Byte) (s : Nat) : Nat := x.countP (fun b => b.toNat = s)

/-- The symbols that occur, `FREQ[s] > 0`, in ascending order (R32). -/
def occurring (f : Table Nat) : List Nat := (List.range 256).filter (fun s => 0 < f.count s)

/-- The arena after the leaf loop of R123: the leaf of each symbol that occurs, and these leaves in the collection. -/
structure LeavesOf (f : Table Nat) (w : EncWork) : Prop where
  node    : ∀ i, Table.get w.node i =
    if i < 256 ∧ 0 < f.count i then some (.leaf (BitVec.ofNat 8 i) (f.count i)) else none
  members : w.members = occurring f
  nint    : w.nint = 0

/-- One turn of the merge loop of R123: the member that comes first and the member that comes second in the order of R120 are
taken out, and a new internal node over them is put in. -/
def MergeTurn (w v : EncWork) : Prop :=
  ∃ a ∈ w.members, ∃ b ∈ w.members, b ≠ a ∧
    (∀ j ∈ w.members, j ≠ a → w.Before a j) ∧ (∀ j ∈ w.members, j ≠ a → j ≠ b → w.Before b j) ∧
    v = { w with
      node := Table.set w.node (256 + w.nint) (.internal (some a) (some b) (w.weight a + w.weight b))
      inq := Table.set (Table.erase (Table.erase w.inq a) b) (256 + w.nint) ()
      nint := w.nint + 1 }

/-- What a traversal of R135 finds from an index down: a leaf, an internal node with both children, or a defect: an index whose
entry is `FREE`, or an internal node with a `NIL` child (R137). -/
inductive Shape where
  | leaf (s : Byte)
  | node (l r : Shape)
  | defect
deriving DecidableEq, Repr

/-- The traversal from entry `i` finds the shape `sh`. -/
def Shape.At (arena : Table EncNode) (sh : Shape) (i : Nat) : Prop :=
  match sh with
  | .leaf s => ∃ w, Table.get arena i = some (.leaf s w)
  | .node l r => ∃ a b w, Table.get arena i = some (.internal (some a) (some b) w) ∧ l.At arena a ∧ r.At arena b
  | .defect => Table.get arena i = none ∨ ∃ l r w, Table.get arena i = some (.internal l r w) ∧ (l = none ∨ r = none)

/-- The number of ends of a shape. -/
def Shape.ends (sh : Shape) : Nat :=
  match sh with
  | .leaf _ => 1
  | .node l r => l.ends + r.ends
  | .defect => 1

/-- Whether a shape has a defect. -/
def Shape.hasDefect (sh : Shape) : Bool :=
  match sh with
  | .leaf _ => false
  | .node l r => l.hasDefect || r.hasDefect
  | .defect => true

/-- Codes of which none is a prefix of another (R14): "a set of bit-strings where none is a prefix of another". -/
abbrev PrefixFree (cs : List Bits) : Prop := cs.Pairwise (fun a b => ¬ a <+: b ∧ ¬ b <+: a)

/-- From node `n` of a trie the bits `bs` lead, through nodes that are no leaves, to a leaf with symbol `s` (R179: "the path to
each leaf spelling its code"). -/
def Trie.Spells (t : Trie) (n : Nat) (bs : Bits) (s : Byte) : Prop :=
  match bs with
  | [] => False
  | [b] => ∃ m, t.child n b = some m ∧ t.leafAt m = some s
  | b :: b' :: rest => ∃ m, t.child n b = some m ∧ t.leafAt m = none ∧ Trie.Spells t m (b' :: rest) s

/-- From node `n` no leaf stands on the way of the bits `bs`, and their last step is not taken (R178). -/
def Trie.Free (t : Trie) (n : Nat) (bs : Bits) : Prop :=
  match bs with
  | [] => False
  | [b] => t.leafAt n = none ∧ t.child n b = none
  | b :: b' :: rest => t.leafAt n = none ∧ ∀ m, t.child n b = some m → Trie.Free t m (b' :: rest)

/-- The number of nodes that the bits `bs` need below node `n` and that are not there yet (R178). -/
def Trie.missing (t : Trie) (n : Nat) (bs : Bits) : Nat :=
  match bs with
  | [] => 0
  | b :: rest =>
    match t.child n b with
    | some m => Trie.missing t m rest
    | none => rest.length + 1

/-- From node `n` the bits `bs` lead, through nodes that are no leaves, to node `m`, which is no leaf either (R180: "each bit moves
left/right"). -/
def Trie.Inner (t : Trie) (n : Nat) (bs : Bits) (m : Nat) : Prop :=
  match bs with
  | [] => n = m
  | b :: rest => ∃ k, t.child n b = some k ∧ t.leafAt k = none ∧ Trie.Inner t k rest m

/-- `bs` is the concatenation of one code for each symbol of `x`, in order (R92, R180). -/
def Trie.SpellsAll (t : Trie) (x : List Byte) (bs : Bits) : Prop :=
  match x with
  | [] => bs = []
  | s :: x => ∃ c rest, bs = c ++ rest ∧ t.Spells 0 c s ∧ Trie.SpellsAll t x rest

/-- The payload bits in the order in which `BR.GETBIT` yields them (R150): `8 × PAY_LEN` of them. -/
def State.payload (s : State) : Bits :=
  (List.range (8 * s.decWork.payLen.toNat)).map (payloadBit (s.inByte .dec) s.decWork.payOff.toNat)

/-- The number of trie nodes a set of codes needs: the root, and one for each different non-empty prefix (R178). -/
def trieNodes (cs : List Bits) : Nat := 1 + (cs.flatMap (fun c => c.inits.tail)).dedup.length

/-- When a set of entries is a code table the decoder's trie can hold (R178, R181): no symbol twice, prefix-free, no more than
511 nodes. -/
def Buildable (es : List Entry) : Prop :=
  (es.map Entry.sym).Nodup ∧ PrefixFree (es.map Entry.bits) ∧ trieNodes (es.map Entry.bits) ≤ Config.nodeCap

/-- `bs` is the concatenation, in order, of the codes that the entries `es` give the symbols of `x` (R92). -/
def EntriesSpell (es : List Entry) (x : List Byte) (bs : Bits) : Prop :=
  match x with
  | [] => bs = []
  | b :: x => ∃ e ∈ es, ∃ rest, e.sym = b ∧ bs = e.bits ++ rest ∧ EntriesSpell es x rest

/-- The concatenation of the codes of the input bytes (R92, R148). -/
def inputCodes (code : Table Bits) (x : List Byte) : Bits := x.flatMap (fun b => code.bits b.toNat)

/-- What a BitWriter that has been given the bits `bs` holds (R145, R149): the count, the number of bytes, and bit `t` of the
bytes is bit `t` of `bs`, 0 in the padding. -/
structure BitWriter.Holds (w : BitWriter) (bs : Bits) : Prop where
  count : w.bitcnt.toNat = bs.length
  bytes : w.pay.length = ceil8 bs.length
  bits  : ∀ t, bitat w.pay t = bs.getD t false

/-- The invariant of R36 and R145: `|PAY| = ceil8(BITCNT)`, and the padding bits are 0; so that the BitWriter holds some bit
string. -/
def BitWriter.Sound (w : BitWriter) : Prop := ∃ bs, w.Holds bs

/-! The container as a format (30_encoding.md R87 to R92). -/

/-- `f` is the entry of `e`: `SYM`, `LEN` from 1 to 255, and a `CODE` field of `ceil8(LEN)` bytes whose first `LEN` bits are the
code, its padding bits being any (R89, R90). -/
def EntryField (e : Entry) (f : List Byte) : Prop :=
  1 ≤ e.bits.length ∧ e.bits.length ≤ 255 ∧
    ∃ c, f = e.sym :: BitVec.ofNat 8 e.bits.length :: c ∧ c.length = ceil8 e.bits.length ∧ codeBits c e.bits.length = e.bits

/-- `b` is the entries `es` one after another, with no gap (R87). -/
def EntriesField (es : List Entry) (b : List Byte) : Prop :=
  match es with
  | [] => b = []
  | e :: es => ∃ f rest, b = f ++ rest ∧ EntryField e f ∧ EntriesField es rest

/-- `c` is a container with the entries `es`, the symbol count `n` and the payload bytes `pay`: `K`, entries, `N`, payload
(R87 to R92). -/
def Container (c : List Byte) (es : List Entry) (n : Nat) (pay : List Byte) : Prop :=
  es.length ≤ Config.kMax ∧ n < 2 ^ 32 ∧ ∃ b, EntriesField es b ∧ c = bytes16 es.length ++ (b ++ (bytes32 n ++ pay))

/-- The entries the encoder writes: each symbol that has a code, in ascending order (R89, R161). -/
def codeEntries (code : Table Bits) : List Entry :=
  (List.range 256).filterMap (fun s =>
    if 0 < (code.bits s).length then some { sym := BitVec.ofNat 8 s, bits := code.bits s } else none)

/-- The input of unit `u` is the byte sequence `x`: `IN_LEN = |x|`, and every byte of it has been written (R24, R252). -/
def HasInput (u : UnitId) (s : State) (x : List Byte) : Prop :=
  (s.block u).inLen.toNat = x.length ∧ ∀ i (h : i < x.length), (s.block u).inBuf.read i = some x[i]

/-- The other unit is as before (R20: "no rule of one unit reads or writes the other's state"). -/
abbrev SameOther (u : UnitId) (s t : State) : Prop :=
  match u with
  | .enc => t.dec = s.dec ∧ t.decWork = s.decWork
  | .dec => t.enc = s.enc ∧ t.encWork = s.encWork

/-- What no operation of unit `u` changes (R20, R29, R70, R164, R233): the parameters, the model's own fields but for the
count of draws, the other unit, and of `u` itself `IN_LEN`, `ILL` and every byte of `IN`. -/
structure Kept (u : UnitId) (s t : State) : Prop where
  params : t.params = s.params
  agenda : t.agenda = s.agenda
  ret    : t.ret = s.ret
  result : t.result = s.result
  other  : SameOther u s t
  inLen  : (t.block u).inLen = (s.block u).inLen
  ill    : (t.block u).ill = (s.block u).ill
  inByte : ∀ a, (t.block u).inBuf.read a = (s.block u).inBuf.read a

/-- Unit `u` has taken the fault `e` (R233): `ERR`, `STATE`, `OUT_LEN` written, `PHASE` that of the raising phase, no byte of `OUT`
with a value, and everything else a fault leaves alone. -/
structure Faulted (u : UnitId) (e : Failure) (s t : State) : Prop where
  err    : (t.block u).err = e
  state  : (t.block u).state = .fault
  outLen : (t.block u).outLen = 0
  phase  : (t.block u).phase = (s.block u).phase
  out    : ∀ a, (t.block u).outBuf.read a = none
  kept   : Kept u s t

/-- The unit inside which an operation acts: the phase operations and the primitives (R20, R85). -/
def opUnit (i : Instr) : Option UnitId :=
  match i with
  | .nop _ => none
  | .encode => none
  | .decode => none
  | .clear _ => none
  | .illegal _ _ => none
  | .ftCount => some .enc
  | .tbBuild => some .enc
  | .caAssign => some .enc
  | .bwPack => some .enc
  | .encSerialize => some .enc
  | .decParse => some .dec
  | .trRebuild => some .dec
  | .twWalk => some .dec
  | .pqInsert _ => some .enc
  | .pqExtractMin => some .enc
  | .bwPutBit _ => some .enc
  | .bwPutCode _ => some .enc
  | .brGetBit => some .dec
  | .trInsert _ _ => some .dec
  | .encodeBytes _ => none
  | .decodeBytes _ => none

/-- Two states whose unit `u` holds the same. -/
abbrev SameUnit (u : UnitId) (s t : State) : Prop :=
  match u with
  | .enc => t.enc = s.enc ∧ t.encWork = s.encWork
  | .dec => t.dec = s.dec ∧ t.decWork = s.decWork

/-- The container with entries `es`, symbol count `n` and payload `pay`, all padding bits 0 (R87 to R92). -/
def encoderContainer (es : List Entry) (n : Nat) (pay : List Byte) : List Byte :=
  bytes16 es.length ++
    (es.flatMap (fun e => e.sym :: BitVec.ofNat 8 e.bits.length :: packbits e.bits) ++ (bytes32 n ++ pay))

/-! The invariant. -/

/-- The phase and failure codes a faulted unit can show (R236, 95_test_vectors.md's list of fault words). -/
def faultWords (u : UnitId) : List (BitVec 4 × Failure) :=
  match u with
  | .enc => [(0, .bufferBound), (1, .overflow), (5, .bufferBound)]
  | .dec =>
    [(0, .bufferBound), (1, .corruptData), (2, .corruptData), (3, .bufferBound), (3, .truncatedStream), (3, .corruptData)]

/-- What holds of the host-visible part of a unit (R23 to R31, R43, R44, R236). -/
structure Block.Coherent (u : UnitId) (inCap outCap : Word) (b : Block) : Prop where
  inWf    : b.inBuf.wf
  inRange : ∀ a ∈ Table.keys b.inBuf, a < inCap.toNat
  outWf   : b.outBuf.wf
  idle    : b.state = .idle →
    b.phase = 0 ∧ b.err = .none ∧ b.outLen = 0 ∧ b.diag = Diag.zero ∧ b.outBuf = []
  busy    : b.state = .busy →
    (1 ≤ b.phase.toNat ∧ b.phase.toNat ≤ maxPhases u) ∧ b.err = .none ∧ b.outLen = 0 ∧ b.outBuf = [] ∧ b.inLen ≤ inCap
  done    : b.state = .done →
    b.phase = 0 ∧ b.err = .none ∧ b.outLen ≤ outCap ∧ Table.keys b.outBuf = List.range b.outLen.toNat
  fault   : b.state = .fault → (b.phase, b.err) ∈ faultWords u ∧ b.outLen = 0 ∧ b.outBuf = []

/-- What the encoder's working state holds while it is `BUSY`, by the phase that is next. -/
structure EncPhaseOk (b : Block) (w : EncWork) : Prop where
  count     : b.phase = 1 → w = EncWork.initial ∧ b.diag.bitcnt = 0
  build     : b.phase = 2 → b.diag.bitcnt = 0 ∧ 1 ≤ distinctSymbols w.freq ∧
    b.diag.nsym.toNat = distinctSymbols w.freq ∧ w = { EncWork.initial with freq := w.freq }
  assign    : b.phase = 3 → b.diag.bitcnt = 0 ∧ w.code = [] ∧ w.pay = [] ∧
    ∃ r t, w.root = some r ∧ CodeTree.At w.node t r ∧ t.symbols.length ≤ 256
  pack      : b.phase = 4 → b.diag.bitcnt = 0 ∧ w.pay = [] ∧ ∀ s, (w.code.bits s).length ≤ 255
  serialize : b.phase = 5 → w.pay.length = ceil8 b.diag.bitcnt.toNat

/-- What the decoder's working state holds while it is `BUSY`, by the phase that is next. -/
structure DecPhaseOk (b : Block) (w : DecWork) : Prop where
  parse   : b.phase = 1 → w = DecWork.initial
  rebuild : b.phase = 2 → w.n ≠ 0 ∧ w.trie = [] ∧ w.seen = [] ∧ w.entries.length = w.k.toNat ∧ w.k.toNat ≤ 256 ∧
    (∀ e ∈ w.entries, 1 ≤ e.bits.length ∧ e.bits.length ≤ 255) ∧
    w.payOff.toNat + w.payLen.toNat = b.inLen.toNat
  walk    : b.phase = 3 → w.n ≠ 0 ∧ w.trie.length ≤ Config.nodeCap ∧ w.payOff.toNat + w.payLen.toNat = b.inLen.toNat

/-- The invariant of a safe run. -/
structure State.Inv (s : State) : Prop where
  params   : Config.Valid s.params
  enc      : s.enc.Coherent .enc s.params.encInCap s.params.encOutCap
  dec      : s.dec.Coherent .dec s.params.decInCap s.params.decOutCap
  encPhase : s.enc.state = .busy → EncPhaseOk s.enc s.encWork
  decPhase : s.dec.state = .busy → DecPhaseOk s.dec s.decWork
  writer   : s.bitWriter.Sound

end Sys2Proof.Machine
end

