-- ==== Sys2Proof/WellFormed.lean ====
section
/-! DEFINITION. Which instructions are well formed: the operand ranges the spec gives (00_scope.md R13, 10_state.md R33,
47_host_commands.md R213, R214). -/

namespace Sys2Proof

/-- Whether `w` written to `u` is one of the words R81 makes legal there. -/
def legalCommand (u : UnitId) (w : Word) : Bool :=
  match u with
  | .enc => w = 0x00000000 || w = 0x00000001 || w = 0x00000003
  | .dec => w = 0x00000000 || w = 0x00000002 || w = 0x00000003

/-- An instruction whose operands are in the spec's ranges. -/
def wellFormed (p : Params) (i : Instr) : Bool :=
  match i with
  | .nop _ => true
  | .encode => true
  | .decode => true
  | .clear _ => true
  | .illegal u w => !legalCommand u w
  | .ftCount => true
  | .tbBuild => true
  | .caAssign => true
  | .bwPack => true
  | .encSerialize => true
  | .decParse => true
  | .trRebuild => true
  | .twWalk => true
  | .pqInsert i => decide (i < Config.nodeCap)
  | .pqExtractMin => true
  | .bwPutBit _ => true
  | .bwPutCode bs => decide (bs.length ≤ Config.codeMax)
  | .brGetBit => true
  | .trInsert _ bs => decide (1 ≤ bs.length ∧ bs.length ≤ Config.codeMax)
  | .encodeBytes x => decide (x.length ≤ p.encInCap.toNat)
  | .decodeBytes c => decide (c.length ≤ p.decInCap.toNat)

end Sys2Proof
end

