-- ==== Sys2Proof/Certificates/Slice0/Obligations.lean ====
section
/-! DEFINITION. The statements about the model, in terms of the spec's rules. -/

section
open Sys2Proof Sys2Proof.Machine

/-! Encodings. -/

/-- R80 to R82, R85: decoding what was encoded gives the instruction back, with every operand; encoding what was decoded gives
the command word back bit for bit, and a phase's `PHASE` field. -/
def Obligations.EncodeDecodeRoundTrip : Prop :=
  (∀ p i f, wellFormed p i = true → encode i = some f → decode f = .ok i) ∧
  (∀ u w, encode (decodeCommand u w) = some (.command u w)) ∧
  (∀ u w i, decode (.phase u w) = .ok i → ∃ v, encode i = some (.phase u v) ∧ statusPhase v = statusPhase w)

/-- R81, R82: the words of the commands, and that every other word is an illegal command of the unit it is written to. -/
def Obligations.CommandWordsNameTheirCommands : Prop :=
  (∀ u, decode (.command u 0x00000000) = .ok (.nop u)) ∧
  decode (.command .enc 0x00000001) = .ok .encode ∧
  decode (.command .dec 0x00000002) = .ok .decode ∧
  (∀ u, decode (.command u 0x00000003) = .ok (.clear u)) ∧
  ∀ (u : UnitId) (w : Word), w.toNat ≠ 0 → w.toNat ≠ 3 → (u = .enc → w.toNat ≠ 1) → (u = .dec → w.toNat ≠ 2) →
    decode (.command u w) = .ok (.illegal u w)

/-- R85: the phase codes of the two units, in bits 7:4 of a `STATUS` word whose other bits are any; the codes of no phase are
refused. -/
def Obligations.PhaseCodesNameTheirPhases : Prop :=
  ∀ w : Word,
    (w.toNat / 16 % 16 = 1 → decode (.phase .enc w) = .ok .ftCount ∧ decode (.phase .dec w) = .ok .decParse) ∧
    (w.toNat / 16 % 16 = 2 → decode (.phase .enc w) = .ok .tbBuild ∧ decode (.phase .dec w) = .ok .trRebuild) ∧
    (w.toNat / 16 % 16 = 3 → decode (.phase .enc w) = .ok .caAssign ∧ decode (.phase .dec w) = .ok .twWalk) ∧
    (w.toNat / 16 % 16 = 4 → decode (.phase .enc w) = .ok .bwPack ∧ ∀ i, decode (.phase .dec w) ≠ .ok i) ∧
    (w.toNat / 16 % 16 = 5 → decode (.phase .enc w) = .ok .encSerialize ∧ ∀ i, decode (.phase .dec w) ≠ .ok i) ∧
    (w.toNat / 16 % 16 = 0 ∨ 6 ≤ w.toNat / 16 % 16 → ∀ u i, decode (.phase u w) ≠ .ok i)

/-- R80, R81, R85: words written out field by field decode to the rows of the opcode table. Which unit a bare word belongs to
is the model's choice (log 20). -/
def Obligations.TableWordsDecode : Prop :=
  decodeTableWord 32 0b000000000000000000000000_00000000 = some (.nop .enc) ∧
  decodeTableWord 32 0b000000000000000000000000_00000001 = some .encode ∧
  decodeTableWord 32 0b000000000000000000000000_00000010 = some .decode ∧
  decodeTableWord 32 0b000000000000000000000000_00000011 = some (.clear .enc) ∧
  decodeTableWord 32 0b000000000000000000000000_00000100 = some (.illegal .enc 4) ∧
  decodeTableWord 32 0b000000000000000000000001_00000001 = some (.illegal .enc 0x101) ∧
  decodeTableWord 8 0b0001_0000 = some .ftCount ∧
  decodeTableWord 8 0b0010_0000 = some .tbBuild ∧
  decodeTableWord 8 0b0011_0000 = some .caAssign ∧
  decodeTableWord 8 0b0100_0000 = some .bwPack ∧
  decodeTableWord 8 0b0101_0000 = some .encSerialize ∧
  decode (.phase .dec 0b0001_0000) = .ok .decParse ∧
  decode (.phase .dec 0b0010_0000) = .ok .trRebuild ∧
  decode (.phase .dec 0b0011_0000) = .ok .twWalk

/-- R83 (with the codes of R84 and R86): every field of the word read from register 1, and its value as an integer. -/
def Obligations.StatusWordLayout : Prop :=
  (UnitState.idle.toCode = 0 ∧ UnitState.busy.toCode = 1 ∧ UnitState.done.toCode = 2 ∧ UnitState.fault.toCode = 3) ∧
  (Failure.none.toCode = 0 ∧ Failure.emptyInput.toCode = 1 ∧ Failure.overflow.toCode = 2 ∧ Failure.malformedTree.toCode = 3 ∧
    Failure.corruptData.toCode = 4 ∧ Failure.truncatedStream.toCode = 5 ∧ Failure.bufferBound.toCode = 6) ∧
  ∀ (s : State) (u : UnitId),
    (s.regValue u 1).extractLsb' 0 2 = BitVec.ofNat 2 (s.block u).state.toCode ∧
    (s.regValue u 1).extractLsb' 2 2 = 0 ∧
    (s.regValue u 1).extractLsb' 4 4 = (s.block u).phase ∧
    (s.regValue u 1).extractLsb' 8 4 = BitVec.ofNat 4 (s.block u).err.toCode ∧
    (s.regValue u 1).extractLsb' 12 1 = BitVec.ofBool (s.block u).ill ∧
    (s.regValue u 1).extractLsb' 13 19 = 0 ∧
    (s.regValue u 1).toNat = (s.block u).state.toCode + 16 * (s.block u).phase.toNat + 256 * (s.block u).err.toCode +
      4096 * (s.block u).ill.toNat

/-! Steps. -/

/-- R202, R211, R213, R214: a step runs the instruction that the decoder reads: from the command word the host writes, or from
the `STATUS` word of the `BUSY` unit that steps (as the next move, while the host waits, or when the agenda is used up). The
agenda is the model's (log 1); so is the draw that chooses between two `BUSY` units, which moves the count of draws on (log 3). -/
def Obligations.StepRunsDecodedInstruction : Prop :=
  (∀ (s : State) u w rest i, s.agenda = .regWrite u 0 w :: rest → decode (.command u w) = .ok i →
    step s = exec i { s with agenda := rest }) ∧
  (∀ (s : State) u rest i, s.agenda = .unitStep u :: rest → s.busy u = true → decode (.phase u (s.block u).statusWord) = .ok i →
    step s = exec i { s with agenda := rest }) ∧
  (∀ (s : State) u rest i, s.agenda = .wait u :: rest → s.busy u = true → decode (.phase u (s.block u).statusWord) = .ok i →
    step s = exec i s) ∧
  (∀ (s : State) u i, s.agenda = [] → s.busy u = true → (∀ v, v ≠ u → s.busy v = false) →
    decode (.phase u (s.block u).statusWord) = .ok i → step s = exec i s) ∧
  (∀ (s : State) i j, s.agenda = [] → s.busy .enc = true → s.busy .dec = true →
    decode (.phase .enc s.enc.statusWord) = .ok i → decode (.phase .dec s.dec.statusWord) = .ok j →
    step s = exec i s.drawn ∨ step s = exec j s.drawn) ∧
  (∀ (s : State) x rest, s.agenda = .encodeBytes x :: rest → step s = exec (.encodeBytes x) { s with agenda := rest }) ∧
  (∀ (s : State) c rest, s.agenda = .decodeBytes c :: rest → step s = exec (.decodeBytes c) { s with agenda := rest })

/-- How the model places a word of the opcode table where the next step fetches it (log 20): that step runs the instruction the
word decodes to, with the rest of the agenda, the parameters and the working state as they were. -/
def Obligations.FetchWordRunsItsInstruction : Prop :=
  ∀ (s : State) (nbits w : Nat) (i : Instr), decodeTableWord nbits w = some i →
    ∃ s', step (s.withFetchWord nbits w) = exec i s' ∧ s'.agenda = s.agenda ∧ s'.params = s.params ∧
      s'.encWork = s.encWork ∧ s'.decWork = s.decWork ∧ s'.dec = s.dec ∧
      s'.enc = { s.enc with state := s'.enc.state, phase := s'.enc.phase }

/-- R211: "A unit has a step exactly when its `STATE` is `BUSY`": a unit that is not `BUSY` changes nothing. That the whole machine
then repeats its state is the model's reading (log 21). -/
def Obligations.OnlyBusyUnitsStep : Prop :=
  (∀ (s : State) u, s.busy u = false → unitStep u s = .next s) ∧
  (∀ (s : State), s.agenda = [] → s.busy .enc = false → s.busy .dec = false → step s = .next s) ∧
  (∀ (s : State) u rest, s.agenda = .unitStep u :: rest → s.busy u = false → step s = .next { s with agenda := rest })

/-! The host's accesses. -/

/-- R201: what each register reads, and that a read changes nothing (the count of draws and the value handed over are the
model's own, log 4, log 5). Where a value is not defined (R44) the statement says nothing but the register's width (R26, R28). -/
def Obligations.RegReadReturnsRegister : Prop :=
  ∀ (s : State) (u : UnitId) (r : BitVec 4) (rest : List Event), s.agenda = .regRead u r :: rest →
    ∃ t, step s = .next t ∧ t = { s with agenda := rest, tick := t.tick, ret := t.ret } ∧
      (r = 0 → t.ret = 0) ∧
      (r = 1 → t.ret = (s.block u).statusWord) ∧
      (r = 2 → t.ret = (s.block u).inLen) ∧
      (r = 3 → (s.block u).state ≠ .busy → t.ret = (s.block u).outLen) ∧
      ((s.block u).state = .idle ∨ (s.block u).state = .done →
        (r = 4 → t.ret.toNat = (s.block u).diag.nsym.toNat) ∧
        (r = 5 → t.ret = (s.block u).diag.symcnt) ∧
        (r = 6 → t.ret.toNat = (s.block u).diag.bitcnt.toNat % 2 ^ 32) ∧
        (r = 7 → t.ret.toNat = (s.block u).diag.bitcnt.toNat / 2 ^ 32)) ∧
      (r = 4 → t.ret.toNat < 2 ^ 9) ∧ (r = 7 → t.ret.toNat < 2 ^ 8) ∧
      (r = 8 → t.ret = s.inCap u) ∧ (r = 9 → t.ret = s.outCap u) ∧ (10 ≤ r.toNat → t.ret = 0)

/-- R202: a write to register 0 issues the command, one to register 2 stores `IN_LEN` unless the unit is `BUSY`, every other
one is ignored. -/
def Obligations.RegWriteEffect : Prop :=
  ∀ (s : State) (u : UnitId) (r : BitVec 4) (v : Word) (rest : List Event), s.agenda = .regWrite u r v :: rest →
    (r = 0 → step s = exec (decodeCommand u v) { s with agenda := rest }) ∧
    (r = 2 → s.busy u = false →
      step s = .next (State.withBlock { s with agenda := rest } u { s.block u with inLen := v })) ∧
    (r = 2 → s.busy u = true → step s = .next { s with agenda := rest }) ∧
    (r ≠ 0 → r ≠ 2 → step s = .next { s with agenda := rest })

/-- R203: `HostWriteIn` stores one byte of one buffer, unless the unit is `BUSY` or the address is outside; the byte is what the
unit reads in the next command it accepts. -/
def Obligations.HostWriteInStoresByte : Prop :=
  ∀ (s : State) (u : UnitId) (a : Nat) (b : Byte) (rest : List Event), s.agenda = .writeIn u a b :: rest →
    (s.busy u = false → a < (s.inCap u).toNat →
      ∃ t, step s = .next t ∧
        t = State.withBlock { s with agenda := rest } u { s.block u with inBuf := (t.block u).inBuf } ∧
        (∀ a', (t.block u).inBuf.read a' = if a' = a then some b else (s.block u).inBuf.read a') ∧
        (t.accept u).inByte u a = b) ∧
    (s.busy u = true ∨ (s.inCap u).toNat ≤ a → step s = .next { s with agenda := rest })

/-- R204: what a host's reads of `IN` and `OUT` return where the byte is defined, and that they change nothing. -/
def Obligations.HostReadsReturnBytes : Prop :=
  (∀ (s : State) (u : UnitId) (a : Nat) (rest : List Event), s.agenda = .readIn u a :: rest →
    ∃ t, step s = .next t ∧ t = { s with agenda := rest, tick := t.tick, ret := t.ret } ∧ t.ret.toNat < 2 ^ 8 ∧
      ∀ b, a < (s.inCap u).toNat → (s.block u).inBuf.read a = some b → t.ret.toNat = b.toNat) ∧
  (∀ (s : State) (u : UnitId) (a : Nat) (rest : List Event), s.agenda = .readOut u a :: rest →
    ∃ t, step s = .next t ∧ t = { s with agenda := rest, tick := t.tick, ret := t.ret } ∧ t.ret.toNat < 2 ^ 8 ∧
      ∀ b, (s.block u).state = .done → a < (s.block u).outLen.toNat → (s.block u).outBuf.read a = some b →
        t.ret.toNat = b.toNat)

/-- R200 ("a write to it is ignored in every `STATE`"): a host's write to `OUT` changes nothing. -/
def Obligations.HostWritesToOutAreIgnored : Prop :=
  ∀ (s : State) (u : UnitId) (a : Nat) (b : Byte) (rest : List Event), s.agenda = .writeOut u a b :: rest →
    step s = .next { s with agenda := rest }

/-! Reset. -/

/-- R43: what the registers read after reset. That no byte of a buffer has a value then is how the model says "unspecified"
(log 12). -/
def Obligations.ResetStateValues : Prop :=
  ∀ u : UnitId, (∀ r : BitVec 4, r.toNat < 8 → State.reset.regValue u r = 0) ∧
    State.reset.regValue u 8 = State.reset.inCap u ∧ State.reset.regValue u 9 = State.reset.outCap u ∧
    (State.reset.block u).state = .idle ∧ (∀ a, (State.reset.block u).inBuf.read a = none) ∧
    (∀ a, (State.reset.block u).outBuf.read a = none)

/-- R250, R251: `Reset` from every state, `BUSY` ones too. That the buffers' bytes then have no value is how the model says
"unspecified" (log 11). -/
def Obligations.ResetReturnsBothUnitsToIdle : Prop :=
  ∀ (s : State) (rest : List Event), s.agenda = .reset :: rest →
    ∃ t, step s = .next t ∧ t.params = s.params ∧ t.agenda = rest ∧ t.ret = s.ret ∧ t.result = s.result ∧
      ∀ u : UnitId, (t.block u).state = .idle ∧ (∀ r : BitVec 4, r.toNat < 8 → t.regValue u r = 0) ∧
        t.regValue u 8 = s.inCap u ∧ t.regValue u 9 = s.outCap u ∧
        (∀ a, (t.block u).inBuf.read a = none) ∧ (∀ a, (t.block u).outBuf.read a = none)

/-! Commands. -/

/-- R205: the word `0x00000000` is `NOP` at either unit: "no state changes, `ILL` is not set", in any `STATE`. -/
def Obligations.NopChangesNothing : Prop :=
  ∀ (u : UnitId) (s : State), decode (.command u 0x00000000) = .ok (.nop u) ∧ exec (.nop u) s = .next s

/-- R206, R42: the acceptance of `ENCODE` when the input fits the buffer. That no byte of `OUT` has a value is how the model says
"unspecified" (log 9). -/
def Obligations.EncodeIsAccepted : Prop :=
  ∀ s : State, s.busy .enc = false → s.enc.inLen ≤ s.params.encInCap →
    ∃ t, exec .encode s = .next t ∧ Kept .enc s t ∧
      t.enc.state = .busy ∧ t.enc.phase = 1 ∧ t.enc.err = .none ∧ t.enc.outLen = 0 ∧
      (∀ a, t.enc.outBuf.read a = none) ∧
      (∀ i, t.encWork.freq.count i = 0) ∧ (∀ i, Table.get t.encWork.node i = none) ∧ t.encWork.members = [] ∧
      t.encWork.nint = 0 ∧ t.encWork.root = none ∧ (∀ i, t.encWork.code.bits i = []) ∧ t.encWork.pay = [] ∧
      t.enc.diag.bitcnt = 0

/-- R207, R42: the acceptance of `DECODE` when the container fits the buffer (log 9 as above). -/
def Obligations.DecodeIsAccepted : Prop :=
  ∀ s : State, s.busy .dec = false → s.dec.inLen ≤ s.params.decInCap →
    ∃ t, exec .decode s = .next t ∧ Kept .dec s t ∧
      t.dec.state = .busy ∧ t.dec.phase = 1 ∧ t.dec.err = .none ∧ t.dec.outLen = 0 ∧
      (∀ a, t.dec.outBuf.read a = none) ∧
      t.decWork.k = 0 ∧ t.decWork.n = 0 ∧ t.decWork.payOff = 0 ∧ t.decWork.payLen = 0 ∧ t.decWork.trie = [] ∧
      (∀ i, Table.get t.decWork.seen i = none) ∧ t.decWork.cur = 0 ∧ t.decWork.emitted = 0 ∧ t.decWork.bitpos = 0

/-- R206, R207, R231: the fault at acceptance, with `PHASE` = `NONE`, when `IN_LEN` is above the capacity. -/
def Obligations.TooLongInputFaultsAtAcceptance : Prop :=
  (∀ s : State, s.busy .enc = false → s.params.encInCap < s.enc.inLen →
    ∃ t, exec .encode s = .next t ∧ Kept .enc s t ∧ t.enc.state = .fault ∧ t.enc.phase = 0 ∧ t.enc.err = .bufferBound ∧
      t.enc.outLen = 0) ∧
  (∀ s : State, s.busy .dec = false → s.params.decInCap < s.dec.inLen →
    ∃ t, exec .decode s = .next t ∧ Kept .dec s t ∧ t.dec.state = .fault ∧ t.dec.phase = 0 ∧ t.dec.err = .bufferBound ∧
      t.dec.outLen = 0)

/-- R209: an illegal command sets `ILL`, and nothing else changes: words with reserved bits or codes or for the other unit, and
`ENCODE`, `DECODE`, `CLEAR` while `BUSY`. -/
def Obligations.IllegalCommandSetsOnlyIll : Prop :=
  (∀ u w, cmdRsv w ≠ 0 ∨ 4 ≤ (cmdOp w).toNat ∨ (u = .dec ∧ cmdOp w = 1) ∨ (u = .enc ∧ cmdOp w = 2) →
    decode (.command u w) = .ok (.illegal u w)) ∧
  (∀ u w (s : State), exec (.illegal u w) s = .next (s.withBlock u { s.block u with ill := true })) ∧
  (∀ s : State, s.busy .enc = true → exec .encode s = .next (s.withBlock .enc { s.enc with ill := true })) ∧
  (∀ s : State, s.busy .dec = true → exec .decode s = .next (s.withBlock .dec { s.dec with ill := true })) ∧
  (∀ u (s : State), s.busy u = true → exec (.clear u) s = .next (s.withBlock u { s.block u with ill := true }))

/-- R208: `CLEAR` in `IDLE`, `DONE`, `FAULT`. That `ENC.PAY` is then empty, as R36 needs beside `BITCNT = 0`, is the model's reading
(log 27). -/
def Obligations.ClearReturnsToIdle : Prop :=
  ∀ (u : UnitId) (s : State), s.busy u = false →
    ∃ t, exec (.clear u) s = .next t ∧
      (t.block u).state = .idle ∧ (t.block u).phase = 0 ∧ (t.block u).err = .none ∧ (t.block u).ill = false ∧
      (t.block u).outLen = 0 ∧ (t.block u).diag.nsym = 0 ∧ (t.block u).diag.symcnt = 0 ∧ (t.block u).diag.bitcnt = 0 ∧
      (∀ a, (t.block u).outBuf.read a = none) ∧ (t.block u).inLen = (s.block u).inLen ∧
      (∀ a, (t.block u).inBuf.read a = (s.block u).inBuf.read a) ∧
      t = { s with enc := t.enc, dec := t.dec, encWork := t.encWork } ∧ SameOther u s t ∧
      t.encWork = { s.encWork with pay := if u = .enc then [] else s.encWork.pay }

/-! The encoder's phases. -/

/-- R110: `FT.COUNT` adds to each counter the number of its symbol's occurrences in the input, counts the symbols that occur,
and goes on to `BUILD`, or to `SERIALIZE` for empty input; it raises `Overflow` exactly when a counter would pass
`2^CNT_W − 1`. -/
def Obligations.CountCountsEachSymbol : Prop :=
  ∀ s : State, (∀ b, s.encWork.freq.count b ≤ 2 ^ s.params.cntW - 1) →
    ((∀ b, s.encWork.freq.count b + occurrences (s.input .enc) b ≤ 2 ^ s.params.cntW - 1) →
      ∃ t f k, exec .ftCount s = .next t ∧ Kept .enc s t ∧
        (∀ b, f.count b = s.encWork.freq.count b + occurrences (s.input .enc) b) ∧
        k = ((List.range 256).filter (fun b => 0 < f.count b)).length ∧
        t.encWork = { s.encWork with freq := f } ∧
        t.enc = { s.enc with
          phase := if k = 0 then 5 else 2
          diag := { s.enc.diag with nsym := BitVec.ofNat 9 k, symcnt := s.enc.inLen } }) ∧
    ((∃ b, 2 ^ s.params.cntW - 1 < s.encWork.freq.count b + occurrences (s.input .enc) b) →
      ∃ t, exec .ftCount s = .next t ∧ Faulted .enc .overflow s t)

/-- R111: after `FT.COUNT` from cleared counters, the counters add up to `IN_LEN`, and no later phase that succeeds writes them. -/
def Obligations.CountersAddUpToInputLength : Prop :=
  (∀ s t : State, s.enc.state = .busy → (∀ b, s.encWork.freq.count b = 0) → exec .ftCount s = .next t → t.enc.state = .busy →
    ((List.range 256).map (fun b => t.encWork.freq.count b)).sum = s.enc.inLen.toNat) ∧
  (∀ (s t : State) (i : Instr), i = .tbBuild ∨ i = .caAssign ∨ i = .bwPack ∨ i = .encSerialize → s.enc.state = .busy →
    exec i s = .next t → t.enc.state ≠ .fault → t.encWork.freq = s.encWork.freq)

/-- R121: `PQ.INSERT(i)` puts `i` into the collection and does nothing else. That it does so also outside the rule's `Requires` is
the model's choice (log 15). -/
def Obligations.PqInsertAddsMember : Prop :=
  ∀ (i : Nat) (s : State), ∃ t, exec (.pqInsert i) s = .next t ∧
    (∀ j, j ∈ t.encWork.members ↔ j = i ∨ j ∈ s.encWork.members) ∧
    t = { s with encWork := { s.encWork with inq := t.encWork.inq } }

/-- R120, R122: `PQ.EXTRACTMIN` returns the one member that comes first in the order of weight and then index, and takes it
out. -/
def Obligations.PqExtractMinTakesTheFirst : Prop :=
  ∀ s : State, s.encWork.members ≠ [] →
    ∃ t i, exec .pqExtractMin s = .next t ∧ i ∈ s.encWork.members ∧
      (∀ j ∈ s.encWork.members, j ≠ i →
        s.encWork.weight i < s.encWork.weight j ∨ (s.encWork.weight i = s.encWork.weight j ∧ i < j)) ∧
      t.ret = BitVec.ofNat 32 i ∧ (∀ j, j ∈ t.encWork.members ↔ j ≠ i ∧ j ∈ s.encWork.members) ∧
      t = { s with encWork := { s.encWork with inq := t.encWork.inq }, tick := t.tick, ret := t.ret }

/-- R123: `TB.BUILD` raises `EmptyInput` when `NSYM = 0`; else it puts in the leaves, and joins the two members that come first
until one is left, which is the root. -/
def Obligations.BuildJoinsTheTwoFirst : Prop :=
  (∀ s : State, s.enc.diag.nsym = 0 → ∃ t, exec .tbBuild s = .next t ∧ Faulted .enc .emptyInput s t) ∧
  (∀ s : State, s.enc.diag.nsym ≠ 0 → 1 ≤ distinctSymbols s.encWork.freq → s.encWork.node = [] → s.encWork.inq = [] →
    s.encWork.nint = 0 →
    ∃ t w0 w1 r, exec .tbBuild s = .next t ∧ Kept .enc s t ∧
      w0 = { s.encWork with node := w0.node, inq := w0.inq } ∧ LeavesOf s.encWork.freq w0 ∧
      Relation.ReflTransGen MergeTurn w0 w1 ∧ w1.members = [r] ∧
      t.encWork = { w1 with root := some r } ∧ t.enc = { s.enc with phase := 3 })

/-- R126: the tree that `TB.BUILD` leaves: one leaf for each symbol that occurs, every internal node with two children, every
weight the sum of the frequencies beneath, `NINT = K − 1`, and where the root stands. -/
def Obligations.BuiltTreeIsAWeighedCodeTree : Prop :=
  ∀ s : State, s.enc.diag.nsym ≠ 0 → 1 ≤ distinctSymbols s.encWork.freq → s.encWork.node = [] → s.encWork.inq = [] →
    s.encWork.nint = 0 →
    ∃ (t : State) (r : Nat) (tree : CodeTree), exec .tbBuild s = .next t ∧ t.encWork.root = some r ∧
      tree.WeighedAt s.encWork.freq t.encWork.node r ∧
      tree.symbols.Perm ((occurring s.encWork.freq).map (BitVec.ofNat 8)) ∧
      t.encWork.weight r = ((occurring s.encWork.freq).map s.encWork.freq.count).sum ∧
      t.encWork.nint + 1 = distinctSymbols s.encWork.freq ∧
      (2 ≤ distinctSymbols s.encWork.freq → r + 2 = 256 + distinctSymbols s.encWork.freq) ∧
      (distinctSymbols s.encWork.freq = 1 → occurring s.encWork.freq = [r])

/-- R135, R136: `CA.ASSIGN` gives each leaf's symbol the path to it, a lone leaf's symbol the code "0", and no other symbol a
code. -/
def Obligations.AssignGivesLeafPaths : Prop :=
  ∀ (s : State) (r : Nat) (tree : CodeTree), s.encWork.root = some r → tree.At s.encWork.node r → tree.symbols.Nodup →
    s.encWork.code = [] →
    ∃ t c, exec .caAssign s = .next t ∧ Kept .enc s t ∧ t.enc = { s.enc with phase := 4 } ∧
      t.encWork = { s.encWork with code := c } ∧
      (∀ b bits, (b, bits) ∈ tree.codes → c.bits b.toNat = bits) ∧
      (∀ i, (∀ b ∈ tree.symbols, b.toNat ≠ i) → c.bits i = [])

/-- R137: `CA.ASSIGN` raises `MalformedTree` when the traversal reaches an entry that is `FREE` or an internal node with a `NIL`
child. That `ROOT = NIL` counts as such an entry is the model's reading (log 16). -/
def Obligations.AssignRaisesMalformedTree : Prop :=
  (∀ (s : State) (r : Nat) (sh : Shape), s.encWork.root = some r → sh.At s.encWork.node r → sh.ends ≤ 256 →
    sh.hasDefect = true → ∃ t, exec .caAssign s = .next t ∧ Faulted .enc .malformedTree s t) ∧
  (∀ s : State, s.encWork.root = none → ∃ t, exec .caAssign s = .next t ∧ Faulted .enc .malformedTree s t)

/-- R138, R139: the code table that `TB.BUILD` and `CA.ASSIGN` make of a frequency table: codes exactly for the symbols that
occur, none longer than 255 bits, none a prefix of another; for `K ≥ 2` every long enough bit string starts with exactly one of
them, for `K = 1` the only one is "0". -/
def Obligations.CodeTableIsACompletePrefixCode : Prop :=
  ∀ s : State, s.enc.diag.nsym ≠ 0 → 1 ≤ distinctSymbols s.encWork.freq → s.encWork.node = [] → s.encWork.inq = [] →
    s.encWork.nint = 0 → s.encWork.code = [] →
    ∃ t1 t2 c, exec .tbBuild s = .next t1 ∧ exec .caAssign t1 = .next t2 ∧ t2.encWork.code = c ∧
      (∀ i, i < 256 → (c.bits i ≠ [] ↔ 0 < s.encWork.freq.count i)) ∧
      (∀ i, (c.bits i).length ≤ 255) ∧
      (∀ i j, i < 256 → j < 256 → i ≠ j → c.bits i ≠ [] → c.bits j ≠ [] → ¬ c.bits i <+: c.bits j) ∧
      (2 ≤ distinctSymbols s.encWork.freq → ∀ bs : Bits, 255 ≤ bs.length → ∃! i, i < 256 ∧ c.bits i ≠ [] ∧ c.bits i <+: bs) ∧
      (distinctSymbols s.encWork.freq = 1 → ∀ i, i < 256 → c.bits i ≠ [] → c.bits i = [false])

/-- R145 to R147: `BW.PUTBIT` and `BW.PUTCODE` append their bits to those the BitWriter holds, and change nothing else. -/
def Obligations.BitWriterAppendsBits : Prop :=
  (∀ (s : State) (bs : Bits) (b : Bool), s.bitWriter.Holds bs → bs.length + 1 < 2 ^ 40 →
    ∃ t w, exec (.bwPutBit b) s = .next t ∧ w.Holds (bs ++ [b]) ∧ t = s.withBitWriter w) ∧
  (∀ (s : State) (bs cs : Bits), s.bitWriter.Holds bs → bs.length + cs.length < 2 ^ 40 →
    ∃ t w, exec (.bwPutCode cs) s = .next t ∧ w.Holds (bs ++ cs) ∧ t = s.withBitWriter w)

/-- R149: `packbits(bs)` is `PAY` after `BW.PUTCODE(bs)` from the empty state: `ceil8(|bs|)` bytes, bit `t` at bit
`7 − (t mod 8)` of byte `t div 8`, the unused low bits 0; R90 reads the string back from it; and the same layout holds a code
inside a code-table entry. -/
def Obligations.PackbitsLaysBitsMostSignificantFirst : Prop :=
  ∀ bs : Bits, bs.length < 2 ^ 40 →
    (∀ s : State, s.encWork.pay = [] → s.enc.diag.bitcnt = 0 →
      ∃ t, exec (.bwPutCode bs) s = .next t ∧ t.encWork.pay = packbits bs) ∧
    (packbits bs).length = (bs.length + 7) / 8 ∧
    (∀ t (h : t < bs.length), ((packbits bs).getD (t / 8) 0).getLsbD (7 - t % 8) = bs[t]) ∧
    (∀ t, bs.length ≤ t → ((packbits bs).getD (t / 8) 0).getLsbD (7 - t % 8) = false) ∧
    codeBits (packbits bs) bs.length = bs ∧
    (∀ (code : Table Bits) i, code.bits i = bs → bs ≠ [] →
      entryBytes code i = BitVec.ofNat 8 i :: BitVec.ofNat 8 bs.length :: packbits bs)

/-- R148: `BW.PACK` packs the codes of the input bytes in input order; `BITCNT` is the exact number of bits, the sum over the
symbols of occurrences times code length. -/
def Obligations.PackPacksTheInputsCodes : Prop :=
  ∀ s : State, s.encWork.pay = [] → s.enc.diag.bitcnt = 0 → (∀ i, (s.encWork.code.bits i).length ≤ 255) →
    ∃ t n, exec .bwPack s = .next t ∧ Kept .enc s t ∧
      t.encWork = { s.encWork with
        pay := packbits ((s.input .enc).flatMap (fun b => s.encWork.code.bits b.toNat)) } ∧
      t.enc = { s.enc with phase := 5, diag := { s.enc.diag with bitcnt := n } } ∧
      n.toNat = ((s.input .enc).flatMap (fun b => s.encWork.code.bits b.toNat)).length ∧
      n.toNat = ((List.range 256).map
        (fun i => occurrences (s.input .enc) i * (s.encWork.code.bits i).length)).sum

/-- R161: `ENC.SERIALIZE` writes the container of its tables to `OUT` from address 0 up, and ends the command; when the container
is longer than the buffer it raises `BufferBound`. -/
def Obligations.SerializeWritesTheContainer : Prop :=
  ∀ (s : State) (c : List Byte),
    c = bytes16 s.enc.diag.nsym.toNat ++
      ((List.range 256).flatMap (fun i =>
        if 0 < (s.encWork.code.bits i).length then
          BitVec.ofNat 8 i :: BitVec.ofNat 8 (s.encWork.code.bits i).length :: packbits (s.encWork.code.bits i)
        else []) ++
      (bytes32 s.enc.diag.symcnt.toNat ++ s.encWork.pay)) →
    (c.length ≤ s.params.encOutCap.toNat →
      ∃ t, exec .encSerialize s = .next t ∧ Kept .enc s t ∧ t.encWork = s.encWork ∧
        t.enc = { s.enc with
          state := .done, phase := 0, outLen := BitVec.ofNat 32 c.length, outBuf := t.enc.outBuf } ∧
        t.enc.outLen.toNat = c.length ∧
        ∀ a, t.enc.outBuf.read a = if a < c.length then some (c.getD a 0) else s.enc.outBuf.read a) ∧
    (s.params.encOutCap.toNat < c.length → ∃ t, exec .encSerialize s = .next t ∧ Faulted .enc .bufferBound s t)

/-- R87 to R93: what `ENC.SERIALIZE` writes is a container in the sense of the format, its entries the symbols that have a code
in strictly ascending order, and its length is that of R93. -/
def Obligations.SerializedTablesAreAContainer : Prop :=
  ∀ (s : State) (code : Table Bits), s.encWork.code = code → (∀ i, (code.bits i).length ≤ 255) →
    s.enc.diag.nsym.toNat = (codeEntries code).length →
    Container s.container (codeEntries code) s.enc.diag.symcnt.toNat s.encWork.pay ∧
    ((codeEntries code).map (fun e => e.sym.toNat)).Pairwise (· < ·) ∧
    (∀ e : Entry, e ∈ codeEntries code ↔ e.bits ≠ [] ∧ code.bits e.sym.toNat = e.bits) ∧
    s.container.length =
      2 + ((List.range 256).map (fun i => if 0 < (code.bits i).length then 2 + ceil8 (code.bits i).length else 0)).sum + 4 +
        s.encWork.pay.length

/-- R160, R162: an accepted `ENCODE` of empty input takes two steps, `COUNT` and `SERIALIZE`, and leaves the six zero bytes of the
empty container. -/
def Obligations.EmptyInputGivesTheEmptyContainer : Prop :=
  ∀ s : State, s.busy .enc = false → s.enc.inLen = 0 → 6 ≤ s.params.encOutCap.toNat →
    ∃ t0 t1 t2, exec .encode s = .next t0 ∧ unitStep .enc t0 = .next t1 ∧ t1.enc.phase = 5 ∧ unitStep .enc t1 = .next t2 ∧
      t2.enc.state = .done ∧ t2.enc.phase = 0 ∧ t2.enc.err = .none ∧ t2.enc.outLen = 6 ∧
      (∀ a, t2.enc.outBuf.read a = if a < 6 then some 0 else none) ∧
      t2.enc.diag.nsym = 0 ∧ t2.enc.diag.symcnt = 0 ∧ t2.enc.diag.bitcnt = 0 ∧ t2.encWork.pay = [] ∧ t2.encWork.root = none

/-! The decoder's phases. -/

/-- R176: `DEC.PARSE` of a container with `N ≥ 1` reads exactly its parts and goes on to `REBUILD`. -/
def Obligations.ParseReadsTheContainer : Prop :=
  ∀ (s : State) (es : List Entry) (n : Nat) (pay : List Byte), Container (s.input .dec) es n pay → 1 ≤ n →
    ∃ t, exec .decParse s = .next t ∧ Kept .dec s t ∧
      t.dec = { s.dec with
        phase := 2, diag := { s.dec.diag with nsym := BitVec.ofNat 9 es.length, symcnt := BitVec.ofNat 32 n } } ∧
      t.decWork = { s.decWork with
        k := BitVec.ofNat 9 es.length, entries := es, n := BitVec.ofNat 32 n, payOff := t.decWork.payOff,
        payLen := BitVec.ofNat 32 pay.length } ∧
      t.decWork.payOff.toNat + pay.length = s.dec.inLen.toNat ∧
      memRead (s.inByte .dec) t.decWork.payOff.toNat pay.length = pay

/-- R177: a container with `N = 0` ends the command in `PARSE`, with empty output; nothing is said of its entries and its
payload. -/
def Obligations.ParseOfZeroSymbolsEndsTheCommand : Prop :=
  ∀ (s : State) (es : List Entry) (pay : List Byte), Container (s.input .dec) es 0 pay →
    ∃ t, exec .decParse s = .next t ∧ Kept .dec s t ∧
      t.dec = { s.dec with
        state := .done, phase := 0, outLen := 0,
        diag := { nsym := BitVec.ofNat 9 es.length, symcnt := 0, bitcnt := 0 } } ∧
      t.decWork.trie = s.decWork.trie ∧ t.decWork.bitpos = s.decWork.bitpos

/-- R176, R181, R229: whatever is no container, a header that runs past the end, `K > 256` or a `LEN` of 0, is `CorruptData`. -/
def Obligations.ParseRejectsWhatIsNoContainer : Prop :=
  ∀ s : State, (∀ es n pay, ¬ Container (s.input .dec) es n pay) →
    ∃ t, exec .decParse s = .next t ∧ Faulted .dec .corruptData s t

/-- R178: `TR.INSERT` places a code whose symbol is new, on whose way no leaf stands, whose end is not taken, and for whose
nodes there is room; the trie then spells it and every code it spelled before. In every other case it raises
`CorruptData`. -/
def Obligations.TrInsertPlacesACode : Prop :=
  ∀ (s : State) (sym : Byte) (bs : Bits), 1 ≤ bs.length → 1 ≤ s.decWork.trie.length →
    s.decWork.trie.length ≤ Config.nodeCap →
    (∀ n b m, s.decWork.trie.child n b = some m → m < s.decWork.trie.length) →
    (Table.get s.decWork.seen sym.toNat = none ∧ s.decWork.trie.Free 0 bs ∧
        s.decWork.trie.length + s.decWork.trie.missing 0 bs ≤ Config.nodeCap →
      ∃ t tr seen, exec (.trInsert sym bs) s = .next t ∧
        t = { s with decWork := { s.decWork with trie := tr, seen := seen } } ∧
        tr.Spells 0 bs sym ∧ (∀ cs b, s.decWork.trie.Spells 0 cs b → tr.Spells 0 cs b) ∧
        tr.length = s.decWork.trie.length + s.decWork.trie.missing 0 bs ∧
        ∀ i, (Table.get seen i).isSome ↔ i = sym.toNat ∨ (Table.get s.decWork.seen i).isSome) ∧
    (¬ (Table.get s.decWork.seen sym.toNat = none ∧ s.decWork.trie.Free 0 bs ∧
        s.decWork.trie.length + s.decWork.trie.missing 0 bs ≤ Config.nodeCap) →
      ∃ t, exec (.trInsert sym bs) s = .next t ∧ Faulted .dec .corruptData s t)

/-- R179, R181: `TR.REBUILD` from an empty arena builds a trie that spells exactly the entries, when no symbol stands twice, the
codes are prefix-free and the trie fits; in every other case, and when `K = 0`, it raises `CorruptData`. -/
def Obligations.RebuildSpellsExactlyTheEntries : Prop :=
  ∀ s : State, s.decWork.trie = [] → s.decWork.seen = [] → s.decWork.entries.length = s.decWork.k.toNat →
    (∀ e ∈ s.decWork.entries, 1 ≤ e.bits.length) →
    (s.decWork.k ≠ 0 ∧ Buildable s.decWork.entries →
      ∃ t tr seen, exec .trRebuild s = .next t ∧ Kept .dec s t ∧ t.dec = { s.dec with phase := 3 } ∧
        t.decWork = { s.decWork with trie := tr, seen := seen } ∧
        (∀ bs b, tr.Spells 0 bs b ↔ ∃ e ∈ s.decWork.entries, e.bits = bs ∧ e.sym = b) ∧
        tr.length = trieNodes (s.decWork.entries.map Entry.bits) ∧ tr.leafAt 0 = none ∧
        ∀ i, (Table.get seen i).isSome ↔ ∃ e ∈ s.decWork.entries, e.sym.toNat = i) ∧
    (s.decWork.k = 0 ∨ ¬ Buildable s.decWork.entries →
      ∃ t, exec .trRebuild s = .next t ∧ Faulted .dec .corruptData s t)

/-- R150: `BR.GETBIT` yields bit `7 − (BITPOS mod 8)` of byte `PAY_OFF + BITPOS div 8` of `DEC.IN`, and counts it. That it does so
also where no payload bit is left, which R150 leaves to the caller, is the model's choice (log 22). -/
def Obligations.GetBitYieldsTheNextPayloadBit : Prop :=
  ∀ (s : State), ∃ t, exec .brGetBit s = .next t ∧
    t = { s with
      decWork := { s.decWork with bitpos := s.decWork.bitpos + 1 }, tick := t.tick, ret := t.ret } ∧
    t.ret.toNat < 2 ∧
    ∀ b, s.dec.inBuf.read (s.decWork.payOff.toNat + s.decWork.bitpos.toNat / 8) = some b →
      t.ret.toNat = (b.getLsbD (7 - s.decWork.bitpos.toNat % 8)).toNat

/-- R180: a walk of a payload that starts with the codes of `N` symbols emits these symbols and ends the command, having read
exactly the codes' bits, whatever bits follow. -/
def Obligations.WalkEmitsTheSpelledSymbols : Prop :=
  ∀ (s : State) (x : List Byte) (bs rest : Bits), s.payload = bs ++ rest → s.decWork.trie.SpellsAll x bs →
    s.decWork.n.toNat = x.length → s.decWork.n ≤ s.params.decOutCap → bs.length < 2 ^ 40 →
    ∃ t, exec .twWalk s = .next t ∧ Kept .dec s t ∧
      t.dec = { s.dec with
        state := .done, phase := 0, outLen := s.decWork.n,
        diag := { s.dec.diag with bitcnt := t.dec.diag.bitcnt }, outBuf := t.dec.outBuf } ∧
      t.dec.diag.bitcnt.toNat = bs.length ∧
      (∀ a, t.dec.outBuf.read a = if a < x.length then some (x.getD a 0) else s.dec.outBuf.read a) ∧
      t.decWork = { s.decWork with cur := 0, emitted := s.decWork.n, bitpos := t.dec.diag.bitcnt }

/-- R180, R230, R231: the three faults of the walk: `BufferBound` before any bit is read, `TruncatedStream` when the bits end
before the `N`-th symbol, between two codes or inside one, `CorruptData` when a bit leads to no child. -/
def Obligations.WalkFaults : Prop :=
  (∀ s : State, s.params.decOutCap < s.decWork.n → ∃ t, exec .twWalk s = .next t ∧ Faulted .dec .bufferBound s t) ∧
  (∀ (s : State) (x : List Byte) (bs r : Bits) (m : Nat), s.decWork.n ≤ s.params.decOutCap → s.payload = bs ++ r →
    s.decWork.trie.SpellsAll x bs → s.decWork.trie.Inner 0 r m → x.length < s.decWork.n.toNat →
    ∃ t, exec .twWalk s = .next t ∧ Faulted .dec .truncatedStream s t) ∧
  (∀ (s : State) (x : List Byte) (bs r rest : Bits) (b : Bool) (m : Nat), s.decWork.n ≤ s.params.decOutCap →
    s.payload = bs ++ (r ++ b :: rest) → s.decWork.trie.SpellsAll x bs → s.decWork.trie.Inner 0 r m →
    s.decWork.trie.child m b = none → x.length < s.decWork.n.toNat →
    ∃ t, exec .twWalk s = .next t ∧ Faulted .dec .corruptData s t)

/-! The whole machine. -/

/-- The invariant holds after reset; the working state it is about there is the model's choice (log 10). -/
def Obligations.InvariantHoldsAtReset : Prop := State.reset.Inv

/-- Every step keeps the invariant (R23 to R31, R36, R44, R70, R145, R236): `|PAY| = ceil8(BITCNT)` "at all times", buffers canonical and inside their capacities, registers
coherent with `STATE`, `PHASE` a phase of its unit, only the fault words of R236, and the working state each phase relies on. -/
def Obligations.StepKeepsTheInvariant : Prop := ∀ s t : State, s.Inv → step s = .next t → t.Inv

/-- R137, R211, and 93_implementation_defined.md ("No host action can make a unit stuck"): under the invariant no step stops. -/
def Obligations.MachineNeverStops : Prop := ∀ s : State, s.Inv → ∃ t, step s = .next t

/-- R17: "since `ENCODE` takes at most five steps and `DECODE` at most three, every accepted command reaches `DONE` or `FAULT`". -/
def Obligations.CommandEndsWithinItsPhases : Prop :=
  ∀ (s : State) (u : UnitId) (rest : List Event), s.Inv → s.busy u = true →
    s.agenda = List.replicate (maxPhases u) (.unitStep u) ++ rest →
    ∃ t : State, Sys2Proof.core.run (maxPhases u) s = .next t ∧ t.agenda = rest ∧
      ((t.block u).state = .done ∨ (t.block u).state = .fault)

/-- R20, R70, R164: a phase or primitive changes nothing outside its unit, nor its unit's `IN`, `IN_LEN` and `ILL`; and it
changes `OUT` only in `SERIALIZE` and `WALK`, or by a fault. -/
def Obligations.OperationsTouchOnlyTheirUnit : Prop :=
  ∀ (i : Instr) (u : UnitId) (s t : State), opUnit i = some u → exec i s = .next t →
    Kept u s { t with ret := s.ret } ∧
    (i ≠ .pqExtractMin → i ≠ .brGetBit → t.ret = s.ret) ∧
    (i ≠ .encSerialize → i ≠ .twWalk → (s.block u).state ≠ .fault → (t.block u).state ≠ .fault →
      ∀ a, (t.block u).outBuf.read a = (s.block u).outBuf.read a)

/-- R20, R163 ("nothing in `DEC`"): what a phase or primitive makes of its unit depends on that unit and the parameters only (and
on which free values are drawn, which the model's own count says, log 4). -/
def Obligations.UnitsDoNotInfluenceEachOther : Prop :=
  ∀ (i : Instr) (u : UnitId) (s s' t : State), opUnit i = some u → SameUnit u s s' → s'.params = s.params → s'.tick = s.tick →
    exec i s = .next t → ∃ t', exec i s' = .next t' ∧ SameUnit u t t'

/-- R213, R160, R161, R138: `encode(x)` completes: with `Overflow` exactly when a symbol occurs more than `2^CNT_W − 1` times;
else with the container of a prefix-free code table of exactly the symbols of `x` and the packed codes of `x`, or with
`BufferBound` when that does not fit. -/
def Obligations.EncodeBytesGivesAContainer : Prop :=
  ∀ (s : State) (x : List Byte), s.busy .enc = false → x.length ≤ s.params.encInCap.toNat →
    ∃ t, exec (.encodeBytes x) s = .next t ∧ t.params = s.params ∧ t.agenda = s.agenda ∧ t.dec = s.dec ∧
      t.decWork = s.decWork ∧ t.enc.ill = s.enc.ill ∧ HasInput .enc t x ∧
      (∀ a, x.length ≤ a → t.enc.inBuf.read a = s.enc.inBuf.read a) ∧
      ((∃ b, 2 ^ s.params.cntW - 1 < occurrences x b) → t.result = .failure .overflow) ∧
      ((∀ b, occurrences x b ≤ 2 ^ s.params.cntW - 1) →
        ∃ es bs c, (es.map (fun e => e.sym.toNat)).Pairwise (· < ·) ∧ (∀ b, (∃ e ∈ es, e.sym = b) ↔ b ∈ x) ∧
          (∀ e ∈ es, 1 ≤ e.bits.length ∧ e.bits.length ≤ 255) ∧ PrefixFree (es.map Entry.bits) ∧ EntriesSpell es x bs ∧
          c = encoderContainer es x.length (packbits bs) ∧
          (s.params.encOutCap.toNat < c.length → t.result = .failure .bufferBound) ∧
          (c.length ≤ s.params.encOutCap.toNat → t.result = .success c ∧ t.enc.state = .done ∧ t.enc.outLen.toNat = c.length ∧
            (∀ a, t.enc.outBuf.read a = if a < c.length then some (c.getD a 0) else none) ∧
            t.enc.diag.nsym.toNat = es.length ∧ t.enc.diag.symcnt.toNat = x.length ∧ t.enc.diag.bitcnt.toNat = bs.length))

/-- R214, R175 to R181: `decode(c)` completes: with `CorruptData` on what is no container, or on one with `N ≥ 1` whose entries
are no code table; with empty output when `N = 0`; and with the symbols that the payload spells. -/
def Obligations.DecodeBytesGivesTheSpelledSymbols : Prop :=
  ∀ (s : State) (c : List Byte), s.busy .dec = false → c.length ≤ s.params.decInCap.toNat →
    ∃ t, exec (.decodeBytes c) s = .next t ∧ t.params = s.params ∧ t.agenda = s.agenda ∧ t.enc = s.enc ∧
      t.encWork = s.encWork ∧ t.dec.ill = s.dec.ill ∧ HasInput .dec t c ∧
      (∀ a, c.length ≤ a → t.dec.inBuf.read a = s.dec.inBuf.read a) ∧
      ((∀ es n pay, ¬ Container c es n pay) → t.result = .failure .corruptData) ∧
      (∀ es n pay, Container c es n pay →
        (n = 0 → t.result = .success []) ∧
        (1 ≤ n → es = [] ∨ ¬ Buildable es → t.result = .failure .corruptData) ∧
        (1 ≤ n → es ≠ [] → Buildable es → s.params.decOutCap.toNat < n → t.result = .failure .bufferBound) ∧
        (∀ x bs rest, n = x.length → x ≠ [] → Buildable es → n ≤ s.params.decOutCap.toNat → EntriesSpell es x bs →
          (List.range (8 * pay.length)).map (bitat pay) = bs ++ rest →
          t.result = .success x ∧ t.dec.state = .done ∧ t.dec.outLen.toNat = x.length ∧
            (∀ a, t.dec.outBuf.read a = if a < x.length then some (x.getD a 0) else none) ∧
            t.dec.diag.bitcnt.toNat = bs.length))

/-- R182: the round trip. What `encode(x)` hands over as a value, `decode` turns back into `x`, whatever either unit did before;
and the diagnostics of the two agree. -/
def Obligations.DecodeOfEncodeIsTheInput : Prop :=
  ∀ (s t : State) (x c : List Byte), s.busy .enc = false → s.busy .dec = false → x.length ≤ s.params.encInCap.toNat →
    x.length ≤ s.params.decOutCap.toNat → exec (.encodeBytes x) s = .next t → t.result = .success c →
    c.length ≤ s.params.decInCap.toNat →
    ∃ t', exec (.decodeBytes c) t = .next t' ∧ t'.result = .success x ∧ t'.dec.state = .done ∧
      t'.dec.outLen.toNat = x.length ∧ (∀ a, t'.dec.outBuf.read a = if a < x.length then some (x.getD a 0) else none) ∧
      t'.dec.diag = t'.enc.diag

/-- R163, R42: the result of `encode(x)` depends on `x` and the parameters only: two states that agree on nothing else give the
same result, the same bytes in `OUT` and the same registers. -/
def Obligations.EncodeIsDeterministic : Prop :=
  ∀ (s s' : State) (x : List Byte), s.busy .enc = false → s'.busy .enc = false → s'.params = s.params →
    x.length ≤ s.params.encInCap.toNat →
    ∃ t t', exec (.encodeBytes x) s = .next t ∧ exec (.encodeBytes x) s' = .next t' ∧ t'.result = t.result ∧
      t'.enc.state = t.enc.state ∧ t'.enc.phase = t.enc.phase ∧ t'.enc.err = t.enc.err ∧ t'.enc.outLen = t.enc.outLen ∧
      (∀ a, t'.enc.outBuf.read a = t.enc.outBuf.read a) ∧ (t.enc.state = .done → t'.enc.diag = t.enc.diag)

/-- R42, R152: the same of `decode(c)`. -/
def Obligations.DecodeIsDeterministic : Prop :=
  ∀ (s s' : State) (c : List Byte), s.busy .dec = false → s'.busy .dec = false → s'.params = s.params →
    c.length ≤ s.params.decInCap.toNat →
    ∃ t t', exec (.decodeBytes c) s = .next t ∧ exec (.decodeBytes c) s' = .next t' ∧ t'.result = t.result ∧
      t'.dec.state = t.dec.state ∧ t'.dec.phase = t.dec.phase ∧ t'.dec.err = t.dec.err ∧ t'.dec.outLen = t.dec.outLen ∧
      (∀ a, t'.dec.outBuf.read a = t.dec.outBuf.read a) ∧ (t.dec.state = .done → t'.dec.diag = t.dec.diag)

/-- R212 to R214: a pseudo-operation is its expansion: the host's moves one by one, with the unit's steps while it waits, lead to
the very state that the pseudo-operation gives (which the model runs as one step, log 19). -/
def Obligations.PseudoOperationsAreTheirExpansions : Prop :=
  (∀ (s : State) (x : List Byte) (rest : List Event), s.busy .enc = false → x.length ≤ s.params.encInCap.toNat →
    s.agenda = encodeExpansion x ++ rest →
    ∃ k, Sys2Proof.core.run k s = exec (.encodeBytes x) { s with agenda := rest }) ∧
  (∀ (s : State) (c : List Byte) (rest : List Event), s.busy .dec = false → c.length ≤ s.params.decInCap.toNat →
    s.agenda = decodeExpansion c ++ rest →
    ∃ k, Sys2Proof.core.run k s = exec (.decodeBytes c) { s with agenda := rest })

/-- R233: what taking a fault writes, what it leaves, and that no later phase runs. R233 says only that `OUT`, `NSYM`, `SYMCNT`,
`BITCNT` and the working state become unspecified: that they are the free values named here is the model's choice (log 8), and
so is the clause on `ENC`'s `PAY` and `BITCNT`, which keeps the limits of R36 and R145 between them (log 8). -/
def Obligations.RaiseTakesTheFault : Prop :=
  ∀ (s : State) (u : UnitId) (e : Failure), Faulted u e s (s.raise u e) ∧
    (∀ a, ∃ k, (s.raise u e).outByte u a = Config.unspecByte k a) ∧
    (∃ k, (s.raise u e).visibleDiag u = Config.unspecDiag k) ∧
    (u = .enc → ∃ k, (s.raise u e).encWork = { Config.unspecEncWork k with pay := (freeBitWriter k).pay } ∧
      (s.raise u e).enc.diag.bitcnt = (freeBitWriter k).bitcnt ∧ (s.raise u e).bitWriter.Sound) ∧
    (u = .dec → ∃ k, (s.raise u e).decWork = Config.unspecDecWork k) ∧
    unitStep u (s.raise u e) = .next (s.raise u e)

/-- R234: from `FAULT` a unit executes nothing; `CLEAR` leads to `IDLE`, a new command that fits is accepted, and either clears
`ERR`; any other move leaves the unit in `FAULT` with the same `ERR`. -/
def Obligations.FaultIsLeftOnlyByCommandOrReset : Prop :=
  ∀ (s : State) (u : UnitId), (s.block u).state = .fault →
    unitStep u s = .next s ∧
    (∃ t, exec (.clear u) s = .next t ∧ (t.block u).state = .idle ∧ (t.block u).err = .none) ∧
    (u = .enc → s.enc.inLen ≤ s.params.encInCap →
      ∃ t, exec .encode s = .next t ∧ t.enc.state = .busy ∧ t.enc.err = .none) ∧
    (u = .dec → s.dec.inLen ≤ s.params.decInCap →
      ∃ t, exec .decode s = .next t ∧ t.dec.state = .busy ∧ t.dec.err = .none) ∧
    ∀ e t, perform e s = .next t → e ≠ .reset → (∀ v, e ≠ .regWrite u 0 v) → (∀ x, e ≠ .encodeBytes x) →
      (∀ c, e ≠ .decodeBytes c) → (t.block u).state = .fault ∧ (t.block u).err = (s.block u).err

end
end

