-- ==== Sys2Proof/Laws/Bits.lean ====
section
/-! SUPPORT. The laws of the BitWriter and of bit strings in bytes (44_bit_writer_reader.md R145 to R149). -/

namespace Sys2Proof.Machine

theorem BitWriter.empty_holds : BitWriter.empty.Holds [] := by
  refine ⟨rfl, rfl, fun t => ?_⟩
  simp [BitWriter.empty, bitat, bitOfByte]

/-- Adding `b · 2^(7−r)` to a byte whose bit `r` (most significant first) is 0 sets that bit to `b` and no other. -/
theorem bitOfByte_add (x : Byte) (b : Bool) (r j : Nat) (hr : r < 8) (hj : j < 8) (hx : bitOfByte x r = false) :
    bitOfByte (x + BitVec.ofNat 8 (b.toNat * 2 ^ (7 - r))) j = if j = r then b else bitOfByte x j := by
  cases b with
  | false =>
    by_cases h : j = r
    · subst h; simpa using hx
    · simp [h]
  | true =>
    have htp : BitVec.ofNat 8 (true.toNat * 2 ^ (7 - r)) = BitVec.twoPow 8 (7 - r) := by
      simp [BitVec.twoPow, BitVec.ofNat, ← BitVec.toNat_inj, Nat.shiftLeft_eq]
    have hand : x &&& BitVec.twoPow 8 (7 - r) = 0#8 := by
      ext i hi
      by_cases hir : 7 - r = i
      · subst hir
        unfold bitOfByte at hx
        simp [← BitVec.getLsbD_eq_getElem, hx]
      · simp [← BitVec.getLsbD_eq_getElem, BitVec.getLsbD_twoPow, hir]
    rw [htp, BitVec.add_eq_or_of_and_eq_zero _ _ hand]
    unfold bitOfByte
    rw [BitVec.getLsbD_or, BitVec.getLsbD_twoPow]
    by_cases h : j = r
    · subst h; simp; omega
    · have : ¬ (7 - r = 7 - j) := by omega
      simp [h, this]

/-- One more bit (R146). -/
theorem BitWriter.putBit_holds {w : BitWriter} {bs : Bits} (b : Bool) (h : w.Holds bs) (hlt : bs.length + 1 < 2 ^ 40) :
    (w.putBit b).Holds (bs ++ [b]) := by
  obtain ⟨hc, hb, ht⟩ := h
  have hn : w.bitcnt.toNat = bs.length := hc
  set n := bs.length with hnd
  -- the bytes with a zero byte started where the bit falls into a new one
  obtain ⟨pay, hpay, hplen, hpbit⟩ : ∃ pay, (w.putBit b).pay = pay.modify (n / 8) (fun x => x + BitVec.ofNat 8 (b.toNat * 2 ^ (7 - n % 8))) ∧
      pay.length = n / 8 + 1 ∧ ∀ t, bitat pay t = bs.getD t false := by
    by_cases h8 : n % 8 = 0
    · refine ⟨w.pay ++ [0x00], ?_, ?_, ?_⟩
      · simp only [BitWriter.putBit, hn, h8, if_true]
      · simp [hb, ceil8]; omega
      · intro t
        rw [← ht t]
        unfold bitat
        congr 1
        simp only [List.getD_eq_getElem?_getD, List.getElem?_append]
        split
        · rfl
        · rename_i hge
          rw [List.getElem?_eq_none (by omega : w.pay.length ≤ t / 8)]
          cases t / 8 - w.pay.length <;> simp
    · refine ⟨w.pay, ?_, ?_, ht⟩
      · simp only [BitWriter.putBit, hn, h8, if_false]
      · rw [hb, ceil8]; omega
  refine ⟨?_, ?_, ?_⟩
  · simp only [BitWriter.putBit, BitVec.toNat_add, hn]
    simp [hnd]
    omega
  · rw [hpay]
    simp [hplen, ceil8, ← hnd]
    omega
  · intro t
    rw [hpay]
    have hmod : (pay.modify (n / 8) (fun x => x + BitVec.ofNat 8 (b.toNat * 2 ^ (7 - n % 8)))).getD (t / 8) 0 =
        if n / 8 = t / 8 then pay.getD (n / 8) 0 + BitVec.ofNat 8 (b.toNat * 2 ^ (7 - n % 8)) else pay.getD (t / 8) 0 := by
      by_cases hq : n / 8 = t / 8
      · have hlt' : t / 8 < pay.length := by omega
        simp [List.getD_eq_getElem?_getD, hq, List.getElem?_eq_getElem hlt']
      · simp [List.getD_eq_getElem?_getD, hq]
    unfold bitat
    rw [hmod]
    by_cases hq : n / 8 = t / 8
    · rw [if_pos hq]
      have hx : bitOfByte (pay.getD (n / 8) 0) (n % 8) = false := by
        have := hpbit n
        unfold bitat at this
        rw [this]
        simp [hnd, List.getD_eq_getElem?_getD]
      rw [bitOfByte_add _ _ _ _ (by omega) (by omega) hx]
      by_cases hr : t % 8 = n % 8
      · have : t = n := by omega
        subst this
        simp [hnd, List.getD_eq_getElem?_getD]
      · rw [if_neg hr, hq]
        have := hpbit t
        unfold bitat at this
        rw [this]
        have hne : t ≠ n := fun e => hr (by rw [e])
        rcases Nat.lt_or_gt_of_ne hne with h1 | h1
        · simp [List.getD_eq_getElem?_getD, List.getElem?_append_left (hnd ▸ h1)]
        · rw [List.getD_eq_default _ _ (by omega), List.getD_eq_default]; simp; omega
    · rw [if_neg hq]
      have := hpbit t
      unfold bitat at this
      rw [this]
      have hne : t ≠ n := fun e => hq (by rw [e])
      rcases Nat.lt_or_gt_of_ne hne with h1 | h1
      · simp [List.getD_eq_getElem?_getD, List.getElem?_append_left (hnd ▸ h1)]
      · rw [List.getD_eq_default _ _ (by omega), List.getD_eq_default]; simp; omega

/-- A whole bit string (R147). -/
theorem BitWriter.putCode_holds {w : BitWriter} {bs : Bits} (cs : Bits) (h : w.Holds bs) (hlt : bs.length + cs.length < 2 ^ 40) :
    (w.putCode cs).Holds (bs ++ cs) := by
  induction cs generalizing w bs with
  | nil => simpa [BitWriter.putCode] using h
  | cons c cs ih =>
    have h1 := BitWriter.putBit_holds c h (by simp at hlt; omega)
    have := ih h1 (by simp at hlt ⊢; omega)
    simpa [BitWriter.putCode] using this

/-- An unspecified BitWriter keeps the limits of R36 and R145. -/
theorem freeBitWriter_sound (k : Nat) : (freeBitWriter k).Sound := by
  unfold freeBitWriter
  split
  · exact ⟨_, BitWriter.putCode_holds _ BitWriter.empty_holds (by simpa)⟩
  · exact ⟨_, BitWriter.empty_holds⟩

theorem BitWriter.putCode_append (w : BitWriter) (as bs : Bits) : w.putCode (as ++ bs) = (w.putCode as).putCode bs := by
  simp [BitWriter.putCode]

/-- `packbits` (R149): the number of bytes. -/
theorem packbits_length (bs : Bits) (h : bs.length < 2 ^ 40) : (packbits bs).length = ceil8 bs.length := by
  have := BitWriter.putCode_holds bs BitWriter.empty_holds (by simpa using h)
  simpa [packbits] using this.bytes

/-- `packbits` (R149): bit `t` of the bytes is bit `t` of the string, and 0 in the padding. -/
theorem bitat_packbits (bs : Bits) (h : bs.length < 2 ^ 40) (t : Nat) : bitat (packbits bs) t = bs.getD t false := by
  have := BitWriter.putCode_holds bs BitWriter.empty_holds (by simpa using h)
  simpa [packbits] using this.bits t

/-- A code laid into a `CODE` field is read back whole (R90, R149). -/
theorem codeBits_packbits (bs : Bits) (h : bs.length < 2 ^ 40) : codeBits (packbits bs) bs.length = bs := by
  apply List.ext_getElem
  · simp [codeBits]
  · intro i h1 h2
    simp only [codeBits, List.getElem_map, List.getElem_range, bitat_packbits bs h]
    simp [List.getD_eq_getElem?_getD, List.getElem?_eq_getElem h2]

theorem codeBits_length (c : List Byte) (n : Nat) : (codeBits c n).length = n := by simp [codeBits]

end Sys2Proof.Machine
end

