-- ==== Sys2Proof/Laws/Table.lean ====
section
/-! SUPPORT. The laws of tables and buffers: what a read after a write gives, and that every operation keeps the canonical
form. -/

namespace Sys2Proof.Machine

variable {α : Type}

@[simp] theorem Table.get_nil (i : Nat) : Table.get ([] : Table α) i = none := rfl

theorem Table.get_cons (k : Nat) (v : α) (m : Table α) (i : Nat) :
    Table.get ((k, v) :: m) i = if k = i then some v else Table.get m i := rfl

theorem Table.set_cons (k : Nat) (v : α) (m : Table α) (i : Nat) (x : α) :
    Table.set ((k, v) :: m) i x =
      if i < k then (i, x) :: (k, v) :: m else if i = k then (i, x) :: m else (k, v) :: Table.set m i x := rfl

theorem Table.get_set (m : Table α) (i j : Nat) (x : α) :
    Table.get (Table.set m i x) j = if i = j then some x else Table.get m j := by
  induction m with
  | nil => simp [Table.set, Table.get]
  | cons e m ih =>
    obtain ⟨k, v⟩ := e
    rw [Table.set_cons]
    rcases Nat.lt_trichotomy i k with h | h | h
    · rw [if_pos h, Table.get_cons]
    · subst h
      by_cases hj : i = j <;> simp [Table.get_cons, hj]
    · have h1 : ¬ i < k := by omega
      have h2 : i ≠ k := by omega
      rw [if_neg h1, if_neg h2, Table.get_cons, Table.get_cons, ih]
      by_cases hj : k = j
      · have : i ≠ j := by omega
        simp [hj, this]
      · simp [hj]

@[simp] theorem Table.get_set_same (m : Table α) (i : Nat) (x : α) : Table.get (Table.set m i x) i = some x := by
  simp [Table.get_set]

theorem Table.get_set_other (m : Table α) {i j : Nat} (x : α) (h : i ≠ j) :
    Table.get (Table.set m i x) j = Table.get m j := by simp [Table.get_set, h]

theorem Table.get_erase (m : Table α) (i j : Nat) :
    Table.get (Table.erase m i) j = if i = j then none else Table.get m j := by
  induction m with
  | nil => simp [Table.erase]
  | cons e m ih =>
    obtain ⟨k, v⟩ := e
    have hcons : Table.erase ((k, v) :: m) i = if k = i then Table.erase m i else (k, v) :: Table.erase m i := by
      by_cases hk : k = i <;> simp [Table.erase, hk]
    rw [hcons]
    by_cases hk : k = i
    · subst hk
      rw [if_pos rfl, ih, Table.get_cons]
      by_cases hj : k = j <;> simp [hj]
    · rw [if_neg hk, Table.get_cons, Table.get_cons, ih]
      by_cases hj : k = j
      · have : i ≠ j := by omega
        simp [hj, this]
      · simp [hj]

theorem Table.mem_keys (m : Table α) (i : Nat) : i ∈ Table.keys m ↔ (Table.get m i).isSome := by
  induction m with
  | nil => simp [Table.keys, Table.get]
  | cons e m ih =>
    obtain ⟨k, v⟩ := e
    unfold Table.keys at ih ⊢
    by_cases hk : k = i
    · simp [Table.get, hk]
    · have : i ≠ k := fun h => hk h.symm
      simp only [List.map_cons, List.mem_cons, this, false_or, ih]
      simp [Table.get, hk]

theorem Table.mem_keys_set (m : Table α) (i j : Nat) (x : α) :
    j ∈ Table.keys (Table.set m i x) ↔ j = i ∨ j ∈ Table.keys m := by
  rw [Table.mem_keys, Table.mem_keys, Table.get_set]
  by_cases h : i = j
  · simp [h]
  · have : j ≠ i := fun e => h e.symm
    simp [h, this]

theorem Table.mem_keys_erase (m : Table α) (i j : Nat) :
    j ∈ Table.keys (Table.erase m i) ↔ j ≠ i ∧ j ∈ Table.keys m := by
  rw [Table.mem_keys, Table.mem_keys, Table.get_erase]
  by_cases h : i = j
  · simp [h]
  · have : j ≠ i := fun e => h e.symm
    simp [h, this]

/-- Writing an entry keeps the canonical form. -/
theorem Table.set_wf {m : Table α} (i : Nat) (x : α) (h : Table.Wf m) : Table.Wf (Table.set m i x) := by
  induction m with
  | nil => simp [Table.set, Table.Wf]
  | cons e m ih =>
    obtain ⟨k, v⟩ := e
    simp only [Table.Wf, List.map_cons, List.pairwise_cons] at h ih ⊢
    rcases Nat.lt_trichotomy i k with hi | hi | hi
    · simp only [Table.set, hi, if_true, List.map_cons, List.pairwise_cons, List.mem_cons]
      refine ⟨?_, h⟩
      rintro a (rfl | ha)
      · exact hi
      · exact Nat.lt_trans hi (h.1 a ha)
    · subst hi
      simpa [Table.set] using h
    · have h1 : ¬ i < k := by omega
      have h2 : i ≠ k := by omega
      simp only [Table.set, h1, h2, if_false, List.map_cons, List.pairwise_cons]
      refine ⟨fun a ha => ?_, ih h.2⟩
      have := (Table.mem_keys_set m i a x).1 ha
      rcases this with rfl | ha'
      · exact hi
      · exact h.1 a ha'

/-- Removing an entry keeps the canonical form. -/
theorem Table.erase_wf {m : Table α} (i : Nat) (h : Table.Wf m) : Table.Wf (Table.erase m i) := by
  simp only [Table.Wf, Table.erase] at h ⊢
  exact h.sublist (List.Sublist.map _ List.filter_sublist)

/-- A canonical table has no index twice. -/
theorem Table.keys_nodup {m : Table α} (h : Table.Wf m) : (Table.keys m).Nodup :=
  h.imp (fun hab => Nat.ne_of_lt hab)

theorem Table.keys_length (m : Table α) : (Table.keys m).length = m.length := by simp [Table.keys]

/-- Two canonical tables with the same entries are the same data. -/
theorem Table.ext_of_wf {m m' : Table α} (h : Table.Wf m) (h' : Table.Wf m')
    (he : ∀ i, Table.get m i = Table.get m' i) : m = m' := by
  induction m generalizing m' with
  | nil =>
    cases m' with
    | nil => rfl
    | cons e m' => have := he e.1; simp [Table.get] at this
  | cons e m ih =>
    obtain ⟨k, v⟩ := e
    cases m' with
    | nil => have := he k; simp [Table.get] at this
    | cons e' m' =>
      obtain ⟨k', v'⟩ := e'
      simp only [Table.Wf, List.map_cons, List.pairwise_cons] at h h'
      have hk : k = k' := by
        by_contra hne
        rcases Nat.lt_or_gt_of_ne hne with hlt | hgt
        · have h1 := he k
          have h2 : k' ≠ k := fun e => hne e.symm
          simp only [Table.get, if_true, h2, if_false] at h1
          have : k ∈ Table.keys m' := by rw [Table.mem_keys, ← h1]; rfl
          have := h'.1 k this
          omega
        · have h1 := he k'
          simp only [Table.get, hne, if_false, if_true] at h1
          have : k' ∈ Table.keys m := by rw [Table.mem_keys, h1]; rfl
          have := h.1 k' this
          omega
      subst hk
      have hv := he k
      simp only [Table.get, if_true, Option.some.injEq] at hv
      subst hv
      congr 1
      apply ih h.2 h'.2
      intro i
      by_cases hi : k = i
      · subst hi
        have a1 : k ∉ Table.keys m := fun hm => by have := h.1 k hm; omega
        have a2 : k ∉ Table.keys m' := fun hm => by have := h'.1 k hm; omega
        rw [Table.mem_keys, Option.not_isSome_iff_eq_none] at a1 a2
        rw [a1, a2]
      · have := he i
        simpa only [Table.get, hi, if_false] using this

/-! Buffers. -/

/-- Reading after a write of one byte (R75). -/
theorem Memory.read_write (m : Memory) (a a' : Nat) (b : Byte) :
    (m.write a b).read a' = if a = a' then some b else m.read a' := Table.get_set m a a' b

/-- Writing keeps a buffer's canonical form. -/
theorem Memory.write_wf {m : Memory} (a : Nat) (b : Byte) (h : m.wf) : (m.write a b).wf := Table.set_wf a b h

/-- Reading after `MemWrite`: the bytes written, and every other byte as before (R75: "no effect beyond the bytes named"). -/
theorem Memory.read_writeAll (m : Memory) (a : Nat) (v : List Byte) (a' : Nat) :
    (m.writeAll a v).read a' = if a ≤ a' ∧ a' < a + v.length then v[a' - a]? else m.read a' := by
  induction v generalizing m a with
  | nil => simp [Memory.writeAll]
  | cons b v ih =>
    rw [Memory.writeAll, ih, Memory.read_write]
    by_cases h1 : a = a'
    · subst h1
      have : ¬ (a + 1 ≤ a) := by omega
      simp [this]
    · by_cases h2 : a + 1 ≤ a' ∧ a' < a + 1 + v.length
      · have h3 : a ≤ a' ∧ a' < a + (b :: v).length := by simp; omega
        have h4 : a' - a = (a' - (a + 1)) + 1 := by omega
        rw [if_pos h2, if_pos h3, h4, List.getElem?_cons_succ]
      · have h3 : ¬ (a ≤ a' ∧ a' < a + (b :: v).length) := by simp; omega
        rw [if_neg h2, if_neg h3, if_neg h1]

/-- What a buffer holds after a byte sequence is laid down from address 0 up (R75). -/
theorem Memory.read_writeAll_zero (m : Memory) (x : List Byte) (a : Nat) :
    (m.writeAll 0 x).read a = if a < x.length then some (x.getD a 0) else m.read a := by
  rw [Memory.read_writeAll]
  by_cases h : a < x.length <;> simp [h, List.getD_eq_getElem?_getD]

theorem Memory.writeAll_wf {m : Memory} (a : Nat) (v : List Byte) (h : m.wf) : (m.writeAll a v).wf := by
  induction v generalizing m a with
  | nil => exact h
  | cons b v ih => exact ih (a + 1) (Memory.write_wf a b h)

theorem Memory.mem_keys (m : Memory) (a : Nat) : a ∈ Table.keys m ↔ (m.read a).isSome := Table.mem_keys m a

/-- Writing the next address above all listed ones appends it. -/
theorem Memory.keys_write_next {m : Memory} {n : Nat} (b : Byte) (h : Table.keys m = List.range n) :
    Table.keys (m.write n b) = List.range (n + 1) := by
  have hlt : ∀ e ∈ m, e.1 < n := by
    intro e he
    have : e.1 ∈ Table.keys m := List.mem_map_of_mem he
    rw [h] at this
    exact List.mem_range.1 this
  have key : ∀ (m : Memory), (∀ e ∈ m, e.1 < n) → Table.set m n b = m ++ [(n, b)] := by
    intro m hm
    induction m with
    | nil => rfl
    | cons e m ih =>
      obtain ⟨k, v⟩ := e
      have hk : k < n := hm (k, v) (by simp)
      have h1 : ¬ n < k := by omega
      have h2 : n ≠ k := by omega
      simp [Table.set, h1, h2, ih (fun e he => hm e (by simp [he]))]
  show Table.keys (Table.set m n b) = _
  rw [key m hlt, List.range_succ, ← h]
  simp [Table.keys]

/-- `MemWrite` of a sequence from address 0 into a buffer with no specified byte lists exactly its addresses. -/
theorem Memory.keys_writeAll_next {m : Memory} {n : Nat} (v : List Byte) (h : Table.keys m = List.range n) :
    Table.keys (m.writeAll n v) = List.range (n + v.length) := by
  induction v generalizing m n with
  | nil => simpa [Memory.writeAll] using h
  | cons b v ih =>
    have := ih (Memory.keys_write_next b h)
    rw [Memory.writeAll, this]
    congr 1
    simp
    omega

@[simp] theorem memRead_length (rd : Nat → Byte) (a n : Nat) : (memRead rd a n).length = n := by simp [memRead]

theorem memRead_getElem (rd : Nat → Byte) (a n i : Nat) (h : i < (memRead rd a n).length) :
    (memRead rd a n)[i] = rd (a + i) := by simp [memRead]

/-- A sequence of reads that agrees with a list byte by byte is that list. -/
theorem memRead_eq_of_getElem (rd : Nat → Byte) (a : Nat) (x : List Byte)
    (h : ∀ i (hi : i < x.length), rd (a + i) = x[i]) : memRead rd a x.length = x := by
  apply List.ext_getElem
  · simp
  · intro i h1 h2
    rw [memRead_getElem]
    exact h i h2

end Sys2Proof.Machine
end

