-- ==== Sys2Proof/Laws/State.lean ====
section
/-! SUPPORT. One lemma per field and update of the state, and one lemma per shared operation that says everything it does. -/

namespace Sys2Proof.Machine

variable (s : State) (u : UnitId) (b : Block)

/-! `withBlock`. -/

@[simp] theorem State.block_withBlock : (s.withBlock u b).block u = b := by cases u <;> rfl
theorem State.block_withBlock_other {u v : UnitId} (h : v ≠ u) : (s.withBlock u b).block v = s.block v := by
  cases u <;> cases v <;> first | rfl | exact absurd rfl h
@[simp] theorem State.withBlock_enc_enc : (s.withBlock .enc b).enc = b := rfl
@[simp] theorem State.withBlock_enc_dec : (s.withBlock .enc b).dec = s.dec := rfl
@[simp] theorem State.withBlock_dec_dec : (s.withBlock .dec b).dec = b := rfl
@[simp] theorem State.withBlock_dec_enc : (s.withBlock .dec b).enc = s.enc := rfl
@[simp] theorem State.withBlock_params : (s.withBlock u b).params = s.params := by cases u <;> rfl
@[simp] theorem State.withBlock_encWork : (s.withBlock u b).encWork = s.encWork := by cases u <;> rfl
@[simp] theorem State.withBlock_decWork : (s.withBlock u b).decWork = s.decWork := by cases u <;> rfl
@[simp] theorem State.withBlock_agenda : (s.withBlock u b).agenda = s.agenda := by cases u <;> rfl
@[simp] theorem State.withBlock_tick : (s.withBlock u b).tick = s.tick := by cases u <;> rfl
@[simp] theorem State.withBlock_ret : (s.withBlock u b).ret = s.ret := by cases u <;> rfl
@[simp] theorem State.withBlock_result : (s.withBlock u b).result = s.result := by cases u <;> rfl
@[simp] theorem State.withBlock_inCap (v : UnitId) : (s.withBlock u b).inCap v = s.inCap v := by cases u <;> cases v <;> rfl
@[simp] theorem State.withBlock_outCap (v : UnitId) : (s.withBlock u b).outCap v = s.outCap v := by cases u <;> cases v <;> rfl
@[simp] theorem State.withBlock_withBlock (b' : Block) : (s.withBlock u b).withBlock u b' = s.withBlock u b' := by
  cases u <;> rfl
@[simp] theorem State.withBlock_block : s.withBlock u (s.block u) = s := by cases u <;> rfl

/-! `drawn`. -/

@[simp] theorem State.drawn_block : s.drawn.block u = s.block u := by cases u <;> rfl
@[simp] theorem State.drawn_enc : s.drawn.enc = s.enc := rfl
@[simp] theorem State.drawn_dec : s.drawn.dec = s.dec := rfl
@[simp] theorem State.drawn_params : s.drawn.params = s.params := rfl
@[simp] theorem State.drawn_encWork : s.drawn.encWork = s.encWork := rfl
@[simp] theorem State.drawn_decWork : s.drawn.decWork = s.decWork := rfl
@[simp] theorem State.drawn_agenda : s.drawn.agenda = s.agenda := rfl
@[simp] theorem State.drawn_tick : s.drawn.tick = s.tick + 1 := rfl
@[simp] theorem State.drawn_ret : s.drawn.ret = s.ret := rfl
@[simp] theorem State.drawn_result : s.drawn.result = s.result := rfl

/-! `forgetWork` and `initWork`. -/

@[simp] theorem State.forgetWork_block (v : UnitId) : (s.forgetWork u).block v = s.block v := by cases u <;> cases v <;> rfl
@[simp] theorem State.forgetWork_enc : (s.forgetWork u).enc = s.enc := by cases u <;> rfl
@[simp] theorem State.forgetWork_dec : (s.forgetWork u).dec = s.dec := by cases u <;> rfl
@[simp] theorem State.forgetWork_params : (s.forgetWork u).params = s.params := by cases u <;> rfl
@[simp] theorem State.forgetWork_agenda : (s.forgetWork u).agenda = s.agenda := by cases u <;> rfl
@[simp] theorem State.forgetWork_tick : (s.forgetWork u).tick = s.tick := by cases u <;> rfl
@[simp] theorem State.forgetWork_ret : (s.forgetWork u).ret = s.ret := by cases u <;> rfl
@[simp] theorem State.forgetWork_result : (s.forgetWork u).result = s.result := by cases u <;> rfl
@[simp] theorem State.forgetWork_enc_decWork : (s.forgetWork .enc).decWork = s.decWork := rfl
@[simp] theorem State.forgetWork_dec_encWork : (s.forgetWork .dec).encWork = s.encWork := rfl
@[simp] theorem State.initWork_block (v : UnitId) : (s.initWork u).block v = s.block v := by cases u <;> cases v <;> rfl
@[simp] theorem State.initWork_enc : (s.initWork u).enc = s.enc := by cases u <;> rfl
@[simp] theorem State.initWork_dec : (s.initWork u).dec = s.dec := by cases u <;> rfl
@[simp] theorem State.initWork_params : (s.initWork u).params = s.params := by cases u <;> rfl
@[simp] theorem State.initWork_agenda : (s.initWork u).agenda = s.agenda := by cases u <;> rfl
@[simp] theorem State.initWork_tick : (s.initWork u).tick = s.tick := by cases u <;> rfl
@[simp] theorem State.initWork_ret : (s.initWork u).ret = s.ret := by cases u <;> rfl
@[simp] theorem State.initWork_result : (s.initWork u).result = s.result := by cases u <;> rfl
@[simp] theorem State.initWork_enc_encWork : (s.initWork .enc).encWork = EncWork.initial := rfl
@[simp] theorem State.initWork_enc_decWork : (s.initWork .enc).decWork = s.decWork := rfl
@[simp] theorem State.initWork_dec_decWork : (s.initWork .dec).decWork = DecWork.initial := rfl
@[simp] theorem State.initWork_dec_encWork : (s.initWork .dec).encWork = s.encWork := rfl

/-! `emptyPay`. -/

@[simp] theorem State.emptyPay_block (v : UnitId) : (s.emptyPay u).block v = s.block v := by cases u <;> cases v <;> rfl
@[simp] theorem State.emptyPay_enc : (s.emptyPay u).enc = s.enc := by cases u <;> rfl
@[simp] theorem State.emptyPay_dec : (s.emptyPay u).dec = s.dec := by cases u <;> rfl
@[simp] theorem State.emptyPay_params : (s.emptyPay u).params = s.params := by cases u <;> rfl
@[simp] theorem State.emptyPay_agenda : (s.emptyPay u).agenda = s.agenda := by cases u <;> rfl
@[simp] theorem State.emptyPay_tick : (s.emptyPay u).tick = s.tick := by cases u <;> rfl
@[simp] theorem State.emptyPay_ret : (s.emptyPay u).ret = s.ret := by cases u <;> rfl
@[simp] theorem State.emptyPay_result : (s.emptyPay u).result = s.result := by cases u <;> rfl
@[simp] theorem State.emptyPay_decWork : (s.emptyPay u).decWork = s.decWork := by cases u <;> rfl
@[simp] theorem State.emptyPay_enc_encWork : (s.emptyPay .enc).encWork = { s.encWork with pay := [] } := rfl
@[simp] theorem State.emptyPay_dec_eq : s.emptyPay .dec = s := rfl

/-! The BitWriter. -/

@[simp] theorem State.bitWriter_withBitWriter (w : BitWriter) : (s.withBitWriter w).bitWriter = w := rfl
@[simp] theorem State.withBitWriter_params (w : BitWriter) : (s.withBitWriter w).params = s.params := rfl
@[simp] theorem State.withBitWriter_dec (w : BitWriter) : (s.withBitWriter w).dec = s.dec := rfl
@[simp] theorem State.withBitWriter_decWork (w : BitWriter) : (s.withBitWriter w).decWork = s.decWork := rfl
@[simp] theorem State.withBitWriter_agenda (w : BitWriter) : (s.withBitWriter w).agenda = s.agenda := rfl
@[simp] theorem State.withBitWriter_enc (w : BitWriter) :
    (s.withBitWriter w).enc = { s.enc with diag := { s.enc.diag with bitcnt := w.bitcnt } } := rfl
@[simp] theorem State.withBitWriter_encWork (w : BitWriter) :
    (s.withBitWriter w).encWork = { s.encWork with pay := w.pay } := rfl

/-! The blocks' own operations. -/

@[simp] theorem Block.raised_state (e : Failure) (d : Diag) : (b.raised e d).state = .fault := rfl
@[simp] theorem Block.raised_phase (e : Failure) (d : Diag) : (b.raised e d).phase = b.phase := rfl
@[simp] theorem Block.raised_err (e : Failure) (d : Diag) : (b.raised e d).err = e := rfl
@[simp] theorem Block.raised_ill (e : Failure) (d : Diag) : (b.raised e d).ill = b.ill := rfl
@[simp] theorem Block.raised_inLen (e : Failure) (d : Diag) : (b.raised e d).inLen = b.inLen := rfl
@[simp] theorem Block.raised_outLen (e : Failure) (d : Diag) : (b.raised e d).outLen = 0 := rfl
@[simp] theorem Block.raised_inBuf (e : Failure) (d : Diag) : (b.raised e d).inBuf = b.inBuf := rfl
@[simp] theorem Block.raised_outBuf (e : Failure) (d : Diag) : (b.raised e d).outBuf = [] := rfl
@[simp] theorem Block.finished_state (n : Word) (d : Diag) (m : Memory) : (b.finished n d m).state = .done := rfl
@[simp] theorem Block.finished_phase (n : Word) (d : Diag) (m : Memory) : (b.finished n d m).phase = 0 := rfl
@[simp] theorem Block.finished_err (n : Word) (d : Diag) (m : Memory) : (b.finished n d m).err = b.err := rfl
@[simp] theorem Block.finished_ill (n : Word) (d : Diag) (m : Memory) : (b.finished n d m).ill = b.ill := rfl
@[simp] theorem Block.finished_inLen (n : Word) (d : Diag) (m : Memory) : (b.finished n d m).inLen = b.inLen := rfl
@[simp] theorem Block.finished_outLen (n : Word) (d : Diag) (m : Memory) : (b.finished n d m).outLen = n := rfl
@[simp] theorem Block.finished_diag (n : Word) (d : Diag) (m : Memory) : (b.finished n d m).diag = d := rfl
@[simp] theorem Block.finished_inBuf (n : Word) (d : Diag) (m : Memory) : (b.finished n d m).inBuf = b.inBuf := rfl
@[simp] theorem Block.finished_outBuf (n : Word) (d : Diag) (m : Memory) : (b.finished n d m).outBuf = m := rfl

/-! The shared operations. -/

/-- What no operation of unit `u` changes (R20, R164, R70): the other unit, the unit's `IN`, `IN_LEN` and `ILL`, the parameters,
the agenda. -/
theorem State.raise_kept (e : Failure) : Kept u s (s.raise u e) := by
  cases u <;> exact ⟨rfl, rfl, rfl, rfl, ⟨rfl, rfl⟩, rfl, rfl, fun _ => rfl⟩

/-- Fault entry (R233). -/
theorem State.raise_block (e : Failure) :
    (s.raise u e).block u = (s.block u).raised e (faultDiag u s.tick) := by cases u <;> rfl

theorem State.returnToIdle_kept_other : SameOther u s (s.returnToIdle u) := by cases u <;> exact ⟨rfl, rfl⟩

theorem State.returnToIdle_block : (s.returnToIdle u).block u = (s.block u).cleared := by cases u <;> rfl

theorem State.markIllegal_block : (s.markIllegal u).block u = { s.block u with ill := true } := by cases u <;> rfl

/-- Acceptance of a length that fits (R206, R207). -/
theorem State.accept_fits (h : (s.block u).inLen ≤ s.inCap u) :
    s.accept u = (State.initWork (s.withBlock u ((s.block u).accepted (acceptDiag u (Config.unspecDiag s.tick)))) u).drawn := by
  unfold State.accept
  exact if_neg (by simpa [BitVec.not_lt] using h)

/-- Acceptance of a length that does not fit (R231). -/
theorem State.accept_tooLong (h : s.inCap u < (s.block u).inLen) :
    s.accept u = State.raise (s.withBlock u { s.block u with phase := phaseNone }) u .bufferBound := by
  unfold State.accept
  exact if_pos h

/-- Whether a unit is `BUSY` depends on its block only. -/
theorem State.busy_of_block {s t : State} {u : UnitId} (h : t.block u = s.block u) : t.busy u = s.busy u := by
  unfold State.busy
  rw [h]

/-! Codes of the status word. -/

theorem UnitState.toCode_lt (x : UnitState) : x.toCode < 4 := by cases x <;> decide
theorem Failure.toCode_lt (e : Failure) : e.toCode < 16 := by cases e <;> decide

/-- The `STATUS` word as an integer (R83). -/
theorem Block.statusWord_toNat :
    b.statusWord.toNat = b.state.toCode + 16 * b.phase.toNat + 256 * b.err.toCode + 4096 * b.ill.toNat := by
  have h1 := b.state.toCode_lt
  have h2 := b.phase.isLt
  have h3 := b.err.toCode_lt
  have h4 := Bool.toNat_le b.ill
  unfold Block.statusWord
  rw [BitVec.toNat_ofNat]
  omega

/-- A field of a word. -/
theorem extract_toNat {w : Word} (lo n : Nat) : (w.extractLsb' lo n).toNat = w.toNat / 2 ^ lo % 2 ^ n := by
  rw [BitVec.extractLsb'_toNat, Nat.shiftRight_eq_div_pow]

/-- The phase field of the status word is the sequencer register (R23, R31). -/
@[simp] theorem statusPhase_statusWord : statusPhase b.statusWord = b.phase := by
  apply BitVec.eq_of_toNat_eq
  unfold statusPhase
  rw [extract_toNat, Block.statusWord_toNat]
  have h1 := b.state.toCode_lt
  have h2 := b.phase.isLt
  have h3 := b.err.toCode_lt
  have h4 := Bool.toNat_le b.ill
  omega

end Sys2Proof.Machine
end

