-- ==== Sys2Proof/Laws/Tree.lean ====
section
/-! SUPPORT. The laws of the tree builder and the code assigner: the priority order, what a merge does, the tree that
`TB.BUILD` leaves (42_tree_builder.md R120 to R126), and the codes `CA.ASSIGN` reads from a tree (43_code_assigner.md). -/

namespace Sys2Proof.Machine

/-! The priority collection. -/

theorem Table.keys_erase_perm {α : Type} {m : Table α} {a : Nat} (h : Table.Wf m) (ha : a ∈ Table.keys m) :
    (Table.keys m).Perm (a :: Table.keys (Table.erase m a)) := by
  apply (List.perm_ext_iff_of_nodup (Table.keys_nodup h) ?_).2
  · intro x
    rw [List.mem_cons, Table.mem_keys_erase]
    by_cases hx : x = a
    · subst hx; simp [ha]
    · simp [hx]
  · rw [List.nodup_cons]
    exact ⟨by rw [Table.mem_keys_erase]; simp, Table.keys_nodup (Table.erase_wf a h)⟩

theorem Table.keys_set_perm {α : Type} {m : Table α} {a : Nat} (x : α) (h : Table.Wf m) (ha : a ∉ Table.keys m) :
    (Table.keys (Table.set m a x)).Perm (a :: Table.keys m) := by
  apply (List.perm_ext_iff_of_nodup (Table.keys_nodup (Table.set_wf a x h)) ?_).2
  · intro y
    rw [List.mem_cons, Table.mem_keys_set]
  · rw [List.nodup_cons]
    exact ⟨ha, Table.keys_nodup h⟩

theorem EncWork.first_eq_none {w : EncWork} {is : List Nat} : w.first is = none ↔ is = [] := by
  cases is with
  | nil => simp [EncWork.first]
  | cons i rest =>
    simp only [EncWork.first, reduceCtorEq, iff_false]
    split
    · simp
    · split <;> simp

theorem EncWork.first_mem {w : EncWork} {is : List Nat} {i : Nat} (h : w.first is = some i) : i ∈ is := by
  induction is generalizing i with
  | nil => simp [EncWork.first] at h
  | cons j rest ih =>
    simp only [EncWork.first] at h
    split at h
    · simp_all
    · rename_i k hk
      split at h
      · simp_all
      · obtain rfl : k = i := by simpa using h
        exact List.mem_cons_of_mem _ (ih hk)

theorem EncWork.before_trans {w : EncWork} {i j k : Nat} (h1 : w.Before i j) (h2 : w.Before j k) : w.Before i k := by
  unfold EncWork.Before at *
  omega

theorem EncWork.before_total {w : EncWork} {i j : Nat} (hne : i ≠ j) (h : ¬ w.Before i j) : w.Before j i := by
  unfold EncWork.Before at *
  omega

/-- The member found comes before every other one (R120, R122). -/
theorem EncWork.first_before {w : EncWork} {is : List Nat} {i : Nat} (h : w.first is = some i) :
    ∀ j ∈ is, j ≠ i → w.Before i j := by
  induction is generalizing i with
  | nil => simp
  | cons k rest ih =>
    simp only [EncWork.first] at h
    intro j hj hne
    split at h
    · rename_i hn
      rw [EncWork.first_eq_none] at hn
      simp_all
    · rename_i m hm
      split at h
      · rename_i hb
        obtain rfl : k = i := by simpa using h
        rcases List.mem_cons.1 hj with rfl | hj'
        · exact absurd rfl hne
        · by_cases hjm : j = m
          · exact hjm ▸ hb
          · exact EncWork.before_trans hb (ih hm j hj' hjm)
      · rename_i hb
        obtain rfl : m = i := by simpa using h
        rcases List.mem_cons.1 hj with rfl | hj'
        · exact EncWork.before_total hne hb
        · exact ih hm j hj' hne

/-- What `PQ.EXTRACTMIN` does when there is a member (R122). -/
theorem EncWork.pqExtractMin_some {w : EncWork} (h : w.members ≠ []) :
    ∃ i, i ∈ w.members ∧ (∀ j ∈ w.members, j ≠ i → w.Before i j) ∧
      w.pqExtractMin = some (i, { w with inq := Table.erase w.inq i }) := by
  cases hf : w.first w.members with
  | none => exact absurd (EncWork.first_eq_none.1 hf) h
  | some i => exact ⟨i, EncWork.first_mem hf, EncWork.first_before hf, by simp [EncWork.pqExtractMin, hf]⟩

/-- What one merge does when the collection has two members (R123): the two that come first are taken out, the first one the
left child, the second one the right child of a new node, which is put in. -/
theorem EncWork.merge_spec {w : EncWork} (hwf : Table.Wf w.inq) (h : 1 < w.inq.length) :
    ∃ a b, a ∈ w.members ∧ b ∈ w.members ∧ b ≠ a ∧
      (∀ j ∈ w.members, j ≠ a → w.Before a j) ∧ (∀ j ∈ w.members, j ≠ a → j ≠ b → w.Before b j) ∧
      w.merge = { w with
        node := Table.set w.node (256 + w.nint) (.internal (some a) (some b) (w.weight a + w.weight b))
        inq := Table.set (Table.erase (Table.erase w.inq a) b) (256 + w.nint) ()
        nint := w.nint + 1 } := by
  have hlen : w.members.length = w.inq.length := Table.keys_length _
  obtain ⟨a, ha, hamin, hax⟩ := EncWork.pqExtractMin_some (w := w) (by intro e; rw [e] at hlen; simp at hlen; omega)
  have hperm := Table.keys_erase_perm hwf ha
  have hlen1 : (Table.keys (Table.erase w.inq a)).length + 1 = w.inq.length := by
    have := hperm.length_eq
    rw [Table.keys_length] at this
    simp at this
    omega
  obtain ⟨b, hb, hbmin, hbx⟩ := EncWork.pqExtractMin_some (w := { w with inq := Table.erase w.inq a })
    (by intro e; unfold EncWork.members at e; simp only at e; rw [e] at hlen1; simp at hlen1; omega)
  have hb' : b ≠ a ∧ b ∈ w.members := by
    have := (Table.mem_keys_erase w.inq a b).1 hb
    exact this
  refine ⟨a, b, ha, hb'.2, hb'.1, hamin, ?_, ?_⟩
  · intro j hj hja hjb
    have : j ∈ (EncWork.members { w with inq := Table.erase w.inq a }) := (Table.mem_keys_erase w.inq a j).2 ⟨hja, hj⟩
    exact hbmin j this hjb
  · unfold EncWork.merge
    rw [hax]
    simp only [hbx]
    rfl

/-! The forest that the merges keep. -/

theorem CodeTree.symbols_ne_nil (t : CodeTree) : t.symbols ≠ [] := by
  induction t with
  | leaf s => simp [CodeTree.symbols]
  | node l r ihl ihr => simp [CodeTree.symbols, ihl]

/-- A new entry at an index that held nothing leaves every tree of the arena in place. -/
theorem CodeTree.at_set {arena : Table EncNode} {t : CodeTree} {i k : Nat} {x : EncNode} (hk : Table.get arena k = none)
    (h : t.At arena i) : t.At (Table.set arena k x) i := by
  induction t generalizing i with
  | leaf s =>
    obtain ⟨w, hw⟩ := h
    have : k ≠ i := by rintro rfl; simp [hk] at hw
    exact ⟨w, by rw [Table.get_set_other _ _ this, hw]⟩
  | node l r ihl ihr =>
    obtain ⟨a, b, w, hw, hl, hr⟩ := h
    have : k ≠ i := by rintro rfl; simp [hk] at hw
    exact ⟨a, b, w, by rw [Table.get_set_other _ _ this, hw], ihl hl, ihr hr⟩

theorem CodeTree.weighedAt_set {f : Table Nat} {arena : Table EncNode} {t : CodeTree} {i k : Nat} {x : EncNode}
    (hk : Table.get arena k = none) (h : t.WeighedAt f arena i) : t.WeighedAt f (Table.set arena k x) i := by
  induction t generalizing i with
  | leaf s =>
    have h' : Table.get arena i = some (.leaf s (f.count s.toNat)) := h
    have : k ≠ i := by rintro rfl; simp [hk] at h'
    exact (Table.get_set_other _ _ this).trans h'
  | node l r ihl ihr =>
    obtain ⟨a, b, hw, hl, hr⟩ := h
    have : k ≠ i := by rintro rfl; simp [hk] at hw
    exact ⟨a, b, by rw [Table.get_set_other _ _ this, hw], ihl hl, ihr hr⟩

theorem CodeTree.WeighedAt.at {f : Table Nat} {arena : Table EncNode} {t : CodeTree} {i : Nat} (h : t.WeighedAt f arena i) :
    t.At arena i := by
  induction t generalizing i with
  | leaf s => exact ⟨_, h⟩
  | node l r ihl ihr =>
    obtain ⟨a, b, hw, hl, hr⟩ := h
    exact ⟨a, b, _, hw, ihl hl, ihr hr⟩

theorem CodeTree.WeighedAt.weight {f : Table Nat} {w : EncWork} {t : CodeTree} {i : Nat} (h : t.WeighedAt f w.node i) :
    w.weight i = t.total f := by
  unfold EncWork.weight
  cases t with
  | leaf s =>
    have h' : Table.get w.node i = some (.leaf s (f.count s.toNat)) := h
    rw [h']
    rfl
  | node l r =>
    obtain ⟨a, b, hw, -, -⟩ := h
    rw [hw]
    rfl

/-- The members are the roots of trees `T` that hold every symbol that occurs, once, with the right weights (R126). -/
structure Forest (f : Table Nat) (w : EncWork) (T : Nat → CodeTree) : Prop where
  inqWf   : Table.Wf w.inq
  trees   : ∀ i ∈ w.members, (T i).WeighedAt f w.node i
  fresh   : ∀ i, 256 + w.nint ≤ i → Table.get w.node i = none ∧ i ∉ w.members
  symbols : (w.members.flatMap (fun i => (T i).symbols)).Perm ((occurring f).map (BitVec.ofNat 8))
  count   : w.members.length + w.nint = (occurring f).length
  last    : 1 ≤ w.nint → 255 + w.nint ∈ w.members

/-- A merge keeps the forest, with one tree fewer. -/
theorem Forest.merge {f : Table Nat} {w : EncWork} {T : Nat → CodeTree} (h : Forest f w T) (hl : 1 < w.inq.length) :
    ∃ T', Forest f w.merge T' ∧ w.merge.members.length + 1 = w.members.length := by
  obtain ⟨a, b, ha, hb, hba, -, -, hm⟩ := EncWork.merge_spec h.inqWf hl
  have hfr := h.fresh (256 + w.nint) (Nat.le_refl _)
  have hia : 256 + w.nint ≠ a := by rintro rfl; exact hfr.2 ha
  have hib : 256 + w.nint ≠ b := by rintro rfl; exact hfr.2 hb
  have hwfa := Table.erase_wf a h.inqWf
  have hwfb := Table.erase_wf b hwfa
  have hbin : b ∈ Table.keys (Table.erase w.inq a) := (Table.mem_keys_erase _ _ _).2 ⟨hba, hb⟩
  have hnotin : 256 + w.nint ∉ Table.keys (Table.erase (Table.erase w.inq a) b) := by
    rw [Table.mem_keys_erase, Table.mem_keys_erase]
    exact fun hc => hfr.2 hc.2.2
  have p1 := Table.keys_erase_perm h.inqWf ha
  have p2 := Table.keys_erase_perm hwfa hbin
  have p3 := Table.keys_set_perm () hwfb hnotin
  have hmem : w.merge.members = Table.keys (Table.set (Table.erase (Table.erase w.inq a) b) (256 + w.nint) ()) := by
    rw [hm]; rfl
  have p12 : w.members.Perm (a :: b :: Table.keys (Table.erase (Table.erase w.inq a) b)) :=
    p1.trans (p2.cons a)
  have hlen : w.merge.members.length + 1 = w.members.length := by
    rw [hmem, p3.length_eq, p12.length_eq]; simp
  refine ⟨fun i => if i = 256 + w.nint then .node (T a) (T b) else T i, ⟨?_, ?_, ?_, ?_, ?_, ?_⟩, hlen⟩
  · rw [hm]; exact Table.set_wf _ _ hwfb
  · intro i hi
    rw [hmem] at hi
    have hnode : w.merge.node = Table.set w.node (256 + w.nint) (.internal (some a) (some b) (w.weight a + w.weight b)) := by
      rw [hm]
    rw [hnode]
    rcases (Table.mem_keys_set _ _ _ _).1 hi with rfl | hi'
    · simp only [if_true]
      refine ⟨a, b, ?_, CodeTree.weighedAt_set hfr.1 (h.trees a ha), CodeTree.weighedAt_set hfr.1 (h.trees b hb)⟩
      rw [Table.get_set_same, (h.trees a ha).weight, (h.trees b hb).weight]
    · have hi2 : i ∈ w.members := by
        rw [Table.mem_keys_erase, Table.mem_keys_erase] at hi'
        exact hi'.2.2
      have hne : i ≠ 256 + w.nint := by rintro rfl; exact hfr.2 hi2
      simp only [hne, if_false]
      exact CodeTree.weighedAt_set hfr.1 (h.trees i hi2)
  · intro i hi
    have hn : w.merge.nint = w.nint + 1 := by rw [hm]
    rw [hn] at hi
    have hne : 256 + w.nint ≠ i := by omega
    have hfi := h.fresh i (by omega)
    constructor
    · rw [hm]; simp only; rw [Table.get_set_other _ _ hne, hfi.1]
    · rw [hmem, Table.mem_keys_set, Table.mem_keys_erase, Table.mem_keys_erase]
      rintro (rfl | ⟨-, -, hc⟩)
      · exact hne rfl
      · exact hfi.2 hc
  · rw [hmem]
    refine (p3.flatMap_right _).trans ?_
    refine List.Perm.trans ?_ h.symbols
    refine List.Perm.trans ?_ (p12.flatMap_right _).symm
    simp only [List.flatMap_cons, if_true, CodeTree.symbols, List.append_assoc]
    refine List.Perm.append_left _ (List.Perm.append_left _ ?_)
    apply List.Perm.of_eq
    apply List.flatMap_congr
    intro i hi
    have : i ≠ 256 + w.nint := by rintro rfl; exact hnotin hi
    simp [this]
  · have hn : w.merge.nint = w.nint + 1 := by rw [hm]
    have := h.count
    omega
  · intro _
    have hn : w.merge.nint = w.nint + 1 := by rw [hm]
    rw [hmem, hn, Table.mem_keys_set]
    left; omega

/-- The fields a merge leaves alone. -/
theorem EncWork.merge_frame (w : EncWork) :
    w.merge.freq = w.freq ∧ w.merge.code = w.code ∧ w.merge.pay = w.pay ∧ w.merge.root = w.root := by
  unfold EncWork.merge EncWork.pqExtractMin
  cases h1 : w.first w.members with
  | none => simp
  | some a =>
    simp only [Option.map_some]
    cases h2 : EncWork.first { w with inq := Table.erase w.inq a } (EncWork.members { w with inq := Table.erase w.inq a }) with
    | none => simp
    | some b => simp [EncWork.join, EncWork.pqInsert]

theorem EncWork.mergeAll_frame (n : Nat) (w : EncWork) :
    (EncWork.mergeAll n w).freq = w.freq ∧ (EncWork.mergeAll n w).code = w.code ∧
      (EncWork.mergeAll n w).pay = w.pay ∧ (EncWork.mergeAll n w).root = w.root := by
  induction n generalizing w with
  | zero => simp [EncWork.mergeAll]
  | succ n ih =>
    unfold EncWork.mergeAll
    split
    · have h1 := ih w.merge
      have h2 := EncWork.merge_frame w
      exact ⟨h1.1.trans h2.1, h1.2.1.trans h2.2.1, h1.2.2.1.trans h2.2.2.1, h1.2.2.2.trans h2.2.2.2⟩
    · simp

/-- The merge loop ends with at most one member. -/
theorem Forest.mergeAll {f : Table Nat} {n : Nat} {w : EncWork} {T : Nat → CodeTree} (h : Forest f w T)
    (hn : w.inq.length ≤ n + 1) :
    ∃ T', Forest f (EncWork.mergeAll n w) T' ∧ (EncWork.mergeAll n w).members.length ≤ 1 ∧
      (1 ≤ w.members.length → 1 ≤ (EncWork.mergeAll n w).members.length) := by
  induction n generalizing w T with
  | zero =>
    refine ⟨T, h, ?_, id⟩
    have := Table.keys_length w.inq
    simp only [EncWork.mergeAll, EncWork.members]
    omega
  | succ n ih =>
    have hk := Table.keys_length w.inq
    unfold EncWork.mergeAll
    split
    · rename_i hl
      obtain ⟨T1, h1, hlen⟩ := h.merge hl
      have hk1 := Table.keys_length w.merge.inq
      unfold EncWork.members at hlen
      obtain ⟨T2, h2, h3, h4⟩ := ih h1 (by omega)
      exact ⟨T2, h2, h3, fun _ => h4 (by unfold EncWork.members; omega)⟩
    · rename_i hl
      refine ⟨T, h, ?_, id⟩
      unfold EncWork.members
      omega

/-! The leaves. -/

/-- The leaf loop up to symbol `n` (R123). -/
theorem EncWork.addLeaves_upto (w : EncWork) (hnode : w.node = []) (hinq : w.inq = []) (n : Nat) (hn : n ≤ 256) :
    let v := (List.range n).foldl EncWork.addLeaf w
    v.freq = w.freq ∧ v.nint = w.nint ∧ v.root = w.root ∧ v.code = w.code ∧ v.pay = w.pay ∧
      (∀ i, Table.get v.node i =
        if i < n ∧ 0 < w.freq.count i then some (.leaf (BitVec.ofNat 8 i) (w.freq.count i)) else none) ∧
      v.members = (List.range n).filter (fun s => 0 < w.freq.count s) := by
  induction n with
  | zero => simp [hnode, hinq, EncWork.members, Table.keys]
  | succ n ih =>
    obtain ⟨h1, h2, h3, h4, h5, h6, h7⟩ := ih (by omega)
    simp only [List.range_succ, List.foldl_append, List.foldl_cons, List.foldl_nil]
    set v := (List.range n).foldl EncWork.addLeaf w with hv
    unfold EncWork.addLeaf
    simp only [h1]
    by_cases hc : 0 < w.freq.count n
    · rw [if_pos hc]
      refine ⟨rfl, h2, h3, h4, h5, ?_, ?_⟩
      · intro i
        simp only [EncWork.pqInsert]
        rw [Table.get_set]
        by_cases hi : n = i
        · subst hi; simp [hc]
        · rw [if_neg hi, h6]
          have : i < n + 1 ↔ i < n := by omega
          simp [this]
      · have hk : Table.keys v.inq = (List.range n).filter (fun s => 0 < w.freq.count s) := h7
        simp only [EncWork.pqInsert, EncWork.members]
        have hlt : ∀ e ∈ v.inq, e.1 < n := by
          intro e he
          have : e.1 ∈ Table.keys v.inq := List.mem_map_of_mem he
          rw [hk, List.mem_filter, List.mem_range] at this
          exact this.1
        have key : ∀ (m : Table Unit), (∀ e ∈ m, e.1 < n) → Table.set m n () = m ++ [(n, ())] := by
          intro m hm
          induction m with
          | nil => rfl
          | cons e m ihm =>
            obtain ⟨k, x⟩ := e
            have hkn : k < n := hm (k, x) (by simp)
            have a1 : ¬ n < k := by omega
            have a2 : n ≠ k := by omega
            rw [Table.set_cons, if_neg a1, if_neg a2, ihm (fun e he => hm e (by simp [he]))]
            rfl
        rw [key v.inq hlt, List.filter_append]
        have : Table.keys (v.inq ++ [(n, ())]) = Table.keys v.inq ++ [n] := by simp [Table.keys]
        rw [this, hk]
        simp [hc]
    · rw [if_neg hc]
      refine ⟨h1, h2, h3, h4, h5, ?_, ?_⟩
      · intro i
        rw [h6]
        by_cases hi : i = n
        · subst hi; simp [hc]
        · have : i < n + 1 ↔ i < n := by omega
          simp [this]
      · rw [h7, List.filter_append]
        simp [hc]

/-- After the leaf loop the members are lone leaves, one for each symbol that occurs. -/
theorem EncWork.addLeaves_forest (w : EncWork) (hnode : w.node = []) (hinq : w.inq = []) (hnint : w.nint = 0) :
    Forest w.freq w.addLeaves (fun i => .leaf (BitVec.ofNat 8 i)) ∧ w.addLeaves.members = occurring w.freq ∧
      w.addLeaves.freq = w.freq ∧ w.addLeaves.code = w.code ∧ w.addLeaves.pay = w.pay ∧ w.addLeaves.root = w.root := by
  obtain ⟨h1, h2, h3, h4, h5, h6, h7⟩ := EncWork.addLeaves_upto w hnode hinq 256 (Nat.le_refl _)
  have hmem : w.addLeaves.members = occurring w.freq := h7
  refine ⟨⟨?_, ?_, ?_, ?_, ?_, ?_⟩, hmem, h1, h4, h5, h3⟩
  · show (Table.keys w.addLeaves.inq).Pairwise (· < ·)
    have : Table.keys w.addLeaves.inq = occurring w.freq := h7
    rw [this]
    exact List.Pairwise.sublist List.filter_sublist List.pairwise_lt_range
  · intro i hi
    rw [hmem, occurring, List.mem_filter, List.mem_range] at hi
    have hi2 : 0 < w.freq.count i := by simpa using hi.2
    have hg : Table.get w.addLeaves.node i = some (.leaf (BitVec.ofNat 8 i) (w.freq.count i)) := by
      have := h6 i
      rw [if_pos ⟨hi.1, hi2⟩] at this
      exact this
    have he : (BitVec.ofNat 8 i).toNat = i := by rw [BitVec.toNat_ofNat, Nat.mod_eq_of_lt hi.1]
    show Table.get w.addLeaves.node i = some (.leaf (BitVec.ofNat 8 i) (w.freq.count (BitVec.ofNat 8 i).toNat))
    rw [hg, he]
  · intro i hi
    have hi' : 256 ≤ i := by omega
    constructor
    · have := h6 i
      rw [if_neg (by omega)] at this
      exact this
    · rw [hmem, occurring, List.mem_filter, List.mem_range]
      omega
  · rw [hmem]
    apply List.Perm.of_eq
    induction occurring w.freq with
    | nil => rfl
    | cons a l ih => simpa [CodeTree.symbols] using ih
  · rw [hmem]
    have : w.addLeaves.nint = w.nint := h2
    omega
  · intro h
    have : w.addLeaves.nint = w.nint := h2
    omega

theorem distinctSymbols_eq (f : Table Nat) : distinctSymbols f = (occurring f).length := rfl

theorem occurring_length_le (f : Table Nat) : (occurring f).length ≤ 256 := by
  have := List.length_filter_le (fun s => decide (0 < f.count s)) (List.range 256)
  simpa [occurring] using this

/-- What `TB.BUILD`'s loops leave, from an empty arena (R123, R126). -/
theorem EncWork.built_spec (w : EncWork) (hnode : w.node = []) (hinq : w.inq = []) (hnint : w.nint = 0)
    (hk : 1 ≤ distinctSymbols w.freq) :
    ∃ r t, w.built.members = [r] ∧ CodeTree.At w.built.node t r ∧
      t.symbols.Perm ((occurring w.freq).map (BitVec.ofNat 8)) ∧ w.built.weight r = t.total w.freq ∧
      w.built.nint + 1 = distinctSymbols w.freq ∧ (1 ≤ w.built.nint → r = 255 + w.built.nint) ∧
      w.built.freq = w.freq ∧ w.built.code = w.code ∧ w.built.pay = w.pay ∧ w.built.root = w.root ∧
      t.WeighedAt w.freq w.built.node r := by
  obtain ⟨hf, hm, g1, g2, g3, g4⟩ := EncWork.addLeaves_forest w hnode hinq hnint
  obtain ⟨T, hT, hle, hge⟩ := hf.mergeAll (n := w.addLeaves.inq.length) (by omega)
  have hfr := EncWork.mergeAll_frame w.addLeaves.inq.length w.addLeaves
  rw [distinctSymbols_eq] at hk ⊢
  have hone := hge (by rw [hm]; exact hk)
  have hlen : w.built.members.length = 1 := by unfold EncWork.built; omega
  obtain ⟨r, hr⟩ := List.length_eq_one_iff.1 hlen
  have hrm : r ∈ w.built.members := by rw [hr]; simp
  have hcount := hT.count
  have hsym := hT.symbols
  change (w.built.members.flatMap _).Perm _ at hsym
  change w.built.members.length + w.built.nint = _ at hcount
  rw [hr] at hsym
  refine ⟨r, T r, hr, (hT.trees r hrm).at, ?_, (hT.trees r hrm).weight, by omega, ?_, hfr.1.trans g1, hfr.2.1.trans g2,
    hfr.2.2.1.trans g3, hfr.2.2.2.trans g4, hT.trees r hrm⟩
  · simpa using hsym
  · intro hn
    have := hT.last hn
    change 255 + w.built.nint ∈ w.built.members at this
    rw [hr, List.mem_singleton] at this
    exact this.symm

/-! Codes. -/

theorem CodeTree.paths_symbols (t : CodeTree) : t.paths.map Prod.fst = t.symbols := by
  induction t with
  | leaf s => rfl
  | node l r ihl ihr => simp [CodeTree.paths, CodeTree.symbols, ← ihl, ← ihr, Function.comp_def]

theorem CodeTree.codes_symbols (t : CodeTree) : t.codes.map Prod.fst = t.symbols := by
  cases t with
  | leaf s => rfl
  | node l r => exact CodeTree.paths_symbols _

theorem CodeTree.symbols_length_pos (t : CodeTree) : 1 ≤ t.symbols.length :=
  List.length_pos_iff.2 t.symbols_ne_nil

/-- A leaf's depth is less than the number of leaves (R139). -/
theorem CodeTree.path_length_lt (t : CodeTree) : ∀ e ∈ t.paths, e.2.length < t.symbols.length := by
  induction t with
  | leaf s => simp [CodeTree.paths, CodeTree.symbols]
  | node l r ihl ihr =>
    have hl := l.symbols_length_pos
    have hr := r.symbols_length_pos
    intro e he
    simp only [CodeTree.paths, List.mem_append, List.mem_map] at he
    simp only [CodeTree.symbols, List.length_append]
    rcases he with ⟨e', he', rfl⟩ | ⟨e', he', rfl⟩
    · have := ihl e' he'; simp; omega
    · have := ihr e' he'; simp; omega

/-- No code is empty (R138 (b)), and none is longer than the number of leaves, or 1 (R139). -/
theorem CodeTree.codes_length (t : CodeTree) :
    ∀ e ∈ t.codes, 1 ≤ e.2.length ∧ (e.2.length = 1 ∨ e.2.length < t.symbols.length) := by
  cases t with
  | leaf s => simp [CodeTree.codes]
  | node l r =>
    intro e he
    refine ⟨?_, Or.inr (CodeTree.path_length_lt _ e he)⟩
    simp only [CodeTree.codes, CodeTree.paths, List.mem_append, List.mem_map] at he
    rcases he with ⟨e', -, rfl⟩ | ⟨e', -, rfl⟩ <;> simp

theorem CodeTree.paths_prefixFree (t : CodeTree) : PrefixFree (t.paths.map Prod.snd) := by
  induction t with
  | leaf s => simp [CodeTree.paths, PrefixFree]
  | node l r ihl ihr =>
    simp only [PrefixFree, CodeTree.paths, List.map_append, List.map_map, List.pairwise_append]
    refine ⟨?_, ?_, ?_⟩
    · rw [PrefixFree, List.pairwise_map] at ihl
      rw [List.pairwise_map]
      exact ihl.imp (by simp)
    · rw [PrefixFree, List.pairwise_map] at ihr
      rw [List.pairwise_map]
      exact ihr.imp (by simp)
    · simp only [List.mem_map, Function.comp_apply]
      rintro a ⟨x, -, rfl⟩ b ⟨y, -, rfl⟩
      simp

/-- The codes of a tree are prefix-free (R138 (c)). -/
theorem CodeTree.codes_prefixFree (t : CodeTree) : PrefixFree (t.codes.map Prod.snd) := by
  cases t with
  | leaf s => simp [CodeTree.codes, PrefixFree]
  | node l r => exact CodeTree.paths_prefixFree _

/-- Write a list of codes into a code table, first one first. -/
def writeCodes (c : Table Bits) (es : List (Byte × Bits)) : Table Bits :=
  es.foldl (fun c e => Table.set c e.1.toNat e.2) c

/-- The number of visits a tree takes. -/
def CodeTree.visits (t : CodeTree) : Nat :=
  match t with
  | .leaf _ => 1
  | .node l r => 1 + l.visits + r.visits

theorem CodeTree.visits_eq (t : CodeTree) : t.visits + 1 = 2 * t.symbols.length := by
  induction t with
  | leaf s => rfl
  | node l r ihl ihr => simp [CodeTree.visits, CodeTree.symbols]; omega

/-- The traversal of a tree's arena records its paths behind the prefix it is reached with (R135). -/
theorem assignLoop_tree {arena : Table EncNode} (t : CodeTree) (i : Nat) (p : Bits) (fuel : Nat) (stk : List (Nat × Bits))
    (c : Table Bits) (h : t.At arena i) :
    assignLoop arena (t.visits + fuel) ((i, p) :: stk) c =
      assignLoop arena fuel stk (writeCodes c (t.paths.map (fun e => (e.1, p ++ e.2)))) := by
  induction t generalizing i p fuel stk c with
  | leaf s =>
    obtain ⟨w, hw⟩ := h
    rw [CodeTree.visits, Nat.add_comm, assignLoop, hw]
    simp [writeCodes, CodeTree.paths]
  | node l r ihl ihr =>
    obtain ⟨a, b, w, hw, hl, hr⟩ := h
    have : CodeTree.visits (.node l r) + fuel = (l.visits + (r.visits + fuel)) + 1 := by
      simp [CodeTree.visits]; omega
    rw [this, assignLoop, hw]
    simp only
    rw [ihl _ _ _ _ _ hl, ihr _ _ _ _ _ hr]
    simp [writeCodes, CodeTree.paths, List.foldl_append, List.foldl_map]

theorem le_visitBound : 512 ≤ visitBound :=
  Nat.pow_le_pow_right (n := 2) (i := 9) (j := Config.nodeCap + 1) (by omega) (by decide)

/-- `CA.ASSIGN` on an arena that holds a tree of at most 256 leaves (R135, R136). -/
theorem assignCodes_tree {arena : Table EncNode} (t : CodeTree) (r : Nat) (c : Table Bits) (h : t.At arena r)
    (hl : t.symbols.length ≤ 256) : assignCodes arena (some r) c = .ok (writeCodes c t.codes) := by
  cases t with
  | leaf s =>
    obtain ⟨w, hw⟩ := h
    simp [assignCodes, hw, writeCodes, CodeTree.codes]
  | node a b =>
    have h' := h
    obtain ⟨x, y, w, hw, -, -⟩ := h
    simp only [assignCodes, hw]
    have hv := CodeTree.visits_eq (.node a b)
    have : ∃ k, visitBound = (CodeTree.node a b).visits + k := by
      refine ⟨visitBound - (CodeTree.node a b).visits, ?_⟩
      have : 512 ≤ visitBound := le_visitBound
      omega
    obtain ⟨k, hk⟩ := this
    rw [hk, assignLoop_tree _ _ _ _ _ _ h']
    simp only [List.nil_append, CodeTree.codes]
    cases k <;> simp [assignLoop]

theorem get_writeCodes_of_not_mem {c : Table Bits} {es : List (Byte × Bits)} {i : Nat}
    (h : ∀ e ∈ es, e.1.toNat ≠ i) : Table.get (writeCodes c es) i = Table.get c i := by
  induction es generalizing c with
  | nil => rfl
  | cons e es ih =>
    rw [writeCodes, List.foldl_cons, ← writeCodes, ih (fun e' he' => h e' (by simp [he']))]
    exact Table.get_set_other _ _ (h e (by simp))

/-- With every symbol once, the table written holds exactly the codes listed. -/
theorem get_writeCodes {c : Table Bits} {es : List (Byte × Bits)} (h : (es.map Prod.fst).Nodup) (e : Byte × Bits)
    (he : e ∈ es) : Table.get (writeCodes c es) e.1.toNat = some e.2 := by
  induction es generalizing c with
  | nil => simp at he
  | cons d es ih =>
    simp only [List.map_cons, List.nodup_cons] at h
    rw [writeCodes, List.foldl_cons, ← writeCodes]
    rcases List.mem_cons.1 he with rfl | he'
    · rw [get_writeCodes_of_not_mem, Table.get_set_same]
      intro e' he' hc
      have : e'.1 = e.1 := BitVec.eq_of_toNat_eq hc
      exact h.1 (this ▸ List.mem_map_of_mem he')
    · exact ih h.2 he'

theorem writeCodes_wf {c : Table Bits} (es : List (Byte × Bits)) (h : Table.Wf c) : Table.Wf (writeCodes c es) := by
  induction es generalizing c with
  | nil => exact h
  | cons e es ih => exact ih (Table.set_wf _ _ h)

end Sys2Proof.Machine
end

