-- ==== Sys2Proof/Laws/Phases.lean ====
section
/-! SUPPORT. The laws of the encoder's phases, one by one: counting (41_frequency_table.md R110), the code table (43_code_assigner.md
R135, R138), packing (44_bit_writer_reader.md R148). -/

namespace Sys2Proof.Machine

/-! Frames. -/

theorem Kept.refl (u : UnitId) (s : State) : Kept u s s := by
  cases u <;> exact ⟨rfl, rfl, rfl, rfl, ⟨rfl, rfl⟩, rfl, rfl, fun _ => rfl⟩

theorem Kept.trans {u : UnitId} {s t r : State} (h1 : Kept u s t) (h2 : Kept u t r) : Kept u s r := by
  refine ⟨h2.params.trans h1.params, h2.agenda.trans h1.agenda, h2.ret.trans h1.ret, h2.result.trans h1.result, ?_, h2.inLen.trans h1.inLen, h2.ill.trans h1.ill,
    fun a => (h2.inByte a).trans (h1.inByte a)⟩
  have a := h1.other
  have b := h2.other
  cases u <;> exact ⟨b.1.trans a.1, b.2.trans a.2⟩

theorem kept_enc_of {s t : State} (h1 : t.params = s.params) (h2 : t.agenda = s.agenda) (h3 : t.dec = s.dec)
    (h4 : t.decWork = s.decWork) (h5 : t.enc.inLen = s.enc.inLen) (h6 : t.enc.ill = s.enc.ill)
    (h7 : t.enc.inBuf = s.enc.inBuf) (h8 : t.ret = s.ret) (h9 : t.result = s.result) : Kept .enc s t :=
  ⟨h1, h2, h8, h9, ⟨h3, h4⟩, h5, h6, fun a => by show t.enc.inBuf.read a = s.enc.inBuf.read a; rw [h7]⟩

theorem kept_dec_of {s t : State} (h1 : t.params = s.params) (h2 : t.agenda = s.agenda) (h3 : t.enc = s.enc)
    (h4 : t.encWork = s.encWork) (h5 : t.dec.inLen = s.dec.inLen) (h6 : t.dec.ill = s.dec.ill)
    (h7 : t.dec.inBuf = s.dec.inBuf) (h8 : t.ret = s.ret) (h9 : t.result = s.result) : Kept .dec s t :=
  ⟨h1, h2, h8, h9, ⟨h3, h4⟩, h5, h6, fun a => by show t.dec.inBuf.read a = s.dec.inBuf.read a; rw [h7]⟩

/-! Everything a phase does, phase by phase: the next state's unit, and the frame. -/

/-- `FT.COUNT` without overflow (R110). -/
theorem execFtCount_some {s : State} {f : Table Nat} (h : countBytes s.params.cntW s.encWork.freq (s.input .enc) = some f) :
    ∃ t, execFtCount s = .next t ∧ Kept .enc s t ∧
      t.enc = { s.enc with
        phase := if distinctSymbols f = 0 then phaseSerialize else phaseBuild
        diag := { s.enc.diag with nsym := BitVec.ofNat 9 (distinctSymbols f), symcnt := s.enc.inLen } } ∧
      t.encWork = { s.encWork with freq := f } := by
  rw [execFtCount, h]
  exact ⟨_, rfl, kept_enc_of rfl rfl rfl rfl rfl rfl rfl rfl rfl, rfl, rfl⟩

/-- `TB.BUILD` on a frequency table that is not empty (R123). -/
theorem execTbBuild_some {s : State} {r : Nat} (h : s.enc.diag.nsym ≠ 0) (hr : s.encWork.built.members = [r]) :
    ∃ t, execTbBuild s = .next t ∧ Kept .enc s t ∧ t.enc = { s.enc with phase := phaseAssign } ∧
      t.encWork = { s.encWork.built with root := some r } := by
  rw [execTbBuild, if_neg h]
  generalize s.encWork.built = w at hr ⊢
  simp only [hr]
  exact ⟨_, rfl, kept_enc_of rfl rfl rfl rfl rfl rfl rfl rfl rfl, rfl, rfl⟩

/-- `CA.ASSIGN` on a tree (R135). -/
theorem execCaAssign_ok {s : State} {c : Table Bits} (h : assignCodes s.encWork.node s.encWork.root s.encWork.code = .ok c) :
    ∃ t, execCaAssign s = .next t ∧ Kept .enc s t ∧ t.enc = { s.enc with phase := phasePack } ∧
      t.encWork = { s.encWork with code := c } := by
  rw [execCaAssign, h]
  exact ⟨_, rfl, kept_enc_of rfl rfl rfl rfl rfl rfl rfl rfl rfl, rfl, rfl⟩

/-- `BW.PACK` (R148). -/
theorem execBwPack_next (s : State) :
    ∃ t, execBwPack s = .next t ∧ Kept .enc s t ∧
      t.enc = { s.enc with
        phase := phaseSerialize
        diag := { s.enc.diag with bitcnt := (packInput s.encWork.code s.bitWriter (s.input .enc)).bitcnt } } ∧
      t.encWork = { s.encWork with pay := (packInput s.encWork.code s.bitWriter (s.input .enc)).pay } :=
  ⟨_, rfl, kept_enc_of rfl rfl rfl rfl rfl rfl rfl rfl rfl, rfl, rfl⟩

/-- `ENC.SERIALIZE` of a container that fits (R161). -/
theorem execEncSerialize_fits {s : State} (h : s.container.length ≤ s.params.encOutCap.toNat) :
    ∃ t, execEncSerialize s = .next t ∧ Kept .enc s t ∧
      t.enc = s.enc.finished (BitVec.ofNat 32 s.container.length) s.enc.diag (s.enc.outBuf.writeAll 0 s.container) ∧
      t.encWork = s.encWork := by
  rw [execEncSerialize, if_neg (by omega)]
  exact ⟨_, rfl, kept_enc_of rfl rfl rfl rfl rfl rfl rfl rfl rfl, rfl, rfl⟩

/-- `ENC.SERIALIZE` of a container that does not fit (R161, R231). -/
theorem execEncSerialize_tooLong {s : State} (h : s.params.encOutCap.toNat < s.container.length) :
    execEncSerialize s = .next (s.raise .enc .bufferBound) := by rw [execEncSerialize, if_pos h]

/-- `DEC.PARSE` of a container with `N ≥ 1` (R176). -/
theorem execDecParse_some {s : State} {h : Header} (hp : parseHeader (s.inByte .dec) s.dec.inLen.toNat = some h) (hn : h.n ≠ 0) :
    ∃ t, execDecParse s = .next t ∧ Kept .dec s t ∧
      t.dec = { s.dec with
        phase := phaseRebuild
        diag := { s.dec.diag with nsym := BitVec.ofNat 9 h.k, symcnt := BitVec.ofNat 32 h.n } } ∧
      t.decWork = s.decWork.withHeader h s.dec.inLen.toNat := by
  rw [execDecParse, hp]
  simp only [hn, if_false]
  exact ⟨_, rfl, kept_dec_of rfl rfl rfl rfl rfl rfl rfl rfl rfl, rfl, rfl⟩

/-- `DEC.PARSE` of a container with `N = 0` (R177). -/
theorem execDecParse_zero {s : State} {h : Header} (hp : parseHeader (s.inByte .dec) s.dec.inLen.toNat = some h) (hn : h.n = 0) :
    ∃ t, execDecParse s = .next t ∧ Kept .dec s t ∧
      t.dec = s.dec.finished 0 { nsym := BitVec.ofNat 9 h.k, symcnt := 0, bitcnt := 0 } s.dec.outBuf ∧
      t.decWork = s.decWork.withHeader h s.dec.inLen.toNat := by
  rw [execDecParse, hp]
  simp only [hn, if_true]
  exact ⟨_, rfl, kept_dec_of rfl rfl rfl rfl rfl rfl rfl rfl rfl, rfl, rfl⟩

/-- `TR.REBUILD` of a code table (R179). -/
theorem execTrRebuild_some {s : State} {t' : Trie} {seen : Table Unit} (h : s.decWork.rebuild = some (t', seen)) :
    ∃ t, execTrRebuild s = .next t ∧ Kept .dec s t ∧ t.dec = { s.dec with phase := phaseWalk } ∧
      t.decWork = { s.decWork with trie := t', seen := seen } := by
  rw [execTrRebuild, h]
  exact ⟨_, rfl, kept_dec_of rfl rfl rfl rfl rfl rfl rfl rfl rfl, rfl, rfl⟩

/-- `TW.WALK` to the end (R180). -/
theorem execTwWalk_ok {s : State} {w : WalkState} (hc : s.decWork.n ≤ s.params.decOutCap) (h : s.walk = .ok w) :
    ∃ t, execTwWalk s = .next t ∧ Kept .dec s t ∧
      t.dec = s.dec.finished s.decWork.n { s.dec.diag with bitcnt := BitVec.ofNat 40 w.bitpos } w.out ∧
      t.decWork = { s.decWork with
        cur := w.cur, emitted := BitVec.ofNat 32 w.emitted, bitpos := BitVec.ofNat 40 w.bitpos } := by
  rw [execTwWalk, if_neg (by simpa [BitVec.not_lt] using hc), h]
  exact ⟨_, rfl, kept_dec_of rfl rfl rfl rfl rfl rfl rfl rfl rfl, rfl, rfl⟩

/-! `FT.COUNT`. -/

theorem occurrences_cons (b : Byte) (x : List Byte) (s : Nat) :
    occurrences (b :: x) s = (if b.toNat = s then 1 else 0) + occurrences x s := by
  unfold occurrences
  rw [List.countP_cons]
  by_cases h : b.toNat = s <;> simp [h, Nat.add_comm]

theorem Table.count_set (f : Table Nat) (i j n : Nat) : Table.count (Table.set f i n) j = if i = j then n else Table.count f j := by
  unfold Table.count
  rw [Table.get_set]
  by_cases h : i = j <;> simp [h]

/-- What the counting loop leaves (R110). -/
theorem countBytes_some {w : Nat} {f g : Table Nat} {x : List Byte} (h : countBytes w f x = some g) (s : Nat) :
    g.count s = f.count s + occurrences x s := by
  induction x generalizing f with
  | nil =>
    simp only [countBytes, Option.some.injEq] at h
    subst h
    simp [occurrences]
  | cons b x ih =>
    simp only [countBytes] at h
    split at h
    · simp at h
    · rw [ih h, Table.count_set, occurrences_cons]
      split
      · rename_i e; rw [e]; omega
      · omega

/-- When the counting loop overflows (R110, R112). -/
theorem countBytes_none {w : Nat} {f : Table Nat} {x : List Byte} (hf : ∀ s, f.count s ≤ 2 ^ w - 1) :
    countBytes w f x = none ↔ ∃ s, 2 ^ w - 1 < f.count s + occurrences x s := by
  induction x generalizing f with
  | nil =>
    simp only [countBytes, reduceCtorEq, false_iff, not_exists, Nat.not_lt, occurrences, List.countP_nil, Nat.add_zero]
    exact hf
  | cons b x ih =>
    simp only [countBytes]
    split
    · rename_i he
      simp only [true_iff]
      refine ⟨b.toNat, ?_⟩
      rw [occurrences_cons, if_pos rfl]
      omega
    · rename_i he
      rw [ih]
      · apply exists_congr
        intro s
        rw [Table.count_set, occurrences_cons]
        split
        · rename_i e; rw [e]; omega
        · omega
      · intro s
        rw [Table.count_set]
        split
        · have := hf b.toNat; omega
        · exact hf s

theorem countBytes_wf {w : Nat} {f g : Table Nat} {x : List Byte} (h : countBytes w f x = some g) (hf : Table.Wf f) :
    Table.Wf g := by
  induction x generalizing f with
  | nil => simp only [countBytes, Option.some.injEq] at h; exact h ▸ hf
  | cons b x ih =>
    simp only [countBytes] at h
    split at h
    · simp at h
    · exact ih h (Table.set_wf _ _ hf)

theorem Table.count_nil (s : Nat) : Table.count [] s = 0 := rfl

theorem occurrences_le_length (x : List Byte) (s : Nat) : occurrences x s ≤ x.length := List.countP_le_length

/-- The counters add up to the number of bytes (R111). -/
theorem occurrences_sum (x : List Byte) : ((List.range 256).map (occurrences x)).sum = x.length := by
  induction x with
  | nil =>
    have h0 : ∀ l : List Nat, (l.map (occurrences [])).sum = 0 := by
      intro l
      induction l with
      | nil => rfl
      | cons s l ih => rw [List.map_cons, List.sum_cons, ih]; rfl
    exact h0 _
  | cons b x ih =>
    have hf : occurrences (b :: x) = fun s => (if b.toNat = s then 1 else 0) + occurrences x s := by
      funext s; exact occurrences_cons b x s
    have hone : ((List.range 256).map (fun s => if b.toNat = s then 1 else 0)).sum = 1 := by
      have hb := b.isLt
      generalize b.toNat = k at hb
      have : ∀ n, ((List.range n).map (fun s => if k = s then 1 else 0)).sum = if k < n then 1 else 0 := by
        intro n
        induction n with
        | zero => simp
        | succ n ihn =>
          rw [List.range_succ, List.map_append, List.sum_append, ihn]
          simp only [List.map_cons, List.map_nil, List.sum_cons, List.sum_nil, Nat.add_zero]
          split <;> split <;> split <;> omega
      rw [this, if_pos hb]
    rw [hf, List.sum_map_add, hone, ih, List.length_cons, Nat.add_comm]

theorem mem_occurring {f : Table Nat} {s : Nat} : s ∈ occurring f ↔ s < 256 ∧ 0 < f.count s := by
  simp [occurring]

/-- A symbol occurs among the counted ones exactly if it is in the input. -/
theorem mem_occurring_of_count {w : Nat} {g : Table Nat} {x : List Byte} (h : countBytes w [] x = some g) (b : Byte) :
    b.toNat ∈ occurring g ↔ b ∈ x := by
  rw [mem_occurring, countBytes_some h, Table.count_nil, Nat.zero_add]
  unfold occurrences
  rw [List.countP_pos_iff]
  have hb := b.isLt
  constructor
  · rintro ⟨-, c, hc, he⟩
    have : c = b := BitVec.eq_of_toNat_eq (by simpa using he)
    exact this ▸ hc
  · intro hm
    exact ⟨by omega, b, hm, by simp⟩

theorem distinctSymbols_zero {w : Nat} {g : Table Nat} {x : List Byte} (h : countBytes w [] x = some g) :
    distinctSymbols g = 0 ↔ x = [] := by
  rw [distinctSymbols_eq, List.length_eq_zero_iff]
  constructor
  · intro he
    cases x with
    | nil => rfl
    | cons b x =>
      have := (mem_occurring_of_count h b).2 (by simp)
      rw [he] at this
      simp at this
  · rintro rfl
    apply List.eq_nil_iff_forall_not_mem.2
    intro s hs
    have hlt := (mem_occurring.1 hs).1
    have := (mem_occurring_of_count h (BitVec.ofNat 8 s)).1 (by simpa [Nat.mod_eq_of_lt hlt] using hs)
    simp at this

theorem distinctSymbols_le (f : Table Nat) : distinctSymbols f ≤ 256 := by
  rw [distinctSymbols_eq]
  exact occurring_length_le f

/-! The code table (R135, R138). -/

theorem Table.bits_of_get {c : Table Bits} {s : Nat} {bs : Bits} (h : Table.get c s = some bs) : c.bits s = bs := by
  simp [Table.bits, h]

/-- The code table that `CA.ASSIGN` writes from an empty one: the tree's codes, and no other (R138). -/
theorem bits_writeCodes (t : CodeTree) (h : t.symbols.Nodup) :
    (∀ e ∈ t.codes, Table.bits (writeCodes [] t.codes) e.1.toNat = e.2) ∧
      (∀ s, (∀ e ∈ t.codes, e.1.toNat ≠ s) → Table.bits (writeCodes [] t.codes) s = []) := by
  refine ⟨fun e he => Table.bits_of_get (get_writeCodes (by rw [t.codes_symbols]; exact h) e he), fun s hs => ?_⟩
  unfold Table.bits
  rw [get_writeCodes_of_not_mem hs]
  rfl

/-- No code is longer than 255 bits (R139), also where a symbol stands at two leaves. -/
theorem bits_writeCodes_length (t : CodeTree) (h : t.symbols.length ≤ 256) (s : Nat) :
    (Table.bits (writeCodes [] t.codes) s).length ≤ 255 := by
  have key : ∀ (es : List (Byte × Bits)) (c : Table Bits), (∀ e ∈ es, e.2.length ≤ 255) → (c.bits s).length ≤ 255 →
      (Table.bits (writeCodes c es) s).length ≤ 255 := by
    intro es
    induction es with
    | nil => intro c _ hc; exact hc
    | cons e es ih =>
      intro c he hc
      rw [writeCodes, List.foldl_cons, ← writeCodes]
      apply ih _ (fun d hd => he d (by simp [hd]))
      unfold Table.bits
      rw [Table.get_set]
      by_cases hs : e.1.toNat = s
      · simp [hs, he e (by simp)]
      · simpa [hs, Table.bits] using hc
  apply key
  · intro e he
    have := t.codes_length e he
    omega
  · simp [Table.bits]

/-! `BW.PACK`. -/

theorem packInput_eq (code : Table Bits) (w : BitWriter) (x : List Byte) : packInput code w x = w.putCode (inputCodes code x) := by
  induction x generalizing w with
  | nil => rfl
  | cons b x ih =>
    have h1 : packInput code w (b :: x) = packInput code (w.putCode (code.bits b.toNat)) x := rfl
    rw [h1, ih]
    have h2 : inputCodes code (b :: x) = code.bits b.toNat ++ inputCodes code x := rfl
    rw [h2, BitWriter.putCode_append]

theorem inputCodes_length_le (code : Table Bits) (x : List Byte) (h : ∀ s, (code.bits s).length ≤ 255) :
    (inputCodes code x).length ≤ 255 * x.length := by
  induction x with
  | nil => simp [inputCodes]
  | cons b x ih =>
    have h2 : inputCodes code (b :: x) = code.bits b.toNat ++ inputCodes code x := rfl
    have := h b.toNat
    rw [h2, List.length_append, List.length_cons]
    omega

/-- What `BW.PACK` leaves (R148): the packed codes, and their exact number of bits. -/
theorem packInput_holds (code : Table Bits) (x : List Byte) (h : ∀ s, (code.bits s).length ≤ 255) (hx : x.length < 2 ^ 32) :
    (packInput code BitWriter.empty x).Holds (inputCodes code x) := by
  rw [packInput_eq]
  have hl := inputCodes_length_le code x h
  have := BitWriter.putCode_holds (inputCodes code x) BitWriter.empty_holds (by simp; omega)
  simpa using this

theorem inputCodes_length_lt (code : Table Bits) (x : List Byte) (h : ∀ s, (code.bits s).length ≤ 255) (hx : x.length < 2 ^ 32) :
    (inputCodes code x).length < 2 ^ 40 := by
  have hl := inputCodes_length_le code x h
  omega

end Sys2Proof.Machine
end

