-- ==== Sys2Proof/Laws/Build.lean ====
section
/-! SUPPORT. More laws of the tree builder and the code assigner: what `TB.BUILD` leaves alone, its loop as single turns
(42_tree_builder.md R123), the total weight (R126), and traversals that meet a defect (43_code_assigner.md R137). -/

namespace Sys2Proof.Machine

/-- Taking a fault, in the terms of claims (R233). -/
theorem State.raise_faulted (s : State) (u : UnitId) (e : Failure) : Faulted u e s (s.raise u e) := by
  have h := s.raise_block u e
  exact ⟨by rw [h]; rfl, by rw [h]; rfl, by rw [h]; rfl, by rw [h]; rfl, fun a => by rw [h]; rfl, State.raise_kept s u e⟩

theorem EncWork.addLeaf_frame (w : EncWork) (s : Nat) : (w.addLeaf s).freq = w.freq ∧ (w.addLeaf s).code = w.code ∧
    (w.addLeaf s).pay = w.pay ∧ (w.addLeaf s).root = w.root ∧ (w.addLeaf s).nint = w.nint := by
  unfold EncWork.addLeaf
  split <;> simp [EncWork.pqInsert]

/-- The fields the leaf loop leaves alone. -/
theorem EncWork.addLeaves_frame (w : EncWork) : w.addLeaves.freq = w.freq ∧ w.addLeaves.code = w.code ∧
    w.addLeaves.pay = w.pay ∧ w.addLeaves.root = w.root ∧ w.addLeaves.nint = w.nint := by
  unfold EncWork.addLeaves
  generalize List.range 256 = l
  induction l generalizing w with
  | nil => simp
  | cons a l ih =>
    have h1 := ih (w.addLeaf a)
    have h2 := w.addLeaf_frame a
    rw [List.foldl_cons]
    exact ⟨h1.1.trans h2.1, h1.2.1.trans h2.2.1, h1.2.2.1.trans h2.2.2.1, h1.2.2.2.1.trans h2.2.2.2.1,
      h1.2.2.2.2.trans h2.2.2.2.2⟩

/-- The fields `TB.BUILD`'s loops leave alone. -/
theorem EncWork.built_frame (w : EncWork) : w.built.freq = w.freq ∧ w.built.code = w.code ∧ w.built.pay = w.pay ∧
    w.built.root = w.root := by
  have h1 := EncWork.mergeAll_frame w.addLeaves.inq.length w.addLeaves
  have h2 := w.addLeaves_frame
  unfold EncWork.built
  exact ⟨h1.1.trans h2.1, h1.2.1.trans h2.2.1, h1.2.2.1.trans h2.2.2.1, h1.2.2.2.trans h2.2.2.2.1⟩

/-- `TB.BUILD` of a frequency table that is not empty, whatever stands in the arena (R123). -/
theorem execTbBuild_next {s : State} (h : s.enc.diag.nsym ≠ 0) :
    ∃ t r, execTbBuild s = .next t ∧ Kept .enc s t ∧ t.enc = { s.enc with phase := phaseAssign } ∧
      t.encWork = { s.encWork.built with root := r } := by
  rw [execTbBuild, if_neg h]
  generalize s.encWork.built = w
  exact ⟨_, _, rfl, kept_enc_of rfl rfl rfl rfl rfl rfl rfl rfl rfl, rfl, rfl⟩

/-- The leaf loop from an empty arena, in the terms of claims (R123). -/
theorem EncWork.addLeaves_leavesOf (w : EncWork) (hnode : w.node = []) (hinq : w.inq = []) (hnint : w.nint = 0) :
    LeavesOf w.freq w.addLeaves ∧ w.addLeaves = { w with node := w.addLeaves.node, inq := w.addLeaves.inq } := by
  have hu := EncWork.addLeaves_upto w hnode hinq 256 (Nat.le_refl _)
  have hf := w.addLeaves_frame
  have hm := (EncWork.addLeaves_forest w hnode hinq hnint).2.1
  have hnode' : ∀ i, Table.get w.addLeaves.node i =
      if i < 256 ∧ 0 < w.freq.count i then some (.leaf (BitVec.ofNat 8 i) (w.freq.count i)) else none := hu.2.2.2.2.2.1
  refine ⟨⟨hnode', hm, hf.2.2.2.2.trans hnint⟩, ?_⟩
  generalize w.addLeaves = v at hf
  cases v
  cases w
  simp_all

/-- A merge keeps the collection canonical. -/
theorem EncWork.merge_wf {w : EncWork} (h : Table.Wf w.inq) (h2 : 1 < w.inq.length) : Table.Wf w.merge.inq := by
  obtain ⟨a, b, -, -, -, -, -, e⟩ := EncWork.merge_spec h h2
  rw [e]
  exact Table.set_wf _ _ (Table.erase_wf _ (Table.erase_wf _ h))

/-- The merge loop is a sequence of turns (R123). -/
theorem EncWork.mergeAll_turns (n : Nat) (w : EncWork) (h : Table.Wf w.inq) :
    Relation.ReflTransGen MergeTurn w (EncWork.mergeAll n w) := by
  induction n generalizing w with
  | zero => exact .refl
  | succ n ih =>
    unfold EncWork.mergeAll
    split
    · rename_i hl
      obtain ⟨a, b, h1, h2, h3, h4, h5, h6⟩ := EncWork.merge_spec h hl
      exact .head ⟨a, h1, b, h2, h3, h4, h5, h6⟩ (ih _ (EncWork.merge_wf h hl))
    · exact .refl

theorem EncWork.built_turns (w : EncWork) (hnode : w.node = []) (hinq : w.inq = []) (hnint : w.nint = 0) :
    Relation.ReflTransGen MergeTurn w.addLeaves w.built :=
  EncWork.mergeAll_turns _ _ (EncWork.addLeaves_forest w hnode hinq hnint).1.inqWf

/-- With one symbol there is nothing to merge (R124). -/
theorem EncWork.built_single (w : EncWork) (hnode : w.node = []) (hinq : w.inq = []) (hnint : w.nint = 0)
    (h : distinctSymbols w.freq = 1) : w.built.members = occurring w.freq := by
  have hm := (EncWork.addLeaves_forest w hnode hinq hnint).2.1
  have hl : w.addLeaves.inq.length = 1 := by
    rw [← Table.keys_length]
    exact (congrArg List.length hm).trans h
  have hb : w.built = w.addLeaves := by
    unfold EncWork.built
    generalize w.addLeaves = v at hl
    rw [hl, EncWork.mergeAll, if_neg (by omega)]
  exact (congrArg EncWork.members hb).trans hm

/-- A tree's total is the sum over its leaves. -/
theorem CodeTree.total_eq (f : Table Nat) (t : CodeTree) : t.total f = (t.symbols.map (fun b => f.count b.toNat)).sum := by
  induction t with
  | leaf s => simp [CodeTree.total, CodeTree.symbols]
  | node l r ihl ihr => simp [CodeTree.total, CodeTree.symbols, ihl, ihr]

theorem CodeTree.symbols_le_of_nodup {t : CodeTree} (h : t.symbols.Nodup) : t.symbols.length ≤ 256 := by
  have h1 : (t.symbols.map BitVec.toNat).Nodup := h.map (fun a b e => BitVec.eq_of_toNat_eq e)
  have h2 : t.symbols.map BitVec.toNat ⊆ List.range 256 := by
    intro i hi
    obtain ⟨b, -, rfl⟩ := List.mem_map.1 hi
    exact List.mem_range.2 b.isLt
  have h3 := (h1.subperm h2).length_le
  rwa [List.length_map, List.length_range] at h3

/-- A bit string at least as long as every path starts with one of them (R138 (d): every internal node has two children). -/
theorem CodeTree.paths_complete (t : CodeTree) (bs : Bits) (h : ∀ e ∈ t.paths, e.2.length ≤ bs.length) :
    ∃ e ∈ t.paths, e.2 <+: bs := by
  induction t generalizing bs with
  | leaf s => exact ⟨(s, []), by simp [CodeTree.paths], List.nil_prefix⟩
  | node l r ihl ihr =>
    cases bs with
    | nil =>
      obtain ⟨e, he⟩ : ∃ e, e ∈ l.paths := by
        apply List.exists_mem_of_ne_nil
        intro e
        exact l.symbols_ne_nil (by rw [← l.paths_symbols, e]; rfl)
      have := h (e.1, false :: e.2) (by simp only [CodeTree.paths, List.mem_append, List.mem_map]; exact Or.inl ⟨e, he, rfl⟩)
      simp at this
    | cons b bs =>
      cases b with
      | false =>
        obtain ⟨e, he, hp⟩ := ihl bs (fun e he => by
          have := h (e.1, false :: e.2) (by simp only [CodeTree.paths, List.mem_append, List.mem_map]; exact Or.inl ⟨e, he, rfl⟩)
          simpa using this)
        exact ⟨(e.1, false :: e.2), by simp only [CodeTree.paths, List.mem_append, List.mem_map]; exact Or.inl ⟨e, he, rfl⟩,
          by simpa using hp⟩
      | true =>
        obtain ⟨e, he, hp⟩ := ihr bs (fun e he => by
          have := h (e.1, true :: e.2) (by simp only [CodeTree.paths, List.mem_append, List.mem_map]; exact Or.inr ⟨e, he, rfl⟩)
          simpa using this)
        exact ⟨(e.1, true :: e.2), by simp only [CodeTree.paths, List.mem_append, List.mem_map]; exact Or.inr ⟨e, he, rfl⟩,
          by simpa using hp⟩

/-! Sums over the symbols. -/

/-- The exact bit total (R148): the sum over the symbols of occurrences times code length. -/
theorem occurrences_weighted (code : Table Bits) (x : List Byte) :
    ((List.range 256).map (fun i => occurrences x i * (code.bits i).length)).sum = (inputCodes code x).length := by
  induction x with
  | nil =>
    have h0 : ∀ l : List Nat, (l.map (fun i => occurrences [] i * (code.bits i).length)).sum = 0 := by
      intro l
      induction l with
      | nil => rfl
      | cons s l ih => rw [List.map_cons, List.sum_cons, ih]; simp [occurrences]
    rw [h0]
    rfl
  | cons b x ih =>
    have hf : (fun i => occurrences (b :: x) i * (code.bits i).length) =
        fun i => (if b.toNat = i then (code.bits i).length else 0) + occurrences x i * (code.bits i).length := by
      funext i
      rw [occurrences_cons]
      split <;> simp [Nat.add_mul]
    have hone : ((List.range 256).map (fun i => if b.toNat = i then (code.bits i).length else 0)).sum =
        (code.bits b.toNat).length := by
      have hb := b.isLt
      generalize b.toNat = k at hb
      have : ∀ n, ((List.range n).map (fun i => if k = i then (code.bits i).length else 0)).sum =
          if k < n then (code.bits k).length else 0 := by
        intro n
        induction n with
        | zero => simp
        | succ n ihn =>
          rw [List.range_succ, List.map_append, List.sum_append, ihn]
          simp only [List.map_cons, List.map_nil, List.sum_cons, List.sum_nil, Nat.add_zero]
          by_cases e : k = n
          · subst e; simp
          · by_cases h : k < n
            · simp [h, e, Nat.lt_succ_of_lt h]
            · have : ¬ k < n + 1 := by omega
              simp [h, e, this]
      rw [this, if_pos hb]
    have h2 : inputCodes code (b :: x) = code.bits b.toNat ++ inputCodes code x := rfl
    rw [hf, List.sum_map_add, hone, ih, h2, List.length_append]

/-- Which symbols have a code in the table `CA.ASSIGN` writes (R138). -/
theorem mem_codes_of_bits {t : CodeTree} (h : t.symbols.Nodup) (i : Nat) (hi : Table.bits (writeCodes [] t.codes) i ≠ []) :
    ∃ e ∈ t.codes, e.1.toNat = i ∧ e.2 = Table.bits (writeCodes [] t.codes) i := by
  obtain ⟨b1, b2⟩ := bits_writeCodes t h
  by_contra hc
  apply hi
  apply b2
  intro e he hei
  exact hc ⟨e, he, hei, by rw [← hei, b1 e he]⟩

/-! Traversals that meet a defect. -/

/-- The number of visits a shape takes. -/
def Shape.visits (t : Shape) : Nat :=
  match t with
  | .leaf _ => 1
  | .node l r => 1 + l.visits + r.visits
  | .defect => 1

theorem Shape.visits_eq (t : Shape) : t.visits + 1 = 2 * t.ends := by
  induction t with
  | leaf s => rfl
  | node l r ihl ihr => simp [Shape.visits, Shape.ends]; omega
  | defect => rfl

theorem assignLoop_shape {arena : Table EncNode} (t : Shape) (i : Nat) (p : Bits) (fuel : Nat) (stk : List (Nat × Bits))
    (c : Table Bits) (h : t.At arena i) :
    (t.hasDefect = true → assignLoop arena (t.visits + fuel) ((i, p) :: stk) c = .error .malformed) ∧
    (t.hasDefect = false → ∃ c', assignLoop arena (t.visits + fuel) ((i, p) :: stk) c = assignLoop arena fuel stk c') := by
  induction t generalizing i p fuel stk c with
  | leaf s =>
    obtain ⟨w, hw⟩ := h
    refine ⟨fun h => by simp [Shape.hasDefect] at h, fun _ => ⟨Table.set c s.toNat p, ?_⟩⟩
    rw [Shape.visits, Nat.add_comm, assignLoop, hw]
  | node l r ihl ihr =>
    obtain ⟨a, b, w, hw, hl, hr⟩ := h
    have e : Shape.visits (.node l r) + fuel = (l.visits + (r.visits + fuel)) + 1 := by
      simp [Shape.visits]; omega
    have e2 : assignLoop arena (Shape.visits (.node l r) + fuel) ((i, p) :: stk) c =
      assignLoop arena (l.visits + (r.visits + fuel)) ((a, p ++ [false]) :: (b, p ++ [true]) :: stk) c := by
      rw [e, assignLoop, hw]
    rw [e2]
    cases hld : l.hasDefect with
    | true => exact ⟨fun _ => (ihl _ _ _ _ _ hl).1 hld, fun h => by simp [Shape.hasDefect, hld] at h⟩
    | false =>
      obtain ⟨c', hc'⟩ := (ihl a (p ++ [false]) (r.visits + fuel) ((b, p ++ [true]) :: stk) c hl).2 hld
      rw [hc']
      exact ⟨fun h => (ihr _ _ _ _ _ hr).1 (by simpa [Shape.hasDefect, hld] using h),
        fun h => (ihr _ _ _ _ _ hr).2 (by simpa [Shape.hasDefect, hld] using h)⟩
  | defect =>
    refine ⟨fun _ => ?_, fun h => by simp [Shape.hasDefect] at h⟩
    rw [Shape.visits, Nat.add_comm]
    rcases h with h | ⟨l, r, w, h, h'⟩
    · rw [assignLoop, h]
    · rw [assignLoop, h]
      rcases h' with rfl | rfl
      · rfl
      · cases l <;> rfl

/-- `CA.ASSIGN` on a shape with a defect (R137). -/
theorem assignCodes_defect {arena : Table EncNode} (sh : Shape) (r : Nat) (c : Table Bits) (h : sh.At arena r)
    (he : sh.ends ≤ 256) (hd : sh.hasDefect = true) : assignCodes arena (some r) c = .error .malformed := by
  have hv : 512 ≤ visitBound := le_visitBound
  have hve := sh.visits_eq
  obtain ⟨k, hk⟩ : ∃ k, visitBound = sh.visits + k := ⟨visitBound - sh.visits, by omega⟩
  have hl : assignLoop arena visitBound [(r, [])] c = .error .malformed := by
    rw [hk]
    exact (assignLoop_shape sh r [] k [] _ h).1 hd
  unfold assignCodes
  simp only
  split
  · rename_i w hw
    cases sh with
    | leaf => simp [Shape.hasDefect] at hd
    | node =>
      obtain ⟨a, b, w', hw', -⟩ := h
      rw [hw] at hw'
      simp at hw'
    | defect => rcases h with h | ⟨l, r', w', h, -⟩ <;> rw [hw] at h <;> simp at h
  · exact hl

end Sys2Proof.Machine
end

