-- ==== Sys2Proof/Laws/Container.lean ====
section
/-! SUPPORT. The laws of the container (30_encoding.md R87 to R94): numbers in bytes, what `DEC.PARSE` accepts, and that
`ENC.SERIALIZE` writes a container. -/

namespace Sys2Proof.Machine

theorem ofNat8_toNat (x : Nat) : (BitVec.ofNat 8 x).toNat = x % 256 := by simp

theorem be16_bytes16 (v : Nat) (h : v < 2 ^ 16) : be16 (BitVec.ofNat 8 (v / 256)) (BitVec.ofNat 8 v) = v := by
  simp only [be16, ofNat8_toNat]
  omega

theorem bytes16_be16 (a b : Byte) : bytes16 (be16 a b) = [a, b] := by
  have ha := a.isLt
  have hb := b.isLt
  have h1 : BitVec.ofNat 8 (be16 a b / 256) = a := by
    apply BitVec.eq_of_toNat_eq
    rw [ofNat8_toNat, be16]
    omega
  have h2 : BitVec.ofNat 8 (be16 a b) = b := by
    apply BitVec.eq_of_toNat_eq
    rw [ofNat8_toNat, be16]
    omega
  rw [bytes16, h1, h2]

theorem be32_bytes32 (v : Nat) (h : v < 2 ^ 32) :
    be32 (BitVec.ofNat 8 (v / 2 ^ 24)) (BitVec.ofNat 8 (v / 2 ^ 16)) (BitVec.ofNat 8 (v / 2 ^ 8)) (BitVec.ofNat 8 v) = v := by
  simp only [be32, ofNat8_toNat]
  omega

theorem be32_lt (a b c d : Byte) : be32 a b c d < 2 ^ 32 := by
  have ha := a.isLt
  have hb := b.isLt
  have hc := c.isLt
  have hd := d.isLt
  unfold be32
  omega

theorem bytes32_be32 (a b c d : Byte) : bytes32 (be32 a b c d) = [a, b, c, d] := by
  have ha := a.isLt
  have hb := b.isLt
  have hc := c.isLt
  have hd := d.isLt
  have h1 : BitVec.ofNat 8 (be32 a b c d / 2 ^ 24) = a := by
    apply BitVec.eq_of_toNat_eq; rw [ofNat8_toNat, be32]; omega
  have h2 : BitVec.ofNat 8 (be32 a b c d / 2 ^ 16) = b := by
    apply BitVec.eq_of_toNat_eq; rw [ofNat8_toNat, be32]; omega
  have h3 : BitVec.ofNat 8 (be32 a b c d / 2 ^ 8) = c := by
    apply BitVec.eq_of_toNat_eq; rw [ofNat8_toNat, be32]; omega
  have h4 : BitVec.ofNat 8 (be32 a b c d) = d := by
    apply BitVec.eq_of_toNat_eq; rw [ofNat8_toNat, be32]; omega
  rw [bytes32, h1, h2, h3, h4]

/-! Sequences of reads. -/

theorem memRead_append (rd : Nat → Byte) (a m n : Nat) : memRead rd a (m + n) = memRead rd a m ++ memRead rd (a + m) n := by
  simp only [memRead, List.range_add, List.map_append, List.map_map]
  congr 1
  apply List.map_congr_left
  intro i _
  simp [Nat.add_assoc]

theorem memRead_cons (rd : Nat → Byte) (a n : Nat) : memRead rd a (n + 1) = rd a :: memRead rd (a + 1) n := by
  rw [Nat.add_comm n 1, memRead_append]
  rfl

/-- A sequence of reads that is two sequences one after the other. -/
theorem memRead_split {rd : Nat → Byte} {a n : Nat} {x y : List Byte} (h : memRead rd a n = x ++ y) :
    n = x.length + y.length ∧ memRead rd a x.length = x ∧ memRead rd (a + x.length) y.length = y := by
  have hl := congrArg List.length h
  simp at hl
  subst hl
  rw [memRead_append] at h
  obtain ⟨h1, h2⟩ := List.append_inj h (by simp)
  exact ⟨rfl, h1, h2⟩

theorem memRead_congr {rd rd' : Nat → Byte} {a n : Nat} (h : ∀ i, a ≤ i → i < a + n → rd i = rd' i) :
    memRead rd a n = memRead rd' a n := by
  unfold memRead
  apply List.map_congr_left
  intro i hi
  rw [List.mem_range] at hi
  exact h _ (by omega) (by omega)

/-! `DEC.PARSE`. -/

/-- The entry loop accepts entries (R176). -/
theorem parseEntries_of_field {rd : Nat → Byte} {len : Nat} (es : List Entry) (p m : Nat) (h : EntriesField es (memRead rd p m))
    (hlen : p + m ≤ len) : parseEntries rd len es.length p = some (es, p + m) := by
  induction es generalizing p m with
  | nil =>
    simp only [EntriesField] at h
    have : m = 0 := by simpa using congrArg List.length h
    subst this
    rfl
  | cons e es ih =>
    obtain ⟨f, rest, hm, ⟨h1, h255, c, rfl, hcl, hcb⟩, hr⟩ := h
    obtain ⟨hmn, hf, hrest⟩ := memRead_split hm
    have hfl : (e.sym :: BitVec.ofNat 8 e.bits.length :: c).length = 2 + ceil8 e.bits.length := by simp [hcl]; omega
    rw [hfl] at hmn hf hrest
    have hf' := hf
    rw [show 2 + ceil8 e.bits.length = ceil8 e.bits.length + 1 + 1 by omega, memRead_cons, memRead_cons] at hf'
    simp only [List.cons.injEq] at hf'
    obtain ⟨hs, hl, hc⟩ := hf'
    have hL : (rd (p + 1)).toNat = e.bits.length := by rw [hl, ofNat8_toNat]; omega
    have := ih (p + (2 + ceil8 e.bits.length)) rest.length (by rw [hrest]; exact hr) (by omega)
    rw [List.length_cons]
    unfold parseEntries
    rw [hL, if_neg (by omega), if_neg (by omega), if_neg (by omega)]
    rw [show p + 2 + ceil8 e.bits.length = p + (2 + ceil8 e.bits.length) by omega, this]
    simp only [hs]
    rw [show p + 2 = p + 1 + 1 by omega, hc, hcb]
    congr 2
    omega

/-- What the entry loop accepts is entries (R176). -/
theorem field_of_parseEntries {rd : Nat → Byte} {len k p q : Nat} {es : List Entry}
    (h : parseEntries rd len k p = some (es, q)) :
    es.length = k ∧ p ≤ q ∧ (q ≤ len ∨ p = q) ∧ EntriesField es (memRead rd p (q - p)) := by
  induction k generalizing p es with
  | zero =>
    simp only [parseEntries, Option.some.injEq, Prod.mk.injEq] at h
    obtain ⟨rfl, rfl⟩ := h
    refine ⟨rfl, Nat.le_refl _, Or.inr rfl, ?_⟩
    simp [EntriesField, memRead]
  | succ k ih =>
    unfold parseEntries at h
    split at h
    · simp at h
    · rename_i hroom
      split at h
      · simp at h
      · rename_i hL0
        split at h
        · simp at h
        · rename_i hroom2
          set L := (rd (p + 1)).toNat with hLdef
          cases hrec : parseEntries rd len k (p + 2 + ceil8 L) with
          | none => simp [hrec] at h
          | some r =>
            obtain ⟨es', q'⟩ := r
            simp only [hrec, Option.some.injEq, Prod.mk.injEq] at h
            obtain ⟨rfl, rfl⟩ := h
            obtain ⟨h1, h2, h3, h4⟩ := ih hrec
            refine ⟨by simp [h1], by omega, Or.inl (by omega), ?_⟩
            have hbl : (codeBits (memRead rd (p + 2) (ceil8 L)) L).length = L := codeBits_length _ _
            refine ⟨memRead rd p (2 + ceil8 L), memRead rd (p + 2 + ceil8 L) (q' - (p + 2 + ceil8 L)), ?_, ?_, h4⟩
            · rw [show p + 2 + ceil8 L = p + (2 + ceil8 L) by omega, ← memRead_append]
              congr 1
              omega
            · have hL255 : L ≤ 255 := by have := (rd (p + 1)).isLt; omega
              refine ⟨by rw [hbl]; omega, by rw [hbl]; exact hL255, memRead rd (p + 2) (ceil8 L), ?_, ?_, ?_⟩
              · rw [show 2 + ceil8 L = ceil8 L + 1 + 1 by omega, memRead_cons, memRead_cons, hbl]
                congr 2
                apply BitVec.eq_of_toNat_eq
                rw [ofNat8_toNat, ← hLdef]
                omega
              · rw [hbl, memRead_length]
              · rw [hbl]

/-- `DEC.PARSE` accepts a container, and reads its parts (R176). -/
theorem parseHeader_of_container {rd : Nat → Byte} {len : Nat} {es : List Entry} {n : Nat} {pay : List Byte}
    (h : Container (memRead rd 0 len) es n pay) :
    parseHeader rd len = some { k := es.length, entries := es, n := n, payOff := len - pay.length } ∧
      memRead rd (len - pay.length) pay.length = pay ∧ pay.length ≤ len := by
  obtain ⟨hk, hn, b, hb, hc⟩ := h
  have hkm : Config.kMax = 256 := rfl
  obtain ⟨hl1, hK, hrest⟩ := memRead_split hc
  obtain ⟨hl2, hB, hrest2⟩ := memRead_split hrest
  obtain ⟨hl3, hN, hP⟩ := memRead_split hrest2
  have l16 : (bytes16 es.length).length = 2 := rfl
  have l32 : (bytes32 n).length = 4 := rfl
  rw [l16] at hl1 hK hB hN hP
  rw [l32] at hl3 hN hP
  have hK' := hK
  rw [show (2 : Nat) = 0 + 1 + 1 by rfl, memRead_cons, memRead_cons, bytes16] at hK'
  simp only [List.cons.injEq] at hK'
  obtain ⟨k0, k1, -⟩ := hK'
  have hN' := hN
  rw [show (4 : Nat) = 0 + 1 + 1 + 1 + 1 by rfl, memRead_cons, memRead_cons, memRead_cons, memRead_cons, bytes32] at hN'
  simp only [List.cons.injEq] at hN'
  obtain ⟨n0, n1, n2, n3, -⟩ := hN'
  simp only [Nat.zero_add] at *
  have hbe : be16 (rd 0) (rd 1) = es.length := by rw [k0, k1]; exact be16_bytes16 _ (by omega)
  have hpe := parseEntries_of_field (len := len) es 2 b.length (by rw [hB]; exact hb) (by omega)
  refine ⟨?_, ?_, by omega⟩
  · unfold parseHeader
    rw [if_neg (by omega), hbe, if_neg (by omega), hpe]
    simp only
    rw [if_neg (by omega)]
    congr 2
    · rw [n0, n1, n2, n3]
      exact be32_bytes32 n hn
    · omega
  · have : len - pay.length = 2 + b.length + 4 := by omega
    rw [this]
    exact hP

/-- What `DEC.PARSE` accepts is a container (R176). -/
theorem container_of_parseHeader {rd : Nat → Byte} {len : Nat} {h : Header} (hp : parseHeader rd len = some h) :
    ∃ pay, Container (memRead rd 0 len) h.entries h.n pay ∧ h.k = h.entries.length ∧ h.payOff + pay.length = len := by
  unfold parseHeader at hp
  split at hp
  · simp at hp
  · rename_i h2
    split at hp
    · simp at hp
    · rename_i hk
      cases hpe : parseEntries rd len (be16 (rd 0) (rd 1)) 2 with
      | none => simp [hpe] at hp
      | some r =>
        obtain ⟨es, p⟩ := r
        simp only [hpe] at hp
        split at hp
        · simp at hp
        · rename_i hroom
          simp only [Option.some.injEq] at hp
          subst hp
          obtain ⟨e1, e2, -, e4⟩ := field_of_parseEntries hpe
          refine ⟨memRead rd (p + 4) (len - (p + 4)), ⟨by simp only; omega, be32_lt _ _ _ _, memRead rd 2 (p - 2), e4, ?_⟩, e1.symm, ?_⟩
          · simp only
            rw [e1, bytes16_be16, bytes32_be32]
            have hA : [rd 0, rd 1] = memRead rd 0 2 := rfl
            have hB : [rd p, rd (p + 1), rd (p + 2), rd (p + 3)] = memRead rd p 4 := rfl
            rw [hA, hB, ← memRead_append]
            conv_rhs => rw [show p = 2 + (p - 2) by omega]
            rw [show 2 + (p - 2) - 2 = p - 2 by omega, ← memRead_append]
            have := memRead_append rd 0 2 (p - 2 + (4 + (len - (2 + (p - 2) + 4))))
            rw [Nat.zero_add] at this
            rw [← this]
            congr 1
            omega
          · simp only [memRead_length]
            omega

/-! `ENC.SERIALIZE`. -/

theorem entriesField_append {es ds : List Entry} {b c : List Byte} (h1 : EntriesField es b) (h2 : EntriesField ds c) :
    EntriesField (es ++ ds) (b ++ c) := by
  induction es generalizing b with
  | nil =>
    simp only [EntriesField] at h1
    subst h1
    simpa using h2
  | cons e es ih =>
    obtain ⟨f, rest, rfl, hf, hr⟩ := h1
    exact ⟨f, rest ++ c, by simp, hf, ih hr⟩

/-- The encoder's entries (R89, R161). -/
theorem entriesField_encoder (code : Table Bits) (h : ∀ s, (code.bits s).length ≤ 255) :
    EntriesField (codeEntries code) ((List.range 256).flatMap (entryBytes code)) := by
  have key : ∀ l : List Nat, EntriesField
      (l.filterMap (fun s => if 0 < (code.bits s).length then some ({ sym := BitVec.ofNat 8 s, bits := code.bits s } : Entry) else none))
      (l.flatMap (entryBytes code)) := by
    intro l
    induction l with
    | nil => rfl
    | cons s l ih =>
      rw [List.flatMap_cons]
      by_cases hs : 0 < (code.bits s).length
      · rw [List.filterMap_cons_some (b := ({ sym := BitVec.ofNat 8 s, bits := code.bits s } : Entry)) (by simp [hs])]
        have h255 := h s
        refine ⟨entryBytes code s, l.flatMap (entryBytes code), rfl, ⟨hs, h255, packbits (code.bits s), ?_, ?_, ?_⟩, ih⟩
        · rw [entryBytes, if_pos hs]
        · exact packbits_length _ (by omega)
        · exact codeBits_packbits _ (by omega)
      · rw [List.filterMap_cons_none (by simp [hs]), entryBytes, if_neg hs]
        exact ih
  exact key (List.range 256)

/-- What `ENC.SERIALIZE` writes is a container (R161, R87). -/
theorem container_of_encoder (code : Table Bits) (h : ∀ s, (code.bits s).length ≤ 255) (n : Nat) (hn : n < 2 ^ 32)
    (pay : List Byte) : Container (containerBytes (codeEntries code).length n code pay) (codeEntries code) n pay := by
  refine ⟨?_, hn, _, entriesField_encoder code h, rfl⟩
  have := List.length_filterMap_le (fun s => if 0 < (code.bits s).length then
    some ({ sym := BitVec.ofNat 8 s, bits := code.bits s } : Entry) else none) (List.range 256)
  simpa [codeEntries, Config.kMax] using this

end Sys2Proof.Machine
end

