-- ==== Sys2Proof/Laws/Encode.lean ====
section
/-! SUPPORT. A whole `ENCODE` (45_encoder.md R160 to R163): the phases one after another, from acceptance to `DONE` or `FAULT`. -/

namespace Sys2Proof.Machine

/-! The input. -/

theorem HasInput.input {u : UnitId} {s : State} {x : List Byte} (h : HasInput u s x) : s.input u = x := by
  obtain ⟨h1, h2⟩ := h
  unfold State.input
  rw [h1]
  apply memRead_eq_of_getElem
  intro i hi
  simp [State.inByte, h2 i hi]

theorem HasInput.inByte {u : UnitId} {s : State} {x : List Byte} (h : HasInput u s x) (i : Nat) (hi : i < x.length) :
    s.inByte u i = x[i] := by simp [State.inByte, h.2 i hi]

theorem HasInput.kept {u : UnitId} {s t : State} {x : List Byte} (h : HasInput u s x) (hk : Kept u s t) : HasInput u t x := by
  refine ⟨by rw [hk.inLen]; exact h.1, fun i hi => ?_⟩
  rw [hk.inByte]
  exact h.2 i hi

theorem HasInput.length_lt {u : UnitId} {s : State} {x : List Byte} (h : HasInput u s x) : x.length < 2 ^ 32 := by
  rw [← h.1]
  exact BitVec.isLt _

/-! The sequencer (R211): which phase a phase code runs. -/

theorem unitPhase_count {s : State} (h : s.enc.phase = 1) : unitPhase .enc s = execFtCount s := by
  simp [unitPhase, decode, State.block, h, decodePhase]
theorem unitPhase_build {s : State} (h : s.enc.phase = 2) : unitPhase .enc s = execTbBuild s := by
  simp [unitPhase, decode, State.block, h, decodePhase]
theorem unitPhase_assign {s : State} (h : s.enc.phase = 3) : unitPhase .enc s = execCaAssign s := by
  simp [unitPhase, decode, State.block, h, decodePhase]
theorem unitPhase_pack {s : State} (h : s.enc.phase = 4) : unitPhase .enc s = execBwPack s := by
  simp [unitPhase, decode, State.block, h, decodePhase]
theorem unitPhase_serialize {s : State} (h : s.enc.phase = 5) : unitPhase .enc s = execEncSerialize s := by
  simp [unitPhase, decode, State.block, h, decodePhase]
theorem unitPhase_parse {s : State} (h : s.dec.phase = 1) : unitPhase .dec s = execDecParse s := by
  simp [unitPhase, decode, State.block, h, decodePhase]
theorem unitPhase_rebuild {s : State} (h : s.dec.phase = 2) : unitPhase .dec s = execTrRebuild s := by
  simp [unitPhase, decode, State.block, h, decodePhase]
theorem unitPhase_walk {s : State} (h : s.dec.phase = 3) : unitPhase .dec s = execTwWalk s := by
  simp [unitPhase, decode, State.block, h, decodePhase]

theorem unitRun_busy {u : UnitId} {n : Nat} {s : State} (h : s.busy u = true) :
    unitRun u (n + 1) s = andThen (unitPhase u s) (unitRun u n) := by
  conv_lhs => unfold unitRun
  rw [if_pos h]

theorem unitRun_idle {u : UnitId} {n : Nat} {s : State} (h : s.busy u = false) : unitRun u n s = .next s := by
  cases n with
  | zero => rfl
  | succ n => unfold unitRun; rw [if_neg (by simp [h])]

theorem State.busy_enc {s : State} (h : s.enc.state = .busy) : s.busy .enc = true := by simp [State.busy, State.block, h]
theorem State.busy_dec {s : State} (h : s.dec.state = .busy) : s.busy .dec = true := by simp [State.busy, State.block, h]
theorem State.busy_raise (s : State) (u : UnitId) (e : Failure) : (s.raise u e).busy u = false := by
  simp [State.busy, State.raise_block]

/-! The result of an `ENCODE` as a function of its input. -/

/-- The encoder's tables after the leaves and merges of R123. -/
def buildOf (f : Table Nat) : EncWork := EncWork.built { EncWork.initial with freq := f }

/-- The code table a traversal leaves. -/
def codesOrNone (o : Except AssignStop (Table Bits)) : Table Bits :=
  match o with
  | .ok c => c
  | .error _ => []

/-- The code table of a frequency table (R127: "the tree is a function of `FREQ` alone"). -/
def codeTableOf (f : Table Nat) : Table Bits := codesOrNone (assignCodes (buildOf f).node (buildOf f).members.head? [])

/-- The encoder's tables before the leaves of R123. -/
def counted (f : Table Nat) : EncWork := { EncWork.initial with freq := f }

theorem buildOf_eq (f : Table Nat) : buildOf f = EncWork.built (counted f) := rfl

theorem buildOf_spec (f : Table Nat) (h : 1 ≤ distinctSymbols f) :
    ∃ r t, (buildOf f).members = [r] ∧ CodeTree.At (buildOf f).node t r ∧
      t.symbols.Perm ((occurring f).map (BitVec.ofNat 8)) ∧ (buildOf f).code = [] ∧ (buildOf f).pay = [] := by
  have hcode : (counted f).code = [] := rfl
  have hpay : (counted f).pay = [] := rfl
  have hfreq : (counted f).freq = f := rfl
  rw [buildOf_eq]
  obtain ⟨r, t, h1, h2, h3, -, -, -, -, h8, h9, -⟩ := EncWork.built_spec (counted f) rfl rfl rfl (hfreq ▸ h)
  rw [hcode] at h8
  rw [hpay] at h9
  exact ⟨r, t, h1, h2, hfreq ▸ h3, h8, h9⟩

/-- The code table of a frequency table with at least one symbol (R126, R135, R138). -/
theorem codeTableOf_spec (f : Table Nat) (h : 1 ≤ distinctSymbols f) :
    ∃ r t, (buildOf f).members = [r] ∧ CodeTree.At (buildOf f).node t r ∧
      t.symbols.Perm ((occurring f).map (BitVec.ofNat 8)) ∧
      assignCodes (buildOf f).node (some r) [] = .ok (writeCodes [] t.codes) ∧
      codeTableOf f = writeCodes [] t.codes := by
  obtain ⟨r, t, h1, h2, h3, -⟩ := buildOf_spec f h
  have hl : t.symbols.length ≤ 256 := by
    rw [h3.length_eq, List.length_map]
    exact occurring_length_le f
  have h4 := assignCodes_tree t r [] h2 hl
  refine ⟨r, t, h1, h2, h3, h4, ?_⟩
  rw [codeTableOf, h1, List.head?_cons, h4, codesOrNone]

theorem codeTableOf_length (f : Table Nat) (s : Nat) : ((codeTableOf f).bits s).length ≤ 255 := by
  by_cases h : 1 ≤ distinctSymbols f
  · obtain ⟨r, t, -, -, h3, -, h5⟩ := codeTableOf_spec f h
    rw [h5]
    apply bits_writeCodes_length
    rw [h3.length_eq, List.length_map]
    exact occurring_length_le f
  · have h0 : distinctSymbols f = 0 := by omega
    have hocc : occurring f = [] := by rwa [distinctSymbols_eq, List.length_eq_zero_iff] at h0
    have hm : (buildOf f).members = [] := by
      obtain ⟨-, hm, -⟩ := EncWork.addLeaves_forest (counted f) rfl rfl rfl
      have hm' : (counted f).addLeaves.members = [] := by rw [hm]; exact hocc
      have hi : (counted f).addLeaves.inq.length = 0 := by
        rw [← Table.keys_length]; exact congrArg List.length hm'
      rw [buildOf_eq, EncWork.built, hi, EncWork.mergeAll]
      exact hm'
    have : codeTableOf f = [] := by rw [codeTableOf, hm, List.head?_nil, assignCodes, codesOrNone]
    rw [this]
    simp [Table.bits]

/-- The end of an `ENCODE` with parameters `p` and input `x`: the phase and the failure, or the container and the diagnostics. -/
def encodeOutcome (p : Params) (x : List Byte) : Except (BitVec 4 × Failure) (List Byte × Diag) :=
  match countBytes p.cntW [] x with
  | none => .error (1, .overflow)
  | some f =>
    let code := if distinctSymbols f = 0 then [] else codeTableOf f
    let w := if distinctSymbols f = 0 then BitWriter.empty else packInput code BitWriter.empty x
    let c := containerBytes (distinctSymbols f) x.length code w.pay
    if p.encOutCap.toNat < c.length then .error (5, .bufferBound)
    else .ok (c, { nsym := BitVec.ofNat 9 (distinctSymbols f), symcnt := BitVec.ofNat 32 x.length, bitcnt := w.bitcnt })

/-- The encoder's block at the end of a command whose outcome is `o`. -/
def EncEnds (o : Except (BitVec 4 × Failure) (List Byte × Diag)) (b : Block) : Prop :=
  match o with
  | .error (ph, e) => b.state = .fault ∧ b.phase = ph ∧ b.err = e ∧ b.outLen = 0 ∧ b.outBuf = []
  | .ok (c, d) => b.state = .done ∧ b.phase = 0 ∧ b.err = .none ∧ b.outLen = BitVec.ofNat 32 c.length ∧ b.diag = d ∧
      b.outBuf = Memory.writeAll [] 0 c

/-- The encoder just accepted (R206). -/
structure EncStart (s : State) : Prop where
  state  : s.enc.state = .busy
  phase  : s.enc.phase = 1
  err    : s.enc.err = .none
  outBuf : s.enc.outBuf = []
  bitcnt : s.enc.diag.bitcnt = 0
  work   : s.encWork = EncWork.initial

theorem nsym_zero_iff (n : Nat) (h : n ≤ 256) : BitVec.ofNat 9 n = 0 ↔ n = 0 := by
  constructor
  · intro e
    have := congrArg BitVec.toNat e
    rw [BitVec.toNat_ofNat] at this
    simp at this
    omega
  · rintro rfl; rfl

theorem raise_encEnds (s : State) (ph : BitVec 4) (e : Failure) (h : s.enc.phase = ph) :
    EncEnds (.error (ph, e)) (s.raise .enc e).enc := by
  have := s.raise_block .enc e
  simp only [State.block] at this
  rw [this]
  exact ⟨rfl, h, rfl, rfl, rfl⟩

/-- The last phase (R161). -/
theorem serialize_run (n : Nat) (s : State) (hb : s.enc.state = .busy) (hp : s.enc.phase = 5) (he : s.enc.err = .none)
    (ho : s.enc.outBuf = []) :
    ∃ t, unitRun .enc (n + 1) s = .next t ∧ Kept .enc s t ∧
      EncEnds (if s.params.encOutCap.toNat < s.container.length then .error (5, .bufferBound) else .ok (s.container, s.enc.diag)) t.enc := by
  rw [unitRun_busy (State.busy_enc hb), unitPhase_serialize hp]
  by_cases hc : s.params.encOutCap.toNat < s.container.length
  · rw [if_pos hc, execEncSerialize_tooLong hc]
    exact ⟨_, unitRun_idle (State.busy_raise s .enc .bufferBound), State.raise_kept s .enc _, raise_encEnds s 5 .bufferBound hp⟩
  · rw [if_neg hc]
    obtain ⟨t, h1, h2, h3, -⟩ := execEncSerialize_fits (s := s) (by omega)
    refine ⟨t, ?_, h2, ?_⟩
    · rw [h1]
      exact unitRun_idle (by simp [State.busy, State.block, h3])
    · rw [h3]
      exact ⟨rfl, rfl, he, rfl, rfl, by simp [ho]⟩

/-- The last two phases (R148, R161). -/
theorem pack_run (n : Nat) (s : State) (x : List Byte) (hb : s.enc.state = .busy) (hp : s.enc.phase = 4)
    (he : s.enc.err = .none) (ho : s.enc.outBuf = []) (hx : HasInput .enc s x) (hbit : s.enc.diag.bitcnt = 0)
    (hpay : s.encWork.pay = []) :
    let w := packInput s.encWork.code BitWriter.empty x
    let c := containerBytes s.enc.diag.nsym.toNat s.enc.diag.symcnt.toNat s.encWork.code w.pay
    ∃ t, unitRun .enc (n + 2) s = .next t ∧ Kept .enc s t ∧
      EncEnds (if s.params.encOutCap.toNat < c.length then .error (5, .bufferBound)
        else .ok (c, { s.enc.diag with bitcnt := w.bitcnt })) t.enc := by
  intro w c
  obtain ⟨t, h1, h2, h3, h4⟩ := execBwPack_next s
  have hw : s.bitWriter = BitWriter.empty := by simp [State.bitWriter, hbit, hpay, BitWriter.empty]
  rw [hw, hx.input] at h3 h4
  obtain ⟨r, r1, r2, r3⟩ := serialize_run n t (by rw [h3]; exact hb) (by rw [h3]; rfl) (by rw [h3]; exact he) (by rw [h3]; exact ho)
  refine ⟨r, ?_, h2.trans r2, ?_⟩
  · rw [unitRun_busy (State.busy_enc hb), unitPhase_pack hp, h1]
    exact r1
  · have hc : t.container = c := by simp only [State.container, h3, h4]; rfl
    rw [hc, h2.params] at r3
    rw [h3] at r3
    exact r3

/-- The last three phases (R135, R148, R161). -/
theorem assign_run (n : Nat) (s : State) (x : List Byte) (code : Table Bits) (hb : s.enc.state = .busy) (hp : s.enc.phase = 3)
    (he : s.enc.err = .none) (ho : s.enc.outBuf = []) (hx : HasInput .enc s x) (hbit : s.enc.diag.bitcnt = 0)
    (hpay : s.encWork.pay = []) (ha : assignCodes s.encWork.node s.encWork.root s.encWork.code = .ok code) :
    let w := packInput code BitWriter.empty x
    let c := containerBytes s.enc.diag.nsym.toNat s.enc.diag.symcnt.toNat code w.pay
    ∃ t, unitRun .enc (n + 3) s = .next t ∧ Kept .enc s t ∧
      EncEnds (if s.params.encOutCap.toNat < c.length then .error (5, .bufferBound)
        else .ok (c, { s.enc.diag with bitcnt := w.bitcnt })) t.enc := by
  intro w c
  obtain ⟨t, h1, h2, h3, h4⟩ := execCaAssign_ok ha
  obtain ⟨r, r1, r2, r3⟩ := pack_run n t x (by rw [h3]; exact hb) (by rw [h3]; rfl) (by rw [h3]; exact he) (by rw [h3]; exact ho)
    (hx.kept h2) (by rw [h3]; exact hbit) (by rw [h4]; exact hpay)
  refine ⟨r, ?_, h2.trans r2, ?_⟩
  · rw [unitRun_busy (State.busy_enc hb), unitPhase_assign hp, h1]
    exact r1
  · rw [h2.params, h3, h4] at r3
    exact r3

/-- All phases after `COUNT` (R160). -/
theorem build_run (n : Nat) (s : State) (x : List Byte) (f : Table Nat) (hb : s.enc.state = .busy) (hp : s.enc.phase = 2)
    (he : s.enc.err = .none) (ho : s.enc.outBuf = []) (hx : HasInput .enc s x) (hbit : s.enc.diag.bitcnt = 0)
    (hf : s.encWork = { EncWork.initial with freq := f }) (hd : 1 ≤ distinctSymbols f) (hn : s.enc.diag.nsym ≠ 0) :
    let w := packInput (codeTableOf f) BitWriter.empty x
    let c := containerBytes s.enc.diag.nsym.toNat s.enc.diag.symcnt.toNat (codeTableOf f) w.pay
    ∃ t, unitRun .enc (n + 4) s = .next t ∧ Kept .enc s t ∧
      EncEnds (if s.params.encOutCap.toNat < c.length then .error (5, .bufferBound)
        else .ok (c, { s.enc.diag with bitcnt := w.bitcnt })) t.enc := by
  intro w c
  obtain ⟨r0, tr, m1, -, -, m4, m5⟩ := codeTableOf_spec f hd
  have hbuilt : s.encWork.built = buildOf f := by rw [hf]; rfl
  obtain ⟨t, h1, h2, h3, h4⟩ := execTbBuild_some hn (hbuilt ▸ m1)
  obtain ⟨-, -, -, -, -, hbc, hbp⟩ := buildOf_spec f hd
  rw [hbuilt] at h4
  generalize buildOf f = bw at h4 hbc hbp m4
  have hcode : t.encWork.code = [] := by rw [h4]; exact hbc
  have hpay : t.encWork.pay = [] := by rw [h4]; exact hbp
  have ha : assignCodes t.encWork.node t.encWork.root t.encWork.code = .ok (codeTableOf f) := by
    rw [hcode, h4, m5]
    exact m4
  obtain ⟨r, r1, r2, r3⟩ := assign_run n t x (codeTableOf f) (by rw [h3]; exact hb) (by rw [h3]; rfl) (by rw [h3]; exact he)
    (by rw [h3]; exact ho) (hx.kept h2) (by rw [h3]; exact hbit) hpay ha
  refine ⟨r, ?_, h2.trans r2, ?_⟩
  · rw [unitRun_busy (State.busy_enc hb), unitPhase_build hp, h1]
    exact r1
  · rw [h2.params, h3] at r3
    exact r3

theorem HasInput.inLen_eq {u : UnitId} {s : State} {x : List Byte} (h : HasInput u s x) :
    (s.block u).inLen = BitVec.ofNat 32 x.length := by
  apply BitVec.eq_of_toNat_eq
  rw [BitVec.toNat_ofNat, Nat.mod_eq_of_lt h.length_lt]
  exact h.1

/-- A whole `ENCODE` (R160). -/
theorem encode_run (s : State) (x : List Byte) (h : EncStart s) (hx : HasInput .enc s x) :
    ∃ t, unitRun .enc 5 s = .next t ∧ Kept .enc s t ∧ EncEnds (encodeOutcome s.params x) t.enc := by
  rw [unitRun_busy (State.busy_enc h.state), unitPhase_count h.phase]
  have hin : s.input .enc = x := hx.input
  have hfr : s.encWork.freq = [] := by rw [h.work]; rfl
  unfold encodeOutcome
  cases hc : countBytes s.params.cntW [] x with
  | none =>
    have : execFtCount s = .next (s.raise .enc .overflow) := by rw [execFtCount, hin, hfr, hc]
    rw [this]
    exact ⟨_, unitRun_idle (State.busy_raise s .enc .overflow), State.raise_kept s .enc _, raise_encEnds s 1 .overflow h.phase⟩
  | some f =>
    obtain ⟨t, h1, h2, h3, h4⟩ := execFtCount_some (s := s) (f := f) (by rw [hin, hfr, hc])
    have hlen : s.enc.inLen = BitVec.ofNat 32 x.length := hx.inLen_eq
    have hx32 := hx.length_lt
    have hd := distinctSymbols_le f
    have hd9 : (BitVec.ofNat 9 (distinctSymbols f)).toNat = distinctSymbols f := by rw [BitVec.toNat_ofNat]; omega
    have hl32 : (BitVec.ofNat 32 x.length).toNat = x.length := by rw [BitVec.toNat_ofNat]; omega
    rw [h.work] at h4
    have hns : t.enc.diag.nsym.toNat = distinctSymbols f := by rw [h3]; exact hd9
    have hsc : t.enc.diag.symcnt = BitVec.ofNat 32 x.length := by rw [h3]; exact hlen
    have hbit : t.enc.diag.bitcnt = 0 := by rw [h3]; exact h.bitcnt
    have hst : t.enc.state = .busy := by rw [h3]; exact h.state
    have her : t.enc.err = .none := by rw [h3]; exact h.err
    have hou : t.enc.outBuf = [] := by rw [h3]; exact h.outBuf
    have hdiag : ∀ b, ({ t.enc.diag with bitcnt := b } : Diag) =
        { nsym := BitVec.ofNat 9 (distinctSymbols f), symcnt := BitVec.ofNat 32 x.length, bitcnt := b } := by
      intro b; rw [h3, hlen]
    rw [h1]
    simp only [andThen]
    by_cases h0 : distinctSymbols f = 0
    · have hph : t.enc.phase = 5 := by rw [h3]; simp [h0, phaseSerialize]
      obtain ⟨r, r1, r2, r3⟩ := serialize_run 3 t hst hph her hou
      refine ⟨r, r1, h2.trans r2, ?_⟩
      have hcont : t.container = containerBytes (distinctSymbols f) x.length [] BitWriter.empty.pay := by
        simp only [State.container, hns, hsc, hl32, h4]
        rfl
      rw [hcont, h2.params, show t.enc.diag = { t.enc.diag with bitcnt := t.enc.diag.bitcnt } from rfl, hdiag, hbit] at r3
      simp only [if_pos h0]
      exact r3
    · have hph : t.enc.phase = 2 := by rw [h3]; simp [h0, phaseBuild]
      have hn : t.enc.diag.nsym ≠ 0 := by
        intro e
        rw [e] at hns
        simp at hns
        omega
      obtain ⟨r, r1, r2, r3⟩ := build_run 0 t x f hst hph her hou (hx.kept h2) hbit h4 (by omega) hn
      refine ⟨r, r1, h2.trans r2, ?_⟩
      rw [hns, hsc, hl32, h2.params, hdiag] at r3
      simp only [if_neg h0]
      exact r3

end Sys2Proof.Machine
end

