-- ==== Sys2Proof/Laws/Trie.lean ====
section
/-! SUPPORT. The laws of the decoder's trie (46_decoder.md R178, R179): what an insertion does to the paths of a trie, when a
set of codes can be inserted, and that the trie then spells them. -/

namespace Sys2Proof.Machine

/-- The node a path leads to. -/
def Trie.follow (t : Trie) (n : Nat) (p : Bits) : Option Nat :=
  match p with
  | [] => some n
  | b :: p =>
    match t.child n b with
    | none => none
    | some m => Trie.follow t m p

theorem Trie.follow_append (t : Trie) (n : Nat) (p q : Bits) :
    t.follow n (p ++ q) = (t.follow n p).bind (fun m => t.follow m q) := by
  induction p generalizing n with
  | nil => rfl
  | cons b p ih =>
    simp only [List.cons_append, Trie.follow]
    cases t.child n b with
    | none => rfl
    | some m => exact ih m

theorem Trie.follow_snoc (t : Trie) (n : Nat) (p : Bits) (b : Bool) :
    t.follow n (p ++ [b]) = (t.follow n p).bind (fun m => t.child m b) := by
  rw [Trie.follow_append]
  congr 1
  funext m
  simp only [Trie.follow]
  cases t.child m b <;> rfl

theorem Trie.lt_of_child {t : Trie} {n : Nat} {b : Bool} {m : Nat} (h : t.child n b = some m) : n < t.length := by
  by_contra hge
  simp [Trie.child, List.getElem?_eq_none (Nat.le_of_not_lt hge)] at h

/-- Children after a new entry is hung under `cur` (R178). -/
theorem Trie.child_grow {t : Trie} {cur : Nat} {b : Bool} (x : TrieNode) (hx : x = .internal none none ∨ ∃ s, x = .leaf s)
    (hcur : cur < t.length) (hleaf : t.leafAt cur = none) (n : Nat) (c : Bool) :
    Trie.child (Trie.setChild (t ++ [x]) cur b t.length) n c =
      if n = cur ∧ c = b then some t.length else t.child n c := by
  have hcx : t[cur]? = some t[cur] := List.getElem?_eq_getElem hcur
  by_cases hn : n = cur
  · subst hn
    have happ : (t ++ [x])[n]? = some t[n] := by rw [List.getElem?_append_left hcur, hcx]
    unfold Trie.leafAt at hleaf
    rw [hcx] at hleaf
    simp only [Trie.child, Trie.setChild, List.getElem?_modify, happ, hcx]
    cases hk : t[n] with
    | leaf s => simp [hk] at hleaf
    | internal c0 c1 => cases b <;> cases c <;> simp
  · have h1 : ¬ (n = cur ∧ c = b) := fun h => hn h.1
    rw [if_neg h1]
    have hne : cur ≠ n := fun e => hn e.symm
    simp only [Trie.child, Trie.setChild, List.getElem?_modify, hne, if_false, Option.map_eq_map, Option.map_id']
    by_cases hlt : n < t.length
    · rw [List.getElem?_append_left hlt]
    · rw [List.getElem?_append_right (by omega), List.getElem?_eq_none (by omega : t.length ≤ n)]
      cases hq : [x][n - t.length]? with
      | none => rfl
      | some y =>
        have : y = x := by
          have := List.mem_of_getElem? hq
          simpa using this
        subst this
        rcases hx with rfl | ⟨s, rfl⟩
        · cases c <;> rfl
        · rfl

/-- The symbol of a new entry, if it is a leaf. -/
def TrieNode.leafSym (x : TrieNode) : Option Byte :=
  match x with
  | .leaf s => some s
  | .internal _ _ => none

theorem Trie.leafAt_grow {t : Trie} {cur : Nat} {b : Bool} (x : TrieNode) (n : Nat)
    (hn : n < t.length) : Trie.leafAt (Trie.setChild (t ++ [x]) cur b t.length) n = t.leafAt n := by
  unfold Trie.leafAt Trie.setChild
  rw [List.getElem?_modify, List.getElem?_append_left hn]
  rw [List.getElem?_eq_getElem hn]
  by_cases h : cur = n
  · subst h
    cases hk : t[cur] with
    | leaf s => cases b <;> simp
    | internal c0 c1 => cases b <;> simp
  · simp [h]

theorem Trie.leafAt_new {t : Trie} {cur : Nat} {b : Bool} (x : TrieNode) (hcur : cur < t.length) :
    Trie.leafAt (Trie.setChild (t ++ [x]) cur b t.length) t.length = x.leafSym := by
  unfold Trie.leafAt Trie.setChild
  rw [List.getElem?_modify]
  have h : cur ≠ t.length := by omega
  simp [h]
  cases x <;> rfl

/-- What holds of a trie with the non-empty paths `P`, of which `L` gives the leaves' symbols. -/
structure TrieInv (t : Trie) (P : Finset Bits) (L : Bits → Option Byte) : Prop where
  paths : ∀ p, (t.follow 0 p).isSome ↔ p = [] ∨ p ∈ P
  lt    : ∀ p n, t.follow 0 p = some n → n < t.length
  inj   : ∀ p q n, t.follow 0 p = some n → t.follow 0 q = some n → p = q
  kind  : ∀ p n, t.follow 0 p = some n → t.leafAt n = L p
  leafP : ∀ p, L p ≠ none → p ∈ P
  nil   : [] ∉ P
  card  : t.length = 1 + P.card

/-- A new entry under a node that is no leaf and has no such child adds exactly one path. -/
theorem TrieInv.grow {t : Trie} {P : Finset Bits} {L : Bits → Option Byte} (h : TrieInv t P L) {p : Bits} {cur : Nat}
    {b : Bool} (x : TrieNode) (hx : x = .internal none none ∨ ∃ s, x = .leaf s) (hp : t.follow 0 p = some cur)
    (hleaf : L p = none) (hchild : t.child cur b = none) :
    TrieInv (Trie.setChild (t ++ [x]) cur b t.length) (insert (p ++ [b]) P)
      (fun q => if q = p ++ [b] then x.leafSym else L q) ∧
      p ++ [b] ∉ P ∧ Trie.follow (Trie.setChild (t ++ [x]) cur b t.length) 0 (p ++ [b]) = some t.length := by
  have hcur := h.lt p cur hp
  have hlc : t.leafAt cur = none := by rw [h.kind p cur hp, hleaf]
  have hnone : t.follow 0 (p ++ [b]) = none := by rw [Trie.follow_snoc, hp]; exact hchild
  have hnotP : p ++ [b] ∉ P := by
    intro hm
    have := (h.paths (p ++ [b])).2 (Or.inr hm)
    rw [hnone] at this
    simp at this
  have hfol : ∀ q, Trie.follow (Trie.setChild (t ++ [x]) cur b t.length) 0 q =
      if q = p ++ [b] then some t.length else t.follow 0 q := by
    intro q
    induction q using List.reverseRecOn with
    | nil => simp [Trie.follow]
    | append_singleton q c ih =>
      rw [Trie.follow_snoc, ih]
      by_cases hq : q = p ++ [b]
      · subst hq
        have hne : ¬ (p ++ [b] ++ [c] = p ++ [b]) := by intro e; simpa using congrArg List.length e
        rw [if_pos rfl, if_neg hne, Trie.follow_snoc, hnone]
        simp only [Option.bind_some, Option.bind_none]
        rw [Trie.child_grow x hx hcur hlc, if_neg (by omega)]
        simp [Trie.child]
      · rw [if_neg hq]
        cases hqn : t.follow 0 q with
        | none =>
          have hne : ¬ (q ++ [c] = p ++ [b]) := by
            intro e
            have := (List.append_inj' e rfl).1
            subst this
            rw [hp] at hqn; simp at hqn
          rw [if_neg hne, Trie.follow_snoc, hqn]
          rfl
        | some n =>
          simp only [Option.bind_some]
          rw [Trie.child_grow x hx hcur hlc]
          by_cases hnc : n = cur ∧ c = b
          · obtain ⟨rfl, rfl⟩ := hnc
            have := h.inj q p n hqn hp
            subst this
            simp
          · have hne : ¬ (q ++ [c] = p ++ [b]) := by
              intro e
              obtain ⟨e1, e2⟩ := List.append_inj' e rfl
              subst e1
              rw [hp] at hqn
              exact hnc ⟨by simpa using hqn.symm, by simpa using e2⟩
            rw [if_neg hnc, if_neg hne, Trie.follow_snoc, hqn]
            rfl
  have hlen : (Trie.setChild (t ++ [x]) cur b t.length).length = t.length + 1 := by simp [Trie.setChild]
  refine ⟨⟨?_, ?_, ?_, ?_, ?_, ?_, ?_⟩, hnotP, by rw [hfol, if_pos rfl]⟩
  · intro q
    rw [hfol]
    by_cases hq : q = p ++ [b]
    · simp [hq]
    · rw [if_neg hq, h.paths, Finset.mem_insert]
      simp [hq]
  · intro q n hn
    rw [hfol] at hn
    rw [hlen]
    split at hn
    · simp at hn; omega
    · have := h.lt q n hn; omega
  · intro q r n hq hr
    rw [hfol] at hq hr
    split at hq <;> split at hr
    · simp_all
    · have := h.lt r n hr; simp at hq; omega
    · have := h.lt q n hq; simp at hr; omega
    · exact h.inj q r n hq hr
  · intro q n hn
    rw [hfol] at hn
    by_cases hq : q = p ++ [b]
    · simp only [hq, if_true] at hn ⊢
      obtain rfl : t.length = n := by simpa using hn
      exact Trie.leafAt_new x hcur
    · simp only [hq, if_false] at hn ⊢
      rw [Trie.leafAt_grow x n (h.lt q n hn)]
      exact h.kind q n hn
  · intro q hq
    rw [Finset.mem_insert]
    by_cases hqe : q = p ++ [b]
    · exact Or.inl hqe
    · simp only [hqe, if_false] at hq
      exact Or.inr (h.leafP q hq)
  · rw [Finset.mem_insert]
    rintro (e | e)
    · simpa using congrArg List.length e
    · exact h.nil e
  · rw [hlen, Finset.card_insert_of_notMem hnotP, h.card]
    omega

/-- The non-empty prefixes of `bs`, behind `q`. -/
def newPaths (q bs : Bits) : Finset Bits := (bs.inits.tail.map (fun r => q ++ r)).toFinset

theorem mem_newPaths {q bs p : Bits} : p ∈ newPaths q bs ↔ ∃ r, r ≠ [] ∧ r <+: bs ∧ p = q ++ r := by
  have key : ∀ r : Bits, r ∈ bs.inits.tail ↔ r ≠ [] ∧ r <+: bs := by
    intro r
    cases bs with
    | nil => simp
    | cons b bs =>
      have : (b :: bs).inits.tail = bs.inits.map (fun t => b :: t) := by simp
      rw [this, List.mem_map]
      constructor
      · rintro ⟨r', h, rfl⟩
        rw [List.mem_inits] at h
        exact ⟨by simp, by simpa using h⟩
      · rintro ⟨hne, hpre⟩
        cases r with
        | nil => exact absurd rfl hne
        | cons c r =>
          rw [List.cons_prefix_cons] at hpre
          exact ⟨r, by rw [List.mem_inits]; exact hpre.2, by rw [hpre.1]⟩
  simp only [newPaths, List.mem_toFinset, List.mem_map, key]
  constructor
  · rintro ⟨r, ⟨h1, h2⟩, rfl⟩; exact ⟨r, h1, h2, rfl⟩
  · rintro ⟨r, h1, h2, rfl⟩; exact ⟨r, ⟨h1, h2⟩, rfl⟩

/-- When the bits can be placed below a path `q`: no leaf on the way, the end not taken, room in the arena. -/
def Placeable (P : Finset Bits) (L : Bits → Option Byte) (q bs : Bits) : Prop :=
  (∀ r, r <+: bs → r ≠ bs → L (q ++ r) = none) ∧ q ++ bs ∉ P ∧ 1 + (P ∪ newPaths q bs).card ≤ Config.nodeCap

/-- What the loop of R178 does: it places the bits exactly when it can, and adds exactly their paths. -/
theorem Trie.place_spec {t : Trie} {P : Finset Bits} {L : Bits → Option Byte} (s : Byte) (h : TrieInv t P L)
    (hcap : t.length ≤ Config.nodeCap) {q : Bits} {cur : Nat} (hq : t.follow 0 q = some cur) (bs : Bits) (hne : bs ≠ []) :
    match t.place s cur bs with
    | some t' => Placeable P L q bs ∧ TrieInv t' (P ∪ newPaths q bs) (fun p => if p = q ++ bs then some s else L p)
    | none => ¬ Placeable P L q bs := by
  induction bs generalizing t P L q cur with
  | nil => exact absurd rfl hne
  | cons b rest ih =>
    have hkind := h.kind q cur hq
    have hqb : ∀ r, q ++ b :: r = q ++ [b] ++ r := by intro r; simp
    unfold Trie.place
    rw [hkind]
    cases hL : L q with
    | some s0 =>
      rintro ⟨h1, -, -⟩
      have := h1 [] (List.nil_prefix) (by simp)
      simp [hL] at this
    | none =>
      have hpathb : (t.child cur b).isSome ↔ q ++ [b] ∈ P := by
        have := h.paths (q ++ [b])
        rw [Trie.follow_snoc, hq] at this
        simpa using this
      have hnew : newPaths q (b :: rest) = insert (q ++ [b]) (newPaths (q ++ [b]) rest) := by
        ext p
        rw [Finset.mem_insert, mem_newPaths, mem_newPaths]
        constructor
        · rintro ⟨r, hr0, hr, rfl⟩
          cases r with
          | nil => exact absurd rfl hr0
          | cons c r =>
            rw [List.cons_prefix_cons] at hr
            obtain ⟨rfl, hr⟩ := hr
            by_cases hr1 : r = []
            · left; simp [hr1]
            · right; exact ⟨r, hr1, hr, by simp⟩
        · rintro (rfl | ⟨r, hr0, hr, rfl⟩)
          · exact ⟨[b], by simp, by simp, rfl⟩
          · exact ⟨b :: r, by simp, by simpa using hr, by simp⟩
      cases rest with
      | nil =>
        cases hc : t.child cur b with
        | some nxt =>
          rintro ⟨-, h2, -⟩
          exact h2 (hpathb.1 (by rw [hc]; rfl))
        | none =>
          have hnotP : q ++ [b] ∉ P := by rw [← hpathb, hc]; simp
          simp only [Trie.alloc]
          have hN : newPaths q [b] = {q ++ [b]} := by
            rw [hnew]; ext p; simp [mem_newPaths]
          by_cases hfull : t.length = Config.nodeCap
          · rw [if_pos hfull]
            rintro ⟨-, -, h3⟩
            rw [hN, Finset.union_comm, ← Finset.insert_eq, Finset.card_insert_of_notMem hnotP] at h3
            have := h.card
            omega
          · rw [if_neg hfull]
            obtain ⟨hg, -, -⟩ := h.grow (.leaf s) (Or.inr ⟨s, rfl⟩) hq hL hc
            refine ⟨⟨?_, hnotP, ?_⟩, ?_⟩
            · intro r hr hrne
              rw [List.prefix_cons_iff] at hr
              rcases hr with rfl | ⟨r', rfl, hr'⟩
              · simpa using hL
              · simp at hr'; subst hr'; exact absurd rfl hrne
            · rw [hN, Finset.union_comm, ← Finset.insert_eq, Finset.card_insert_of_notMem hnotP]
              have := h.card
              omega
            · rw [hN, Finset.union_comm, ← Finset.insert_eq]
              exact hg
      | cons b' rest =>
        have hrec : ∀ P', P ∪ newPaths q (b :: b' :: rest) = P' ∪ newPaths (q ++ [b]) (b' :: rest) →
            (q ++ b :: b' :: rest ∈ P ↔ q ++ [b] ++ b' :: rest ∈ P') →
            (Placeable P L q (b :: b' :: rest) ↔ Placeable P' L (q ++ [b]) (b' :: rest)) := by
          intro P' hP' hmem
          unfold Placeable
          rw [hP', hmem]
          refine and_congr ⟨?_, ?_⟩ Iff.rfl
          · intro hh r hr hrne
            have := hh (b :: r) (by simpa using hr) (by simpa using hrne)
            simpa using this
          · intro hh r hr hrne
            cases r with
            | nil => simpa using hL
            | cons c r =>
              rw [List.cons_prefix_cons] at hr
              obtain ⟨rfl, hr⟩ := hr
              have := hh r hr (by rintro rfl; exact hrne rfl)
              simpa using this
        cases hc : t.child cur b with
        | some nxt =>
          have hin : q ++ [b] ∈ P := hpathb.1 (by rw [hc]; rfl)
          have hfol : t.follow 0 (q ++ [b]) = some nxt := by rw [Trie.follow_snoc, hq]; exact hc
          have hun : P ∪ newPaths q (b :: b' :: rest) = P ∪ newPaths (q ++ [b]) (b' :: rest) := by
            rw [hnew, Finset.union_insert, ← Finset.insert_union, Finset.insert_eq_of_mem hin]
          have := ih h hcap hfol (by simp)
          simp only
          cases hpl : t.place s nxt (b' :: rest) with
          | some t' =>
            rw [hpl] at this
            refine ⟨(hrec P hun (by simp)).2 this.1, ?_⟩
            rw [hun, hqb (b' :: rest)]
            exact this.2
          | none =>
            rw [hpl] at this
            exact fun hp => this ((hrec P hun (by simp)).1 hp)
        | none =>
          have hnotP : q ++ [b] ∉ P := by rw [← hpathb, hc]; simp
          simp only [Trie.alloc]
          by_cases hfull : t.length = Config.nodeCap
          · rw [if_pos hfull]
            rintro ⟨-, -, h3⟩
            have hsub : insert (q ++ [b]) P ⊆ P ∪ newPaths q (b :: b' :: rest) := by
              rw [hnew]
              intro p hp
              rw [Finset.mem_insert] at hp
              simp only [Finset.mem_union, Finset.mem_insert]
              tauto
            have := Finset.card_le_card hsub
            rw [Finset.card_insert_of_notMem hnotP] at this
            have := h.card
            omega
          · rw [if_neg hfull]
            obtain ⟨hg, -, hgf⟩ := h.grow (.internal none none) (Or.inl rfl) hq hL hc
            have hL' : (fun p => if p = q ++ [b] then (none : Option Byte) else L p) = L := by
              funext p
              by_cases hp : p = q ++ [b]
              · simp only [hp, if_true]
                by_contra hne'
                exact hnotP (h.leafP _ (fun e => hne' e.symm))
              · simp [hp]
            have hg' : TrieInv (Trie.setChild (t ++ [.internal none none]) cur b t.length) (insert (q ++ [b]) P) L := by
              have hsym : (TrieNode.internal none none).leafSym = none := rfl
              rwa [hsym, hL'] at hg
            have hun : P ∪ newPaths q (b :: b' :: rest) = insert (q ++ [b]) P ∪ newPaths (q ++ [b]) (b' :: rest) := by
              rw [hnew, Finset.union_insert, Finset.insert_union]
            have hmem : q ++ b :: b' :: rest ∈ P ↔ q ++ [b] ++ b' :: rest ∈ insert (q ++ [b]) P := by
              rw [Finset.mem_insert, hqb]
              constructor
              · exact Or.inr
              · rintro (e | e)
                · have := congrArg List.length e; simp at this
                · exact e
            have := ih hg' (by simp [Trie.setChild]; omega) hgf (by simp)
            simp only
            cases hpl : Trie.place (Trie.setChild (t ++ [.internal none none]) cur b t.length) s t.length (b' :: rest) with
            | some t' =>
              rw [hpl] at this
              refine ⟨(hrec _ hun hmem).2 this.1, ?_⟩
              rw [hun, hqb (b' :: rest)]
              exact this.2
            | none =>
              rw [hpl] at this
              exact fun hp => this ((hrec _ hun hmem).1 hp)

/-! Sets of entries. -/

/-- The paths of a set of codes. -/
def codePaths (cs : List Bits) : Finset Bits := (cs.flatMap (fun c => c.inits.tail)).toFinset

theorem trieNodes_eq (cs : List Bits) : trieNodes cs = 1 + (codePaths cs).card := by
  simp [trieNodes, codePaths, List.card_toFinset]

theorem mem_codePaths {cs : List Bits} {p : Bits} : p ∈ codePaths cs ↔ p ≠ [] ∧ ∃ c ∈ cs, p <+: c := by
  have hn : ∀ c : Bits, p ∈ c.inits.tail ↔ p ≠ [] ∧ p <+: c := by
    intro c
    have := @mem_newPaths [] c p
    simp only [newPaths, List.nil_append, List.map_id', List.mem_toFinset] at this
    rw [this]
    constructor
    · rintro ⟨r, h1, h2, rfl⟩; exact ⟨h1, h2⟩
    · rintro ⟨h1, h2⟩; exact ⟨p, h1, h2, rfl⟩
  simp only [codePaths, List.mem_toFinset, List.mem_flatMap, hn]
  constructor
  · rintro ⟨c, hc, h1, h2⟩; exact ⟨h1, c, hc, h2⟩
  · rintro ⟨h1, c, hc, h2⟩; exact ⟨c, hc, h1, h2⟩

theorem codePaths_snoc (cs : List Bits) (c : Bits) : codePaths (cs ++ [c]) = codePaths cs ∪ newPaths [] c := by
  ext p
  rw [Finset.mem_union, mem_codePaths, mem_codePaths, mem_newPaths]
  constructor
  · rintro ⟨h1, d, hd, h2⟩
    rcases List.mem_append.1 hd with hd | hd
    · exact Or.inl ⟨h1, d, hd, h2⟩
    · simp at hd; subst hd; exact Or.inr ⟨p, h1, h2, rfl⟩
  · rintro (⟨h1, d, hd, h2⟩ | ⟨r, h1, h2, rfl⟩)
    · exact ⟨h1, d, by simp [hd], h2⟩
    · exact ⟨h1, c, by simp, h2⟩

theorem codePaths_mono {cs ds : List Bits} (h : cs ⊆ ds) : codePaths cs ⊆ codePaths ds := by
  intro p hp
  rw [mem_codePaths] at hp ⊢
  exact ⟨hp.1, hp.2.choose, h hp.2.choose_spec.1, hp.2.choose_spec.2⟩

/-- The trie of the entries inserted so far. -/
structure Inserted (t : Trie) (seen : Table Unit) (es : List Entry) (L : Bits → Option Byte) : Prop where
  inv   : TrieInv t (codePaths (es.map Entry.bits)) L
  leaf  : ∀ p s, L p = some s ↔ ∃ e ∈ es, e.bits = p ∧ e.sym = s
  seenWf : Table.Wf seen
  marks : ∀ i, (Table.get seen i).isSome ↔ ∃ e ∈ es, e.sym.toNat = i
  ok    : Buildable es

/-- One insertion (R178). -/
theorem Inserted.insert {t : Trie} {seen : Table Unit} {es : List Entry} {L : Bits → Option Byte} (h : Inserted t seen es L)
    (e : Entry) (he : e.bits ≠ []) :
    match trieInsert t seen e.sym e.bits with
    | some (t', seen') => ∃ L', Inserted t' seen' (es ++ [e]) L'
    | none => ¬ Buildable (es ++ [e]) := by
  obtain ⟨hnd, hpf, hcap⟩ := h.ok
  have hlen : t.length ≤ Config.nodeCap := by rw [h.inv.card, ← trieNodes_eq]; exact hcap
  have hspec := Trie.place_spec e.sym h.inv hlen (q := []) (cur := 0) rfl e.bits he
  have hNd : ((es ++ [e]).map Entry.sym).Nodup ↔ ∀ d ∈ es, d.sym ≠ e.sym := by
    rw [List.map_append, List.nodup_append]
    simp [hnd]
  have hPf : PrefixFree ((es ++ [e]).map Entry.bits) ↔
      ∀ d ∈ es, ¬ d.bits <+: e.bits ∧ ¬ e.bits <+: d.bits := by
    rw [PrefixFree, List.map_append, List.pairwise_append]
    simp [hpf]
  have hPl : Placeable (codePaths (es.map Entry.bits)) L [] e.bits ↔
      (∀ d ∈ es, ¬ d.bits <+: e.bits ∧ ¬ e.bits <+: d.bits) ∧ trieNodes ((es ++ [e]).map Entry.bits) ≤ Config.nodeCap := by
    have hcard : trieNodes ((es ++ [e]).map Entry.bits) = 1 + (codePaths (es.map Entry.bits) ∪ newPaths [] e.bits).card := by
      rw [trieNodes_eq, List.map_append, List.map_singleton, codePaths_snoc]
    unfold Placeable
    rw [hcard, ← and_assoc]
    refine and_congr ⟨?_, ?_⟩ Iff.rfl
    · rintro ⟨h1, h2⟩ d hd
      have h2' : ¬ e.bits <+: d.bits := by
        intro hc
        exact h2 (by rw [List.nil_append, mem_codePaths]; exact ⟨he, d.bits, List.mem_map_of_mem hd, hc⟩)
      refine ⟨fun hc => ?_, h2'⟩
      by_cases heq : d.bits = e.bits
      · exact h2' (by rw [heq])
      · have := h1 d.bits hc heq
        have h3 : L d.bits = some d.sym := (h.leaf _ _).2 ⟨d, hd, rfl, rfl⟩
        simp [h3] at this
    · intro hh
      refine ⟨?_, ?_⟩
      · intro r hr hrne
        cases hLr : L ([] ++ r) with
        | none => rfl
        | some s =>
          obtain ⟨d, hd, hdb, -⟩ := (h.leaf _ _).1 hLr
          simp at hdb
          exact absurd (hdb ▸ hr) (hh d hd).1
      · rw [List.nil_append, mem_codePaths]
        rintro ⟨-, c, hc, hpre⟩
        obtain ⟨d, hd, rfl⟩ := List.mem_map.1 hc
        exact (hh d hd).2 hpre
  unfold trieInsert
  by_cases hseen : (Table.get seen e.sym.toNat).isSome
  · rw [if_pos hseen]
    rintro ⟨h1, -, -⟩
    obtain ⟨d, hd, hds⟩ := (h.marks _).1 hseen
    exact hNd.1 h1 d hd (BitVec.eq_of_toNat_eq hds)
  · rw [if_neg hseen]
    have hfreshSym : ∀ d ∈ es, d.sym ≠ e.sym := by
      intro d hd heq
      exact hseen ((h.marks _).2 ⟨d, hd, by rw [heq]⟩)
    cases hp : t.place e.sym 0 e.bits with
    | none =>
      rw [hp] at hspec
      rintro ⟨-, h2, h3⟩
      exact hspec (hPl.2 ⟨hPf.1 h2, h3⟩)
    | some t' =>
      rw [hp] at hspec
      obtain ⟨hpl, hinv⟩ := hspec
      have hok := hPl.1 hpl
      refine ⟨fun p => if p = [] ++ e.bits then some e.sym else L p,
        ⟨?_, ?_, Table.set_wf _ _ h.seenWf, ?_, ⟨hNd.2 hfreshSym, hPf.2 hok.1, hok.2⟩⟩⟩
      · rw [List.map_append, List.map_singleton, codePaths_snoc]
        exact hinv
      · intro p s
        by_cases hpe : p = e.bits
        · subst hpe
          simp only [List.nil_append, if_true, Option.some.injEq]
          constructor
          · rintro rfl; exact ⟨e, by simp, rfl, rfl⟩
          · rintro ⟨d, hd, hdb, rfl⟩
            rcases List.mem_append.1 hd with hd | hd
            · exact absurd (by rw [hdb]) (hok.1 d hd).1
            · simp at hd; rw [hd]
        · simp only [List.nil_append, hpe, if_false, h.leaf]
          constructor
          · rintro ⟨d, hd, h1, h2⟩; exact ⟨d, by simp [hd], h1, h2⟩
          · rintro ⟨d, hd, h1, h2⟩
            rcases List.mem_append.1 hd with hd | hd
            · exact ⟨d, hd, h1, h2⟩
            · simp at hd; subst hd; exact absurd h1.symm hpe
      · intro i
        rw [Table.get_set]
        by_cases hi : e.sym.toNat = i
        · simp [hi]
        · rw [if_neg hi, h.marks]
          constructor
          · rintro ⟨d, hd, h1⟩; exact ⟨d, by simp [hd], h1⟩
          · rintro ⟨d, hd, h1⟩
            rcases List.mem_append.1 hd with hd | hd
            · exact ⟨d, hd, h1⟩
            · simp at hd; subst hd; exact absurd h1 hi

theorem Buildable.of_append {es ds : List Entry} (h : Buildable (es ++ ds)) : Buildable es := by
  obtain ⟨h1, h2, h3⟩ := h
  rw [List.map_append] at h1 h2 h3
  refine ⟨h1.sublist (List.sublist_append_left _ _), h2.sublist (List.sublist_append_left _ _), ?_⟩
  refine Nat.le_trans ?_ h3
  rw [trieNodes_eq, trieNodes_eq]
  exact Nat.add_le_add_left (Finset.card_le_card (codePaths_mono (List.subset_append_left _ _))) 1

/-- All insertions (R179). -/
theorem Inserted.insertAll {t : Trie} {seen : Table Unit} {es : List Entry} {L : Bits → Option Byte} (h : Inserted t seen es L)
    (ds : List Entry) (hds : ∀ d ∈ ds, d.bits ≠ []) :
    match insertEntries t seen ds with
    | some (t', seen') => ∃ L', Inserted t' seen' (es ++ ds) L'
    | none => ¬ Buildable (es ++ ds) := by
  induction ds generalizing t seen es L with
  | nil => simp only [insertEntries, List.append_nil]; exact ⟨L, h⟩
  | cons d ds ih =>
    have h1 := h.insert d (hds d (by simp))
    unfold insertEntries
    cases hi : trieInsert t seen d.sym d.bits with
    | none =>
      rw [hi] at h1
      intro hb
      have : Buildable (es ++ [d] ++ ds) := by simpa using hb
      exact h1 this.of_append
    | some p =>
      obtain ⟨t1, seen1⟩ := p
      rw [hi] at h1
      obtain ⟨L1, h1⟩ := h1
      have := ih h1 (fun d' hd' => hds d' (by simp [hd']))
      simpa using this

/-- The root alone. -/
theorem Inserted.root : Inserted [.internal none none] [] [] (fun _ => none) := by
  refine ⟨⟨?_, ?_, ?_, ?_, ?_, ?_, ?_⟩, ?_, ?_, ?_, ?_⟩
  · intro p
    cases p with
    | nil => simp [Trie.follow]
    | cons b p => cases b <;> simp [Trie.follow, Trie.child, codePaths]
  · intro p n h
    cases p with
    | nil => simp [Trie.follow] at h; simp [← h]
    | cons b p => cases b <;> simp [Trie.follow, Trie.child] at h
  · intro p q n hp hq
    cases p with
    | cons b p => cases b <;> simp [Trie.follow, Trie.child] at hp
    | nil =>
      cases q with
      | cons b q => cases b <;> simp [Trie.follow, Trie.child] at hq
      | nil => rfl
  · intro p n h
    cases p with
    | cons b p => cases b <;> simp [Trie.follow, Trie.child] at h
    | nil => simp [Trie.follow] at h; subst h; rfl
  · simp
  · simp [codePaths]
  · simp [codePaths]
  · simp
  · exact List.Pairwise.nil
  · simp
  · refine ⟨by simp, by simp [PrefixFree], ?_⟩
    simp [trieNodes, Config.nodeCap]

theorem Trie.spells_of_follow {t : Trie} {n m : Nat} {s : Byte} (bs : Bits) (hne : bs ≠ []) (hf : t.follow n bs = some m)
    (hl : t.leafAt m = some s)
    (hin : ∀ r k, r <+: bs → r ≠ [] → r ≠ bs → t.follow n r = some k → t.leafAt k = none) : t.Spells n bs s := by
  induction bs generalizing n with
  | nil => exact absurd rfl hne
  | cons b rest ih =>
    cases rest with
    | nil =>
      simp only [Trie.follow] at hf
      cases hc : t.child n b with
      | none => simp [hc] at hf
      | some k =>
        simp only [hc, Option.some.injEq] at hf
        subst hf
        exact ⟨k, hc, hl⟩
    | cons b' rest =>
      rw [Trie.follow] at hf
      cases hc : t.child n b with
      | none => simp [hc] at hf
      | some k =>
        rw [hc] at hf
        have h1 : t.leafAt k = none := hin [b] k (by simp) (by simp) (by simp) (by simp [Trie.follow, hc])
        refine ⟨k, hc, h1, ih (by simp) hf ?_⟩
        intro r j hr hr0 hr1 hfj
        exact hin (b :: r) j (by simpa using hr) (by simp) (by simpa using hr1) (by simp [Trie.follow, hc, hfj])

/-- The trie of a set of entries spells each of them (R179). -/
theorem Inserted.spells {t : Trie} {seen : Table Unit} {es : List Entry} {L : Bits → Option Byte} (h : Inserted t seen es L)
    (e : Entry) (he : e ∈ es) (hne : e.bits ≠ []) : t.Spells 0 e.bits e.sym := by
  have hL : L e.bits = some e.sym := (h.leaf _ _).2 ⟨e, he, rfl, rfl⟩
  have hsome := (h.inv.paths e.bits).2 (Or.inr (h.inv.leafP _ (by rw [hL]; simp)))
  obtain ⟨m, hm⟩ := Option.isSome_iff_exists.1 hsome
  refine Trie.spells_of_follow e.bits hne hm (by rw [h.inv.kind _ _ hm, hL]) ?_
  intro r k hr _ hrne hk
  rw [h.inv.kind _ _ hk]
  cases hLr : L r with
  | none => rfl
  | some s =>
    obtain ⟨d, hd, rfl, -⟩ := (h.leaf _ _).1 hLr
    have hpf := h.ok.2.1
    have hde : d ≠ e := by rintro rfl; exact hrne rfl
    have hpw : es.Pairwise (fun a b => ¬ a.bits <+: b.bits ∧ ¬ b.bits <+: a.bits) := by
      rw [PrefixFree, List.pairwise_map] at hpf; exact hpf
    have hsym : Std.Symm (fun a b : Entry => ¬ a.bits <+: b.bits ∧ ¬ b.bits <+: a.bits) := ⟨fun _ _ hxy => ⟨hxy.2, hxy.1⟩⟩
    exact absurd hr (hpw.forall hd he hde).1

/-- What `TR.REBUILD` does from an empty arena (R179): it succeeds exactly on a code table that is a mapping, prefix-free and
not too large, and the trie then spells every code. -/
theorem DecWork.rebuild_spec (w : DecWork) (ht : w.trie = []) (hs : w.seen = []) (hk : w.k ≠ 0)
    (hlen : w.entries.length = w.k.toNat) (hne : ∀ e ∈ w.entries, e.bits ≠ []) :
    match w.rebuild with
    | some (t, seen) => Buildable w.entries ∧ (∀ e ∈ w.entries, t.Spells 0 e.bits e.sym) ∧
        t.length = trieNodes (w.entries.map Entry.bits) ∧
        (∀ i, (Table.get seen i).isSome ↔ ∃ e ∈ w.entries, e.sym.toNat = i)
    | none => ¬ Buildable w.entries := by
  unfold DecWork.rebuild
  rw [if_neg hk, ht, hs, ← hlen, List.take_length]
  have halloc : Trie.alloc [] (.internal none none) = some ([.internal none none], 0) := rfl
  rw [halloc]
  have := Inserted.root.insertAll w.entries hne
  simp only [List.nil_append] at this
  simp only
  cases hi : insertEntries [.internal none none] [] w.entries with
  | none => rw [hi] at this; exact this
  | some p =>
    obtain ⟨t, seen⟩ := p
    rw [hi] at this
    obtain ⟨L, hL⟩ := this
    refine ⟨hL.ok, fun e he => hL.spells e he (hne e he), ?_, hL.marks⟩
    rw [trieNodes_eq]
    exact hL.inv.card

end Sys2Proof.Machine
end

