-- ==== Sys2Proof/Laws/Walk.lean ====
section
/-! SUPPORT. The laws of the walk (46_decoder.md R180): what it does with bits that spell symbols, with bits that end too soon,
and with a bit that leads to no child. -/

namespace Sys2Proof.Machine

/-- The bits from `pos` up are `bs`. -/
def BitsAt (rd : Nat → Byte) (payOff pos : Nat) (bs : Bits) : Prop :=
  ∀ i (h : i < bs.length), payloadBit rd payOff (pos + i) = bs[i]

theorem BitsAt.head {rd : Nat → Byte} {o p : Nat} {b : Bool} {bs : Bits} (h : BitsAt rd o p (b :: bs)) :
    payloadBit rd o p = b := h 0 (by simp)

theorem BitsAt.tail {rd : Nat → Byte} {o p : Nat} {b : Bool} {bs : Bits} (h : BitsAt rd o p (b :: bs)) :
    BitsAt rd o (p + 1) bs := by
  intro i hi
  have := h (i + 1) (by simpa using hi)
  rw [List.getElem_cons_succ] at this
  rw [← this]
  congr 1
  omega

theorem BitsAt.left {rd : Nat → Byte} {o p : Nat} {as bs : Bits} (h : BitsAt rd o p (as ++ bs)) : BitsAt rd o p as := by
  intro i hi
  have := h i (by simp; omega)
  rwa [List.getElem_append_left hi] at this

theorem BitsAt.right {rd : Nat → Byte} {o p : Nat} {as bs : Bits} (h : BitsAt rd o p (as ++ bs)) :
    BitsAt rd o (p + as.length) bs := by
  intro i hi
  have := h (as.length + i) (by simp; omega)
  rw [List.getElem_append_right (by omega)] at this
  rw [Nat.add_assoc, this]
  congr 1
  omega

/-- The code of one symbol (R180): the symbol is emitted, and the walk is back at the root. -/
theorem walkLoop_code {rd : Nat → Byte} {o n : Nat} {t : Trie} {c : Bits} {s : Byte} {left : Nat} {w : WalkState}
    (hc : t.Spells w.cur c s) (hb : BitsAt rd o w.bitpos c) (hn : w.emitted < n) :
    walkLoop rd o n t (c.length + left) w =
      walkLoop rd o n t left
        { cur := 0, emitted := w.emitted + 1, bitpos := w.bitpos + c.length, out := w.out.write w.emitted s } := by
  induction c generalizing w with
  | nil => exact absurd hc (by simp [Trie.Spells])
  | cons b rest ih =>
    have hlen : (b :: rest).length + left = (rest.length + left) + 1 := by simp; omega
    rw [hlen]
    conv_lhs => unfold walkLoop
    rw [if_pos hn]
    simp only [hb.head]
    cases rest with
    | nil =>
      obtain ⟨m, hm, hl⟩ := hc
      simp [hm, hl]
    | cons b' rest =>
      obtain ⟨m, hm, hl, hs⟩ := hc
      simp only [hm, hl]
      have := ih (w := { w with cur := m, bitpos := w.bitpos + 1 }) hs hb.tail hn
      rw [this]
      congr 2
      simp
      omega

/-- Bits that lead to no leaf (R180): the walk moves on. -/
theorem walkLoop_inner {rd : Nat → Byte} {o n : Nat} {t : Trie} {c : Bits} {m left : Nat} {w : WalkState}
    (hc : t.Inner w.cur c m) (hb : BitsAt rd o w.bitpos c) (hn : w.emitted < n) :
    walkLoop rd o n t (c.length + left) w =
      walkLoop rd o n t left { w with cur := m, bitpos := w.bitpos + c.length } := by
  induction c generalizing w with
  | nil =>
    simp only [Trie.Inner] at hc
    subst hc
    simp
  | cons b rest ih =>
    have hlen : (b :: rest).length + left = (rest.length + left) + 1 := by simp; omega
    rw [hlen]
    conv_lhs => unfold walkLoop
    rw [if_pos hn]
    simp only [hb.head]
    obtain ⟨k, hk, hl, hs⟩ := hc
    simp only [hk, hl]
    have := ih (w := { w with cur := k, bitpos := w.bitpos + 1 }) hs hb.tail hn
    rw [this]
    congr 2
    simp
    omega

/-- The codes of a whole sequence. -/
theorem walkLoop_spellsAll {rd : Nat → Byte} {o n : Nat} {t : Trie} {x : List Byte} {bs : Bits} {left : Nat} {w : WalkState}
    (hx : t.SpellsAll x bs) (hb : BitsAt rd o w.bitpos bs) (hn : w.emitted + x.length ≤ n) (h0 : w.cur = 0) :
    walkLoop rd o n t (bs.length + left) w =
      walkLoop rd o n t left
        { cur := 0, emitted := w.emitted + x.length, bitpos := w.bitpos + bs.length, out := w.out.writeAll w.emitted x } := by
  induction x generalizing bs w with
  | nil =>
    simp only [Trie.SpellsAll] at hx
    subst hx
    cases w
    simp_all [Memory.writeAll]
  | cons s x ih =>
    obtain ⟨c, rest, rfl, hc, hr⟩ := hx
    have hlen : (c ++ rest).length + left = c.length + (rest.length + left) := by simp; omega
    rw [hlen, walkLoop_code (w := w) (h0 ▸ hc) hb.left (by simp at hn; omega),
      ih (w := { cur := 0, emitted := w.emitted + 1, bitpos := w.bitpos + c.length, out := w.out.write w.emitted s })
        hr hb.right (by simp at hn ⊢; omega) rfl]
    congr 2
    · simp; omega
    · simp; omega

theorem walkLoop_done {rd : Nat → Byte} {o n : Nat} {t : Trie} {left : Nat} {w : WalkState} (h : ¬ w.emitted < n) :
    walkLoop rd o n t left w = .ok w := by
  unfold walkLoop
  rw [if_neg h]

theorem walkLoop_truncated {rd : Nat → Byte} {o n : Nat} {t : Trie} {w : WalkState} (h : w.emitted < n) :
    walkLoop rd o n t 0 w = .error .truncatedStream := by
  unfold walkLoop
  rw [if_pos h]

theorem walkLoop_corrupt {rd : Nat → Byte} {o n : Nat} {t : Trie} {left : Nat} {w : WalkState} (h : w.emitted < n)
    (hc : t.child w.cur (payloadBit rd o w.bitpos) = none) : walkLoop rd o n t (left + 1) w = .error .corruptData := by
  unfold walkLoop
  rw [if_pos h]
  simp only [hc]

theorem walkLoop_zero (rd : Nat → Byte) (o n : Nat) (t : Trie) (w : WalkState) :
    walkLoop rd o n t 0 w = if w.emitted < n then .error .truncatedStream else .ok w := by
  unfold walkLoop
  rfl

theorem walkLoop_succ (rd : Nat → Byte) (o n : Nat) (t : Trie) (left : Nat) (w : WalkState) :
    walkLoop rd o n t (left + 1) w =
      if w.emitted < n then
        match t.child w.cur (payloadBit rd o w.bitpos) with
        | none => .error .corruptData
        | some nxt =>
          match t.leafAt nxt with
          | some s =>
            walkLoop rd o n t left
              { cur := 0, emitted := w.emitted + 1, bitpos := w.bitpos + 1, out := w.out.write w.emitted s }
          | none => walkLoop rd o n t left { w with cur := nxt, bitpos := w.bitpos + 1 }
      else .ok w :=
  walkLoop.eq_def rd o n t (left + 1) w

/-- The failures of a walk (R180). -/
theorem walkLoop_error {rd : Nat → Byte} {o n : Nat} {t : Trie} {left : Nat} {w : WalkState} {e : Failure}
    (h : walkLoop rd o n t left w = .error e) : e = .truncatedStream ∨ e = .corruptData := by
  induction left generalizing w with
  | zero =>
    rw [walkLoop_zero] at h
    split at h <;> simp at h
    exact Or.inl h.symm
  | succ left ih =>
    rw [walkLoop_succ] at h
    split at h
    · split at h
      · simp at h; exact Or.inr h.symm
      · split at h <;> exact ih h
    · simp at h

/-- What a walk that succeeds leaves: all symbols emitted, each at its address of `OUT`. -/
theorem walkLoop_ok {rd : Nat → Byte} {o n : Nat} {t : Trie} {left : Nat} {w w' : WalkState}
    (h : walkLoop rd o n t left w = .ok w') (hn : w.emitted ≤ n) (hk : Table.keys w.out = List.range w.emitted)
    (hw : w.out.wf) :
    w'.emitted = n ∧ Table.keys w'.out = List.range n ∧ w'.out.wf ∧ w'.bitpos ≤ w.bitpos + left := by
  induction left generalizing w with
  | zero =>
    rw [walkLoop_zero] at h
    split at h
    · simp at h
    · simp only [Except.ok.injEq] at h
      subst h
      have : w.emitted = n := by omega
      exact ⟨this, this ▸ hk, hw, by omega⟩
  | succ left ih =>
    rw [walkLoop_succ] at h
    split at h
    · split at h
      · simp at h
      · split at h
        · have := ih h (by simp; omega) (Memory.keys_write_next _ hk) (Memory.write_wf _ _ hw)
          simp only at this
          exact ⟨this.1, this.2.1, this.2.2.1, by omega⟩
        · have := ih h (by simp; omega) hk hw
          simp only at this
          exact ⟨this.1, this.2.1, this.2.2.1, by omega⟩
    · simp only [Except.ok.injEq] at h
      subst h
      have : w.emitted = n := by omega
      exact ⟨this, this ▸ hk, hw, by omega⟩

theorem State.payload_length (s : State) : s.payload.length = 8 * s.decWork.payLen.toNat := by simp [State.payload]

theorem State.bitsAt_payload (s : State) : BitsAt (s.inByte .dec) s.decWork.payOff.toNat 0 s.payload := by
  intro i h
  simp [State.payload]

/-- The walk of a payload that starts with the codes of `N` symbols (R180). -/
theorem State.walk_ok (s : State) (x : List Byte) (bs rest : Bits) (hp : s.payload = bs ++ rest)
    (hx : s.decWork.trie.SpellsAll x bs) (hn : x.length = s.decWork.n.toNat) :
    s.walk = .ok { cur := 0, emitted := x.length, bitpos := bs.length, out := s.dec.outBuf.writeAll 0 x } := by
  have hl := s.payload_length
  have hb := s.bitsAt_payload
  rw [hp] at hl hb
  unfold State.walk
  rw [← hl, List.length_append, walkLoop_spellsAll (w := { cur := 0, emitted := 0, bitpos := 0, out := s.dec.outBuf }) hx hb.left (by simp [hn]) rfl,
    walkLoop_done (by simp [hn])]
  simp

/-- The walk of a payload that ends before the `N`-th symbol (R180). -/
theorem State.walk_truncated (s : State) (x : List Byte) (bs rest : Bits) (m : Nat) (hp : s.payload = bs ++ rest)
    (hx : s.decWork.trie.SpellsAll x bs) (hr : s.decWork.trie.Inner 0 rest m) (hn : x.length < s.decWork.n.toNat) :
    s.walk = .error .truncatedStream := by
  have hl := s.payload_length
  have hb := s.bitsAt_payload
  rw [hp] at hl hb
  have hb2 := hb.right
  unfold State.walk
  rw [← hl, List.length_append, walkLoop_spellsAll (w := { cur := 0, emitted := 0, bitpos := 0, out := s.dec.outBuf }) hx hb.left
    (by simp; omega) rfl]
  have := walkLoop_inner (n := s.decWork.n.toNat) (left := 0)
    (w := { cur := 0, emitted := 0 + x.length, bitpos := 0 + bs.length, out := s.dec.outBuf.writeAll 0 x }) hr hb2 (by simpa using hn)
  rw [Nat.add_zero] at this
  rw [this, walkLoop_truncated (by simpa using hn)]

/-- The walk of a payload with a bit that leads to no child (R180). -/
theorem State.walk_corrupt (s : State) (x : List Byte) (bs r rest : Bits) (b : Bool) (m : Nat)
    (hp : s.payload = bs ++ (r ++ b :: rest)) (hx : s.decWork.trie.SpellsAll x bs) (hr : s.decWork.trie.Inner 0 r m)
    (hc : s.decWork.trie.child m b = none) (hn : x.length < s.decWork.n.toNat) : s.walk = .error .corruptData := by
  have hl := s.payload_length
  have hb := s.bitsAt_payload
  rw [hp] at hl hb
  have hb2 := hb.right
  unfold State.walk
  rw [← hl, List.length_append, walkLoop_spellsAll (w := { cur := 0, emitted := 0, bitpos := 0, out := s.dec.outBuf }) hx hb.left
    (by simp; omega) rfl, List.length_append]
  rw [walkLoop_inner
    (w := { cur := 0, emitted := 0 + x.length, bitpos := 0 + bs.length, out := s.dec.outBuf.writeAll 0 x }) hr hb2.left (by simpa using hn)]
  rw [List.length_cons, walkLoop_corrupt (by simpa using hn)]
  simp only
  rw [hb2.right.head]
  exact hc

end Sys2Proof.Machine
end

