-- ==== Sys2Proof/Laws/Decode.lean ====
section
/-! SUPPORT. A whole `DECODE` (46_decoder.md R175 to R180): the phases one after another, from acceptance to `DONE` or `FAULT`. -/

namespace Sys2Proof.Machine

/-! What the phases read of `IN`. -/

theorem parseEntries_congr {rd rd' : Nat → Byte} {len : Nat} (h : ∀ i, i < len → rd i = rd' i) (k p : Nat) :
    parseEntries rd len k p = parseEntries rd' len k p := by
  induction k generalizing p with
  | zero => rfl
  | succ k ih =>
    unfold parseEntries
    by_cases h1 : len < p + 2
    · rw [if_pos h1, if_pos h1]
    · rw [if_neg h1, if_neg h1, h (p + 1) (by omega), h p (by omega)]
      by_cases h2 : (rd' (p + 1)).toNat = 0
      · rw [if_pos h2, if_pos h2]
      · rw [if_neg h2, if_neg h2]
        by_cases h3 : len < p + 2 + ceil8 (rd' (p + 1)).toNat
        · rw [if_pos h3, if_pos h3]
        · rw [if_neg h3, if_neg h3, ih, memRead_congr (rd := rd) (rd' := rd') (fun i _ hi => h i (by omega))]

theorem parseHeader_congr {rd rd' : Nat → Byte} {len : Nat} (h : ∀ i, i < len → rd i = rd' i) :
    parseHeader rd len = parseHeader rd' len := by
  unfold parseHeader
  by_cases h1 : len < 2
  · rw [if_pos h1, if_pos h1]
  · rw [if_neg h1, if_neg h1, h 0 (by omega), h 1 (by omega)]
    by_cases h2 : Config.kMax < be16 (rd' 0) (rd' 1)
    · rw [if_pos h2, if_pos h2]
    · rw [if_neg h2, if_neg h2, parseEntries_congr h]
      cases parseEntries rd' len (be16 (rd' 0) (rd' 1)) 2 with
      | none => rfl
      | some r =>
        obtain ⟨es, p⟩ := r
        simp only
        by_cases h3 : len < p + 4
        · rw [if_pos h3, if_pos h3]
        · rw [if_neg h3, if_neg h3, h p (by omega), h (p + 1) (by omega), h (p + 2) (by omega), h (p + 3) (by omega)]

theorem walkLoop_congr {rd rd' : Nat → Byte} {o n len : Nat} {t : Trie} (h : ∀ i, i < o + len → rd i = rd' i) (left : Nat)
    (w : WalkState) (hw : w.bitpos + left ≤ 8 * len) : walkLoop rd o n t left w = walkLoop rd' o n t left w := by
  induction left generalizing w with
  | zero => rw [walkLoop_zero, walkLoop_zero]
  | succ left ih =>
    rw [walkLoop_succ, walkLoop_succ]
    have : payloadBit rd o w.bitpos = payloadBit rd' o w.bitpos := by
      unfold payloadBit
      rw [h _ (by omega)]
    rw [this]
    split
    · split
      · rfl
      · split
        · exact ih _ (by simp only; omega)
        · exact ih _ (by simp only; omega)
    · rfl

/-- The reader of a list of bytes. -/
def listReader (c : List Byte) (a : Nat) : Byte := c.getD a 0

theorem HasInput.reader {u : UnitId} {s : State} {x : List Byte} (h : HasInput u s x) (i : Nat) (hi : i < x.length) :
    s.inByte u i = listReader x i := by
  rw [h.inByte i hi, listReader, List.getD_eq_getElem?_getD, List.getElem?_eq_getElem hi, Option.getD_some]

theorem memRead_listReader (c : List Byte) : memRead (listReader c) 0 c.length = c := by
  apply memRead_eq_of_getElem
  intro i hi
  rw [Nat.zero_add, listReader, List.getD_eq_getElem?_getD, List.getElem?_eq_getElem hi, Option.getD_some]

/-! The result of a `DECODE` as a function of its input. -/

/-- The end of a `DECODE` with parameters `p` and input `c`: the phase and the failure, or the output and the diagnostics. -/
def decodeOutcome (p : Params) (c : List Byte) : Except (BitVec 4 × Failure) (Memory × Word × Diag) :=
  match parseHeader (listReader c) c.length with
  | none => .error (1, .corruptData)
  | some h =>
    if h.n = 0 then .ok ([], 0, { nsym := BitVec.ofNat 9 h.k, symcnt := 0, bitcnt := 0 })
    else
      match (DecWork.initial.withHeader h c.length).rebuild with
      | none => .error (2, .corruptData)
      | some (t, _) =>
        if p.decOutCap < BitVec.ofNat 32 h.n then .error (3, .bufferBound)
        else
          match walkLoop (listReader c) h.payOff h.n t (8 * (c.length - h.payOff)) { cur := 0, emitted := 0, bitpos := 0, out := [] } with
          | .error e => .error (3, e)
          | .ok w => .ok (w.out, BitVec.ofNat 32 h.n,
              { nsym := BitVec.ofNat 9 h.k, symcnt := BitVec.ofNat 32 h.n, bitcnt := BitVec.ofNat 40 w.bitpos })

/-- The decoder's block at the end of a command whose outcome is `o`. -/
def DecEnds (o : Except (BitVec 4 × Failure) (Memory × Word × Diag)) (b : Block) : Prop :=
  match o with
  | .error (ph, e) => b.state = .fault ∧ b.phase = ph ∧ b.err = e ∧ b.outLen = 0 ∧ b.outBuf = []
  | .ok (m, n, d) => b.state = .done ∧ b.phase = 0 ∧ b.err = .none ∧ b.outLen = n ∧ b.diag = d ∧ b.outBuf = m

/-- The decoder just accepted (R207). -/
structure DecStart (s : State) : Prop where
  state  : s.dec.state = .busy
  phase  : s.dec.phase = 1
  err    : s.dec.err = .none
  outBuf : s.dec.outBuf = []
  work   : s.decWork = DecWork.initial

theorem raise_decEnds (s : State) (ph : BitVec 4) (e : Failure) (h : s.dec.phase = ph) :
    DecEnds (.error (ph, e)) (s.raise .dec e).dec := by
  have := s.raise_block .dec e
  simp only [State.block] at this
  rw [this]
  exact ⟨rfl, h, rfl, rfl, rfl⟩

/-- A parsed header's numbers fit their registers (R37). -/
theorem header_bounds {rd : Nat → Byte} {len : Nat} {h : Header} (hp : parseHeader rd len = some h) :
    h.n < 2 ^ 32 ∧ h.payOff ≤ len ∧ h.k = h.entries.length ∧ h.k ≤ 256 ∧
      ∀ e ∈ h.entries, 1 ≤ e.bits.length ∧ e.bits.length ≤ 255 := by
  obtain ⟨pay, ⟨hk, hn, b, hb, -⟩, h1, h2⟩ := container_of_parseHeader hp
  refine ⟨hn, by omega, h1, by rw [h1]; exact hk, ?_⟩
  generalize h.entries = es at hb
  induction es generalizing b with
  | nil => simp
  | cons e es ih =>
    obtain ⟨f, rest, rfl, ⟨he1, he2, -⟩, hr⟩ := hb
    intro d hd
    rcases List.mem_cons.1 hd with rfl | hd
    · exact ⟨he1, he2⟩
    · exact ih rest hr d hd

/-- A whole `DECODE` (R175). -/
theorem decode_run (s : State) (c : List Byte) (hs : DecStart s) (hx : HasInput .dec s c) :
    ∃ t, unitRun .dec 3 s = .next t ∧ Kept .dec s t ∧ DecEnds (decodeOutcome s.params c) t.dec := by
  rw [unitRun_busy (State.busy_dec hs.state), unitPhase_parse hs.phase]
  have hc32 := hx.length_lt
  have hlen : s.dec.inLen.toNat = c.length := hx.1
  have hph : parseHeader (s.inByte .dec) s.dec.inLen.toNat = parseHeader (listReader c) c.length := by
    rw [hlen]; exact parseHeader_congr (fun i hi => hx.reader i hi)
  unfold decodeOutcome
  cases hp : parseHeader (listReader c) c.length with
  | none =>
    have : execDecParse s = .next (s.raise .dec .corruptData) := by rw [execDecParse, hph, hp]
    rw [this]
    exact ⟨_, unitRun_idle (State.busy_raise s .dec .corruptData), State.raise_kept s .dec _, raise_decEnds s 1 .corruptData hs.phase⟩
  | some h =>
    rw [hp] at hph
    obtain ⟨b1, b2, b3, b4, b5⟩ := header_bounds hp
    by_cases hn : h.n = 0
    · obtain ⟨t, h1, h2, h3, -⟩ := execDecParse_zero hph hn
      rw [h1]
      refine ⟨t, unitRun_idle (by simp [State.busy, State.block, h3]), h2, ?_⟩
      simp only [hn, if_true]
      rw [h3]
      exact ⟨rfl, rfl, hs.err, rfl, rfl, hs.outBuf⟩
    · obtain ⟨t, h1, h2, h3, h4⟩ := execDecParse_some hph hn
      rw [h1]
      simp only [andThen, hn, if_false]
      rw [hlen, hs.work] at h4
      have ht : t.dec.state = .busy := by rw [h3]; exact hs.state
      rw [unitRun_busy (State.busy_dec ht), unitPhase_rebuild (by rw [h3]; rfl)]
      cases hr : (DecWork.initial.withHeader h c.length).rebuild with
      | none =>
        have : execTrRebuild t = .next (t.raise .dec .corruptData) := by rw [execTrRebuild, h4, hr]
        rw [this]
        exact ⟨_, unitRun_idle (State.busy_raise t .dec .corruptData), h2.trans (State.raise_kept t .dec _),
          raise_decEnds t 2 .corruptData (by rw [h3]; rfl)⟩
      | some p =>
        obtain ⟨tr, seen⟩ := p
        obtain ⟨r, r1, r2, r3, r4⟩ := execTrRebuild_some (s := t) (by rw [h4]; exact hr)
        rw [r1]
        have hrst : r.dec.state = .busy := by rw [r3]; exact ht
        simp only [andThen]
        rw [unitRun_busy (State.busy_dec hrst), unitPhase_walk (by rw [r3]; rfl)]
        have hrn : r.decWork.n = BitVec.ofNat 32 h.n := by rw [r4, h4]; rfl
        have hro : r.decWork.payOff = BitVec.ofNat 32 h.payOff := by rw [r4, h4]; rfl
        have hrl : r.decWork.payLen = BitVec.ofNat 32 (c.length - h.payOff) := by rw [r4, h4]; rfl
        have hrt : r.decWork.trie = tr := by rw [r4]
        have hrp : r.params = s.params := r2.params.trans h2.params
        have hrd : r.dec.diag = { s.dec.diag with nsym := BitVec.ofNat 9 h.k, symcnt := BitVec.ofNat 32 h.n } := by rw [r3, h3]
        have hrx := (hx.kept h2).kept r2
        by_cases hcap : s.params.decOutCap < BitVec.ofNat 32 h.n
        · have : execTwWalk r = .next (r.raise .dec .bufferBound) := by rw [execTwWalk, hrn, hrp, if_pos hcap]
          rw [this, if_pos hcap]
          exact ⟨_, unitRun_idle (State.busy_raise r .dec .bufferBound), (h2.trans r2).trans (State.raise_kept r .dec _),
            raise_decEnds r 3 .bufferBound (by rw [r3]; rfl)⟩
        · rw [if_neg hcap]
          have hw : r.walk = walkLoop (listReader c) h.payOff h.n tr (8 * (c.length - h.payOff))
              { cur := 0, emitted := 0, bitpos := 0, out := [] } := by
            have hout : r.dec.outBuf = [] := by rw [r3, h3]; exact hs.outBuf
            unfold State.walk
            rw [hrn, hro, hrl, hrt, hout, BitVec.toNat_ofNat, BitVec.toNat_ofNat, BitVec.toNat_ofNat,
              Nat.mod_eq_of_lt b1, Nat.mod_eq_of_lt (by omega : h.payOff < 2 ^ 32),
              Nat.mod_eq_of_lt (by omega : c.length - h.payOff < 2 ^ 32)]
            exact walkLoop_congr (len := c.length - h.payOff) (fun i hi => hrx.reader i (by omega)) _ _ (by simp)
          have hcap' : ¬ r.params.decOutCap < r.decWork.n := by rw [hrn, hrp]; exact hcap
          cases hwk : walkLoop (listReader c) h.payOff h.n tr (8 * (c.length - h.payOff))
              { cur := 0, emitted := 0, bitpos := 0, out := [] } with
          | error e =>
            have : execTwWalk r = .next (r.raise .dec e) := by rw [execTwWalk, if_neg hcap', hw, hwk]
            rw [this]
            exact ⟨_, unitRun_idle (State.busy_raise r .dec e), (h2.trans r2).trans (State.raise_kept r .dec _),
              raise_decEnds r 3 e (by rw [r3]; rfl)⟩
          | ok w =>
            obtain ⟨q, q1, q2, q3, -⟩ := execTwWalk_ok (s := r) (w := w) (by simpa [BitVec.not_lt] using hcap') (by rw [hw, hwk])
            rw [q1]
            refine ⟨q, unitRun_idle (by simp [State.busy, State.block, q3]), (h2.trans r2).trans q2, ?_⟩
            rw [q3, hrn, hrd]
            refine ⟨rfl, rfl, ?_, rfl, rfl, rfl⟩
            simp only [Block.finished_err]
            rw [r3, h3]
            exact hs.err

end Sys2Proof.Machine
end

