-- ==== Sys2Proof/Laws/RoundTrip.lean ====
section
/-! SUPPORT. What links the two units (46_decoder.md R182): the encoder's code table can always be rebuilt, its payload spells
the input, and the outcome of a `DECODE` on the container of an `ENCODE`. -/

namespace Sys2Proof.Machine

/-! The encoder's entries are the codes of its tree. -/

/-- The entries of a list of codes. -/
def asEntries (es : List (Byte × Bits)) : List Entry := es.map (fun e => { sym := e.1, bits := e.2 })

theorem mem_codeEntries {code : Table Bits} {e : Entry} :
    e ∈ codeEntries code ↔ e.bits ≠ [] ∧ code.bits e.sym.toNat = e.bits := by
  unfold codeEntries
  rw [List.mem_filterMap]
  constructor
  · rintro ⟨s, hs, he⟩
    rw [List.mem_range] at hs
    by_cases hb : 0 < (code.bits s).length
    · simp only [hb, if_true, Option.some.injEq] at he
      subst he
      refine ⟨List.length_pos_iff.1 hb, ?_⟩
      simp only [ofNat8_toNat, Nat.mod_eq_of_lt hs]
    · simp [hb] at he
  · rintro ⟨h1, h2⟩
    refine ⟨e.sym.toNat, List.mem_range.2 e.sym.isLt, ?_⟩
    rw [h2, if_pos (List.length_pos_iff.2 h1)]
    congr 1
    obtain ⟨s, b⟩ := e
    simp

theorem codeEntries_syms (code : Table Bits) :
    (codeEntries code).map Entry.sym = ((List.range 256).filter (fun s => 0 < (code.bits s).length)).map (BitVec.ofNat 8) := by
  have key : ∀ l : List Nat, (l.filterMap (fun s =>
      if 0 < (code.bits s).length then some ({ sym := BitVec.ofNat 8 s, bits := code.bits s } : Entry) else none)).map Entry.sym =
      (l.filter (fun s => 0 < (code.bits s).length)).map (BitVec.ofNat 8) := by
    intro l
    induction l with
    | nil => rfl
    | cons s l ih =>
      by_cases h : 0 < (code.bits s).length
      · rw [List.filterMap_cons_some (b := ({ sym := BitVec.ofNat 8 s, bits := code.bits s } : Entry)) (by simp [h]),
          List.filter_cons_of_pos (by simpa using h), List.map_cons, List.map_cons, ih]
      · rw [List.filterMap_cons_none (by simp [h]), List.filter_cons_of_neg (by simpa using h), ih]
  exact key (List.range 256)

theorem codeEntries_nodup (code : Table Bits) : ((codeEntries code).map Entry.sym).Nodup := by
  rw [codeEntries_syms]
  apply List.Nodup.map_on
  · intro a ha b hb he
    rw [List.mem_filter, List.mem_range] at ha hb
    have := congrArg BitVec.toNat he
    rw [ofNat8_toNat, ofNat8_toNat] at this
    omega
  · exact List.Nodup.filter _ List.nodup_range

theorem codePaths_tree (t : CodeTree) : (codePaths (t.paths.map Prod.snd)).card + 2 ≤ 2 * t.symbols.length := by
  induction t with
  | leaf s => simp [CodeTree.paths, CodeTree.symbols, codePaths]
  | node l r ihl ihr =>
    have hsub : codePaths ((CodeTree.node l r).paths.map Prod.snd) ⊆
        {[false], [true]} ∪ ((codePaths (l.paths.map Prod.snd)).image (List.cons false) ∪
          (codePaths (r.paths.map Prod.snd)).image (List.cons true)) := by
      intro p hp
      rw [mem_codePaths] at hp
      obtain ⟨hne, c, hc, hpre⟩ := hp
      simp only [CodeTree.paths, List.map_append, List.map_map, List.mem_append, List.mem_map, Function.comp_apply] at hc
      cases p with
      | nil => exact absurd rfl hne
      | cons b p =>
        simp only [Finset.mem_union, Finset.mem_insert, Finset.mem_singleton, Finset.mem_image]
        rcases hc with ⟨e, he, rfl⟩ | ⟨e, he, rfl⟩
        · rw [List.cons_prefix_cons] at hpre
          obtain ⟨rfl, hpre⟩ := hpre
          by_cases hp0 : p = []
          · subst hp0; simp
          · right; left
            exact ⟨p, mem_codePaths.2 ⟨hp0, e.2, List.mem_map_of_mem he, hpre⟩, rfl⟩
        · rw [List.cons_prefix_cons] at hpre
          obtain ⟨rfl, hpre⟩ := hpre
          by_cases hp0 : p = []
          · subst hp0; simp
          · right; right
            exact ⟨p, mem_codePaths.2 ⟨hp0, e.2, List.mem_map_of_mem he, hpre⟩, rfl⟩
    have h1 := Finset.card_le_card hsub
    have h2 := Finset.card_union_le ({[false], [true]} : Finset Bits)
      ((codePaths (l.paths.map Prod.snd)).image (List.cons false) ∪ (codePaths (r.paths.map Prod.snd)).image (List.cons true))
    have h3 := Finset.card_union_le ((codePaths (l.paths.map Prod.snd)).image (List.cons false))
      ((codePaths (r.paths.map Prod.snd)).image (List.cons true))
    have h4 := Finset.card_image_le (s := codePaths (l.paths.map Prod.snd)) (f := List.cons false)
    have h5 := Finset.card_image_le (s := codePaths (r.paths.map Prod.snd)) (f := List.cons true)
    have h6 : ({[false], [true]} : Finset Bits).card = 2 := rfl
    simp only [CodeTree.symbols, List.length_append]
    omega

/-- A tree of at most 256 leaves has codes that fit the decoder's arena (R178: "at most `2K − 1 ≤ 511` nodes"). -/
theorem trieNodes_codes (t : CodeTree) (h : t.symbols.length ≤ 256) : trieNodes (t.codes.map Prod.snd) ≤ Config.nodeCap := by
  rw [trieNodes_eq]
  show _ ≤ 511
  cases t with
  | leaf s =>
    have : (CodeTree.leaf s).codes.map Prod.snd = [[false]] := rfl
    rw [this]
    decide
  | node l r =>
    have := codePaths_tree (.node l r)
    have h2 : (CodeTree.node l r).codes = (CodeTree.node l r).paths := rfl
    rw [h2]
    omega

/-- The encoder's entries are the codes of its tree, in another order. -/
theorem codeEntries_perm (t : CodeTree) (h : t.symbols.Nodup) : (codeEntries (writeCodes [] t.codes)).Perm (asEntries t.codes) := by
  obtain ⟨h1, h2⟩ := bits_writeCodes t h
  have hn1 : (codeEntries (writeCodes [] t.codes)).Nodup := List.Nodup.of_map _ (codeEntries_nodup _)
  have hn2 : (asEntries t.codes).Nodup := by
    apply List.Nodup.of_map Entry.sym
    rw [asEntries, List.map_map]
    have : t.codes.map (Entry.sym ∘ fun e => ({ sym := e.1, bits := e.2 } : Entry)) = t.symbols := t.codes_symbols
    rw [this]
    exact h
  apply (List.perm_ext_iff_of_nodup hn1 hn2).2
  intro e
  rw [mem_codeEntries, asEntries, List.mem_map]
  constructor
  · rintro ⟨hne, hb⟩
    by_cases hex : ∃ d ∈ t.codes, d.1.toNat = e.sym.toNat
    · obtain ⟨d, hd, hde⟩ := hex
      have := h1 d hd
      rw [hde, hb] at this
      refine ⟨d, hd, ?_⟩
      rw [← this, BitVec.eq_of_toNat_eq hde]
    · have := h2 e.sym.toNat (fun d hd hde => hex ⟨d, hd, hde⟩)
      rw [this] at hb
      exact absurd hb.symm hne
  · rintro ⟨d, hd, rfl⟩
    have hl := (t.codes_length d hd).1
    exact ⟨fun e => by have e' : d.2 = [] := e; rw [e'] at hl; simp at hl, h1 d hd⟩

/-- The encoder's code table can be rebuilt (R182: "the codes are prefix-free, so `REBUILD` raises nothing"). -/
theorem buildable_codes (t : CodeTree) (h : t.symbols.Nodup) (hl : t.symbols.length ≤ 256) :
    Buildable (codeEntries (writeCodes [] t.codes)) := by
  have hp := codeEntries_perm t h
  have hb : (asEntries t.codes).map Entry.bits = t.codes.map Prod.snd := by
    rw [asEntries, List.map_map]; rfl
  refine ⟨codeEntries_nodup _, ?_, ?_⟩
  · have hpf := t.codes_prefixFree
    rw [← hb] at hpf
    exact (List.Perm.pairwise_iff (fun {_ _} hxy => ⟨hxy.2, hxy.1⟩) (hp.map Entry.bits)).2 hpf
  · refine Nat.le_trans ?_ (trieNodes_codes t hl)
    rw [trieNodes_eq, trieNodes_eq, ← hb]
    exact Nat.add_le_add_left (Finset.card_le_card (codePaths_mono (hp.map Entry.bits).subset)) 1

/-- The encoder's container, by its entries (R87, R161). -/
theorem flatMap_entryBytes (code : Table Bits) (l : List Nat) :
    l.flatMap (entryBytes code) =
      (l.filterMap (fun s =>
        if 0 < (code.bits s).length then some ({ sym := BitVec.ofNat 8 s, bits := code.bits s } : Entry) else none)).flatMap
        (fun e => e.sym :: BitVec.ofNat 8 e.bits.length :: packbits e.bits) := by
  induction l with
  | nil => rfl
  | cons s l ih =>
    rw [List.flatMap_cons, ih]
    by_cases h : 0 < (code.bits s).length
    · rw [List.filterMap_cons_some (b := ({ sym := BitVec.ofNat 8 s, bits := code.bits s } : Entry)) (by simp [h]),
        List.flatMap_cons, entryBytes, if_pos h]
    · rw [List.filterMap_cons_none (by simp [h]), entryBytes, if_neg h]
      rfl

theorem containerBytes_eq (n : Nat) (code : Table Bits) (pay : List Byte) :
    containerBytes (codeEntries code).length n code pay = encoderContainer (codeEntries code) n pay := by
  unfold containerBytes encoderContainer
  rw [flatMap_entryBytes code (List.range 256)]
  rfl

/-- The encoder's entries stand in strictly ascending order of symbol (R88, R161). -/
theorem codeEntries_sorted (code : Table Bits) : ((codeEntries code).map (fun e => e.sym.toNat)).Pairwise (· < ·) := by
  have h1 := codeEntries_syms code
  have h2 : (codeEntries code).map (fun e => e.sym.toNat) = ((codeEntries code).map Entry.sym).map BitVec.toNat := by
    rw [List.map_map]
    rfl
  rw [h2, h1, List.map_map]
  have h3 : ∀ l : List Nat, (∀ i ∈ l, i < 256) → l.map (BitVec.toNat ∘ BitVec.ofNat 8) = l := by
    intro l hl
    conv_rhs => rw [← List.map_id l]
    apply List.map_congr_left
    intro i hi
    simp [Nat.mod_eq_of_lt (hl i hi)]
  rw [h3]
  · exact List.Pairwise.sublist List.filter_sublist List.pairwise_lt_range
  · intro i hi
    rw [List.mem_filter, List.mem_range] at hi
    exact hi.1

/-- The codes of a sequence of symbols that have codes are spelled by the entries (R92). -/
theorem entriesSpell_inputCodes {code : Table Bits} {x : List Byte} (hx : ∀ b ∈ x, ∃ e ∈ codeEntries code, e.sym = b) :
    EntriesSpell (codeEntries code) x (inputCodes code x) := by
  induction x with
  | nil => rfl
  | cons b x ih =>
    obtain ⟨e, he, rfl⟩ := hx b (by simp)
    refine ⟨e, he, inputCodes code x, rfl, ?_, ih (fun b hb => hx b (by simp [hb]))⟩
    rw [← (mem_codeEntries.1 he).2]
    rfl

/-- A trie that spells every entry spells what the entries spell. -/
theorem spellsAll_of_entriesSpell {tr : Trie} {es : List Entry} (h : ∀ e ∈ es, tr.Spells 0 e.bits e.sym) {x : List Byte} {bs : Bits}
    (hx : EntriesSpell es x bs) : tr.SpellsAll x bs := by
  induction x generalizing bs with
  | nil => exact hx
  | cons b x ih =>
    obtain ⟨e, he, rest, rfl, rfl, hr⟩ := hx
    exact ⟨e.bits, rest, rfl, h e he, ih hr⟩

/-! From a frequency table. -/

theorem occurring_nodup (f : Table Nat) : ((occurring f).map (BitVec.ofNat 8)).Nodup := by
  apply List.Nodup.map_on
  · intro a ha b hb he
    have h1 := (mem_occurring.1 ha).1
    have h2 := (mem_occurring.1 hb).1
    have := congrArg BitVec.toNat he
    rw [ofNat8_toNat, ofNat8_toNat] at this
    omega
  · exact List.Nodup.filter _ List.nodup_range

/-- The code table of a frequency table (R138): one entry for each symbol that occurs, and all that `TR.REBUILD` asks for. -/
theorem codeTableOf_entries (f : Table Nat) (h : 1 ≤ distinctSymbols f) :
    (codeEntries (codeTableOf f)).length = distinctSymbols f ∧ Buildable (codeEntries (codeTableOf f)) ∧
      ∀ b : Byte, b.toNat ∈ occurring f → ∃ e ∈ codeEntries (codeTableOf f), e.sym = b := by
  obtain ⟨r, t, -, -, h3, -, h5⟩ := codeTableOf_spec f h
  have hnd : t.symbols.Nodup := h3.nodup_iff.2 (occurring_nodup f)
  have hl : t.symbols.length ≤ 256 := by
    rw [h3.length_eq, List.length_map]
    exact occurring_length_le f
  rw [h5]
  have hp := codeEntries_perm t hnd
  have hcl : t.codes.length = t.symbols.length := by rw [← t.codes_symbols, List.length_map]
  refine ⟨?_, buildable_codes t hnd hl, ?_⟩
  · rw [hp.length_eq, asEntries, List.length_map, hcl, h3.length_eq, List.length_map, distinctSymbols_eq]
  · intro b hb
    have hm : b ∈ t.symbols := by
      rw [h3.mem_iff, List.mem_map]
      exact ⟨b.toNat, hb, by simp⟩
    rw [← t.codes_symbols, List.mem_map] at hm
    obtain ⟨e, he, rfl⟩ := hm
    exact ⟨{ sym := e.1, bits := e.2 }, hp.mem_iff.2 (List.mem_map.2 ⟨e, he, rfl⟩), rfl⟩

/-- Exactly the symbols that occur have an entry (R138 (a)). -/
theorem codeTableOf_symbols (f : Table Nat) (h : 1 ≤ distinctSymbols f) (b : Byte) :
    (∃ e ∈ codeEntries (codeTableOf f), e.sym = b) ↔ b.toNat ∈ occurring f := by
  refine ⟨?_, (codeTableOf_entries f h).2.2 b⟩
  rintro ⟨e, he, rfl⟩
  obtain ⟨r, t, -, -, h3, -, h5⟩ := codeTableOf_spec f h
  have hnd : t.symbols.Nodup := h3.nodup_iff.2 (occurring_nodup f)
  rw [h5] at he
  have hm := (codeEntries_perm t hnd).mem_iff.1 he
  obtain ⟨d, hd, rfl⟩ := List.mem_map.1 hm
  have hs : d.1 ∈ t.symbols := by
    rw [← t.codes_symbols]
    exact List.mem_map_of_mem hd
  rw [h3.mem_iff, List.mem_map] at hs
  obtain ⟨j, hj, hje⟩ := hs
  have hlt := (mem_occurring.1 hj).1
  have : d.1.toNat = j := by rw [← hje, ofNat8_toNat, Nat.mod_eq_of_lt hlt]
  show d.1.toNat ∈ occurring f
  rw [this]
  exact hj

/-- The payload bits of packed bits (R149, R150). -/
theorem bitsAt_of_holds {w : BitWriter} {bs : Bits} (h : w.Holds bs) {rd : Nat → Byte} {o : Nat}
    (hr : ∀ i (hi : i < w.pay.length), rd (o + i) = w.pay[i]) : BitsAt rd o 0 bs := by
  intro i hi
  have hb := h.bits i
  have hl := h.bytes
  have hlt : i / 8 < w.pay.length := by rw [hl, ceil8]; omega
  rw [Nat.zero_add, payloadBit, hr _ hlt]
  rw [bitat, List.getD_eq_getElem?_getD, List.getElem?_eq_getElem hlt, Option.getD_some,
    List.getD_eq_getElem?_getD, List.getElem?_eq_getElem hi, Option.getD_some] at hb
  exact hb

/-- A trie that spells every entry of a code table spells a sequence of its symbols (R92). -/
theorem spellsAll_inputCodes {tr : Trie} {code : Table Bits} {x : List Byte}
    (h : ∀ e ∈ codeEntries code, tr.Spells 0 e.bits e.sym) (hx : ∀ b ∈ x, ∃ e ∈ codeEntries code, e.sym = b) :
    tr.SpellsAll x (inputCodes code x) := by
  induction x with
  | nil => rfl
  | cons b x ih =>
    obtain ⟨e, he, rfl⟩ := hx b (by simp)
    refine ⟨code.bits e.sym.toNat, inputCodes code x, rfl, ?_, ih (fun b hb => hx b (by simp [hb]))⟩
    rw [(mem_codeEntries.1 he).2]
    exact h e he

/-- `TR.REBUILD` after `DEC.PARSE`, of a header whose entries are a code table (R179). -/
theorem rebuild_of_header (h : Header) (len : Nat) (hk : h.k = h.entries.length) (h0 : h.k ≠ 0) (h256 : h.k ≤ 256)
    (hne : ∀ e ∈ h.entries, e.bits ≠ []) (hb : Buildable h.entries) :
    ∃ tr seen, (DecWork.initial.withHeader h len).rebuild = some (tr, seen) ∧ ∀ e ∈ h.entries, tr.Spells 0 e.bits e.sym := by
  have hk9 : (BitVec.ofNat 9 h.k).toNat = h.k := by rw [BitVec.toNat_ofNat]; omega
  have := DecWork.rebuild_spec (DecWork.initial.withHeader h len) rfl rfl
    (fun e => h0 ((nsym_zero_iff h.k h256).1 e)) (hk.symm.trans hk9.symm) hne
  cases hr : (DecWork.initial.withHeader h len).rebuild with
  | none => rw [hr] at this; exact absurd hb this
  | some q =>
    obtain ⟨tr, seen⟩ := q
    rw [hr] at this
    exact ⟨tr, seen, rfl, this.2.1⟩

/-- The outcome of a `DECODE` on the container of an `ENCODE` (R182). -/
theorem decodeOutcome_encodeOutcome {p : Params} {x c : List Byte} {d : Diag} (he : encodeOutcome p x = .ok (c, d))
    (hx : x.length < 2 ^ 32) (hc : x.length ≤ p.decOutCap.toNat) :
    decodeOutcome p c = .ok (Memory.writeAll [] 0 x, BitVec.ofNat 32 x.length, d) := by
  unfold encodeOutcome at he
  cases hcb : countBytes p.cntW [] x with
  | none => simp [hcb] at he
  | some f =>
    simp only [hcb] at he
    have hd := distinctSymbols_le f
    by_cases h0 : distinctSymbols f = 0
    · have hx0 : x = [] := (distinctSymbols_zero hcb).1 h0
      subst hx0
      simp only [h0, if_true] at he
      split at he
      · simp at he
      · simp only [Except.ok.injEq, Prod.mk.injEq] at he
        obtain ⟨rfl, rfl⟩ := he
        have hk : (codeEntries ([] : Table Bits)).length = 0 := by
          have := congrArg List.length (codeEntries_syms ([] : Table Bits))
          simpa [Table.bits] using this
        have hz : ∀ s, (Table.bits ([] : Table Bits) s).length ≤ 255 := fun s => Nat.zero_le _
        have hct := container_of_encoder [] hz 0 (Nat.two_pow_pos 32) ([] : List Byte)
        rw [hk] at hct
        generalize hem : codeEntries ([] : Table Bits) = es at hk hct
        rw [show BitWriter.empty.pay = [] from rfl, List.length_nil]
        generalize containerBytes 0 0 [] [] = c at hct
        have := (parseHeader_of_container (rd := listReader c) (len := c.length) (by rw [memRead_listReader]; exact hct)).1
        rw [hk] at this
        unfold decodeOutcome
        rw [this]
        rfl
    · simp only [h0, if_false] at he
      split at he
      · simp at he
      · rename_i hfit
        simp only [Except.ok.injEq, Prod.mk.injEq] at he
        obtain ⟨hcc, rfl⟩ := he
        obtain ⟨hk, hbuild, hall⟩ := codeTableOf_entries f (by omega)
        have hlen := codeTableOf_length f
        set code := codeTableOf f with hcode
        have hh := packInput_holds code x hlen hx
        have hbl := inputCodes_length_lt code x hlen hx
        set w := packInput code BitWriter.empty x with hw
        have hct := container_of_encoder code hlen x.length hx w.pay
        rw [hk, hcc] at hct
        have hclen : c.length < 2 ^ 32 := by
          have := p.encOutCap.isLt
          rw [← hcc]
          omega
        obtain ⟨hp, hpay, hple⟩ := parseHeader_of_container (rd := listReader c) (len := c.length)
          (by rw [memRead_listReader]; exact hct)
        rw [hk] at hp
        have hx0 : x.length ≠ 0 := by
          intro e
          exact h0 ((distinctSymbols_zero hcb).2 (List.length_eq_zero_iff.1 e))
        have hpb : ∀ e ∈ codeEntries code, e.bits ≠ [] := fun e he => (mem_codeEntries.1 he).1
        have hsa' := fun (tr : Trie) (hsp : ∀ e ∈ codeEntries code, tr.Spells 0 e.bits e.sym) =>
          spellsAll_inputCodes (x := x) hsp (fun b hb => hall b ((mem_occurring_of_count hcb b).2 hb))
        clear hcb hall
        generalize distinctSymbols f = k at *
        generalize codeEntries code = es at *
        obtain ⟨tr, seen, hr, hsp⟩ := rebuild_of_header
          { k := k, entries := es, n := x.length, payOff := c.length - w.pay.length } c.length
          hk.symm h0 hd hpb hbuild
        unfold decodeOutcome
        rw [hp]
        simp only [hx0, if_false]
        rw [hr]
        simp only
        have hsa := hsa' tr hsp
        have hba : BitsAt (listReader c) (c.length - w.pay.length) 0 (inputCodes code x) := by
          apply bitsAt_of_holds hh
          intro i hi
          have := memRead_getElem (listReader c) (c.length - w.pay.length) w.pay.length i (by simpa using hi)
          rw [← this]
          simp only [hpay]
        have hcap : ¬ p.decOutCap < BitVec.ofNat 32 x.length := by
          rw [BitVec.lt_def, BitVec.toNat_ofNat]; omega
        simp only [hcap, if_false]
        have hleft : 8 * (c.length - (c.length - w.pay.length)) =
            (inputCodes code x).length + (8 * w.pay.length - (inputCodes code x).length) := by
          have := hh.bytes
          rw [ceil8] at this
          omega
        rw [hleft, walkLoop_spellsAll (w := { cur := 0, emitted := 0, bitpos := 0, out := [] }) hsa hba (by simp) rfl,
          walkLoop_done (by simp)]
        have hbc : BitVec.ofNat 40 (inputCodes code x).length = w.bitcnt := by
          apply BitVec.eq_of_toNat_eq
          rw [BitVec.toNat_ofNat, Nat.mod_eq_of_lt hbl]
          exact hh.count.symm
        simp only [Nat.zero_add, hbc]

end Sys2Proof.Machine
end

