-- ==== Sys2Proof/Laws/Pseudo.lean ====
section
/-! SUPPORT. The two pseudo-operations (47_host_commands.md R212 to R214): the host's writes, acceptance, the unit's steps, the
host's reads. -/

namespace Sys2Proof.Machine

/-- A run of byte writes to a unit that is not `BUSY`, inside the buffer (R203, R212). -/
theorem writeInAll_eq (s : State) (u : UnitId) (a : Nat) (x : List Byte) (hb : s.busy u = false)
    (hl : a + x.length ≤ (s.inCap u).toNat) :
    s.writeInAll u a x = s.withBlock u { s.block u with inBuf := (s.block u).inBuf.writeAll a x } := by
  induction x generalizing s a with
  | nil => exact (State.withBlock_block s u).symm
  | cons b x ih =>
    have hw : s.writeIn u a b = s.withBlock u { s.block u with inBuf := (s.block u).inBuf.write a b } := by
      unfold State.writeIn
      rw [if_pos ⟨hb, by simp at hl; omega⟩]
    rw [State.writeInAll, hw, ih]
    · simp [Memory.writeAll]
    · simpa [State.busy] using hb
    · simp at hl ⊢; omega

/-- The state in which a pseudo-operation issues its command (R213, R214). -/
theorem prepared (s : State) (u : UnitId) (x : List Byte) (hb : s.busy u = false) (hl : x.length ≤ (s.inCap u).toNat) :
    (s.writeInAll u 0 x).writeInLen u (BitVec.ofNat 32 x.length) =
      s.withBlock u { s.block u with inLen := BitVec.ofNat 32 x.length, inBuf := (s.block u).inBuf.writeAll 0 x } := by
  rw [writeInAll_eq s u 0 x hb (by omega)]
  unfold State.writeInLen
  rw [if_neg (by simpa [State.busy] using hb)]
  simp

theorem hasInput_of_block {u : UnitId} {s t : State} {x : List Byte} (hl : x.length < 2 ^ 32)
    (h1 : (t.block u).inLen = BitVec.ofNat 32 x.length) (h2 : (t.block u).inBuf = (s.block u).inBuf.writeAll 0 x) :
    HasInput u t x := by
  refine ⟨by rw [h1, BitVec.toNat_ofNat, Nat.mod_eq_of_lt hl], fun i hi => ?_⟩
  rw [h2, Memory.read_writeAll, if_pos ⟨Nat.zero_le _, by omega⟩, Nat.sub_zero, List.getElem?_eq_getElem hi]

theorem inCap_lt (s : State) (u : UnitId) : (s.inCap u).toNat < 2 ^ 32 := BitVec.isLt _

/-- The output a host reads in `DONE` (R204, R213). -/
theorem output_of_done (s : State) (u : UnitId) (c : List Byte) (m : Memory) (h1 : (s.block u).state = .done)
    (h2 : (s.block u).outLen.toNat = c.length) (h3 : (s.block u).outBuf = m.writeAll 0 c) : s.output u = c := by
  unfold State.output
  rw [h2]
  apply memRead_eq_of_getElem
  intro i hi
  unfold State.outByte Block.outDefined
  rw [h1, h2, h3, Memory.read_writeAll]
  simp [hi]

/-- The result of a pseudo-operation whose command has the outcome `o`. -/
def hostResult {α : Type} (o : Except (BitVec 4 × Failure) (List Byte × α)) : HostResult :=
  match o with
  | .error (_, e) => .failure e
  | .ok (c, _) => .success c

/-- A container that `ENCODE` hands over fits the output buffer (R161). -/
theorem encodeOutcome_fits {p : Params} {x c : List Byte} {d : Diag} (h : encodeOutcome p x = .ok (c, d)) :
    c.length ≤ p.encOutCap.toNat := by
  unfold encodeOutcome at h
  cases hc : countBytes p.cntW [] x with
  | none => simp [hc] at h
  | some f =>
    simp only [hc] at h
    generalize containerBytes _ _ _ _ = k at h
    by_cases hk : p.encOutCap.toNat < k.length
    · simp [hk] at h
    · simp only [hk, if_false, Except.ok.injEq, Prod.mk.injEq] at h
      rw [← h.1]
      omega

/-- `encode(x)` (R213). -/
theorem encodeBytes_spec (s : State) (x : List Byte) (hb : s.busy .enc = false) (hl : x.length ≤ s.params.encInCap.toNat) :
    ∃ t, execEncodeBytes x s = .next t ∧ t.params = s.params ∧ t.agenda = s.agenda ∧ t.dec = s.dec ∧ t.decWork = s.decWork ∧
      HasInput .enc t x ∧ t.enc.ill = s.enc.ill ∧ t.enc.inBuf.read = (s.enc.inBuf.writeAll 0 x).read ∧
      EncEnds (encodeOutcome s.params x) t.enc ∧ t.result = hostResult (encodeOutcome s.params x) := by
  have hl32 : x.length < 2 ^ 32 := Nat.lt_of_le_of_lt hl (inCap_lt s .enc)
  set s1 := s.withBlock .enc { s.block .enc with inLen := BitVec.ofNat 32 x.length, inBuf := (s.block .enc).inBuf.writeAll 0 x } with hs1
  have hp : (s.writeInAll .enc 0 x).writeInLen .enc (BitVec.ofNat 32 x.length) = s1 := prepared s .enc x hb hl
  have hb1 : s1.busy .enc = false := by simpa [State.busy, hs1] using hb
  have hacc : execEncode s1 = .next (s1.accept .enc) := by rw [execEncode, unlessBusy, hb1]; rfl
  have hfit : (s1.block .enc).inLen ≤ s1.inCap .enc := by
    rw [hs1, State.block_withBlock, State.withBlock_inCap, BitVec.le_def]
    simp only [BitVec.toNat_ofNat, Nat.mod_eq_of_lt hl32]
    exact hl
  have ha := s1.accept_fits .enc hfit
  set s2 := s1.accept .enc with hs2
  have hstart : EncStart s2 := by rw [ha]; exact ⟨rfl, rfl, rfl, rfl, rfl, rfl⟩
  have hin : HasInput .enc s2 x := hasInput_of_block (s := s) hl32 (by rw [ha]; rfl) (by rw [ha]; rfl)
  obtain ⟨t, t1, t2, t3⟩ := encode_run s2 x hstart hin
  have hpar : s2.params = s.params := by rw [ha]; rfl
  rw [hpar] at t3
  refine ⟨(t.waitRead .enc).collect .enc, ?_, ?_, ?_, ?_, ?_, ?_, ?_, ?_, t3, ?_⟩
  · rw [execEncodeBytes, hp, hacc]
    simp only [andThen, maxPhases]
    rw [t1]
  · exact t2.params.trans hpar
  · exact t2.agenda.trans (by rw [ha]; rfl)
  · exact t2.other.1.trans (by rw [ha]; rfl)
  · exact t2.other.2.trans (by rw [ha]; rfl)
  · exact ⟨(hin.kept t2).1, (hin.kept t2).2⟩
  · exact t2.ill.trans (by rw [ha]; rfl)
  · funext a
    exact (t2.inByte a).trans (by rw [ha]; rfl)
  · show (match ((t.waitRead .enc).block .enc).state with
      | .done => HostResult.success ((t.waitRead .enc).output .enc)
      | .fault => .failure ((t.waitRead .enc).block .enc).err
      | .idle => (t.waitRead .enc).result
      | .busy => (t.waitRead .enc).result) = _
    have hblk : (t.waitRead .enc).block .enc = t.enc := rfl
    rw [hblk]
    cases ho : encodeOutcome s.params x with
    | error r =>
      obtain ⟨ph, e⟩ := r
      rw [ho] at t3
      obtain ⟨a1, a2, a3, a4, a5⟩ := t3
      rw [a1, a3]
      rfl
    | ok r =>
      obtain ⟨c, d⟩ := r
      rw [ho] at t3
      obtain ⟨a1, a2, a3, a4, a5, a6⟩ := t3
      have hc : c.length < 2 ^ 32 := by
        have := s.params.encOutCap.isLt
        have := encodeOutcome_fits ho
        omega
      rw [a1]
      simp only [hostResult]
      congr 1
      exact output_of_done _ .enc c [] (by rw [hblk]; exact a1)
        (by rw [hblk, a4, BitVec.toNat_ofNat, Nat.mod_eq_of_lt hc]) (by rw [hblk]; exact a6)

/-- The bytes a `DECODE` hands over. -/
def outputOf (m : Memory) (n : Word) : List Byte := memRead (fun a => (m.read a).getD 0) 0 n.toNat

/-- The result of `decode(c)` whose command has the outcome `o`. -/
def decodeResult (o : Except (BitVec 4 × Failure) (Memory × Word × Diag)) : HostResult :=
  match o with
  | .error (_, e) => .failure e
  | .ok (m, n, _) => .success (outputOf m n)

theorem decodeOutcome_keys {p : Params} {c : List Byte} {m : Memory} {n : Word} {d : Diag} (h : decodeOutcome p c = .ok (m, n, d)) :
    Table.keys m = List.range n.toNat := by
  unfold decodeOutcome at h
  cases hp : parseHeader (listReader c) c.length with
  | none => simp [hp] at h
  | some hd =>
    simp only [hp] at h
    have hb := (header_bounds hp).1
    split at h
    · simp only [Except.ok.injEq, Prod.mk.injEq] at h
      obtain ⟨rfl, rfl, -⟩ := h
      rfl
    · cases hr : (DecWork.initial.withHeader hd c.length).rebuild with
      | none => simp [hr] at h
      | some q =>
        obtain ⟨tr, seen⟩ := q
        simp only [hr] at h
        split at h
        · simp at h
        · cases hw : walkLoop (listReader c) hd.payOff hd.n tr (8 * (c.length - hd.payOff))
              { cur := 0, emitted := 0, bitpos := 0, out := [] } with
          | error e => simp [hw] at h
          | ok w =>
            simp only [hw, Except.ok.injEq, Prod.mk.injEq] at h
            obtain ⟨rfl, rfl, -⟩ := h
            rw [BitVec.toNat_ofNat, Nat.mod_eq_of_lt hb]
            exact (walkLoop_ok hw (Nat.zero_le _) rfl List.Pairwise.nil).2.1

/-- `decode(c)` (R214). -/
theorem decodeBytes_spec (s : State) (c : List Byte) (hb : s.busy .dec = false) (hl : c.length ≤ s.params.decInCap.toNat) :
    ∃ t, execDecodeBytes c s = .next t ∧ t.params = s.params ∧ t.agenda = s.agenda ∧ t.enc = s.enc ∧ t.encWork = s.encWork ∧
      HasInput .dec t c ∧ t.dec.ill = s.dec.ill ∧ t.dec.inBuf.read = (s.dec.inBuf.writeAll 0 c).read ∧
      DecEnds (decodeOutcome s.params c) t.dec ∧ t.result = decodeResult (decodeOutcome s.params c) := by
  have hl32 : c.length < 2 ^ 32 := Nat.lt_of_le_of_lt hl (inCap_lt s .dec)
  set s1 := s.withBlock .dec { s.block .dec with inLen := BitVec.ofNat 32 c.length, inBuf := (s.block .dec).inBuf.writeAll 0 c } with hs1
  have hp : (s.writeInAll .dec 0 c).writeInLen .dec (BitVec.ofNat 32 c.length) = s1 := prepared s .dec c hb hl
  have hb1 : s1.busy .dec = false := by simpa [State.busy, hs1] using hb
  have hacc : execDecode s1 = .next (s1.accept .dec) := by rw [execDecode, unlessBusy, hb1]; rfl
  have hfit : (s1.block .dec).inLen ≤ s1.inCap .dec := by
    rw [hs1, State.block_withBlock, State.withBlock_inCap, BitVec.le_def]
    simp only [BitVec.toNat_ofNat, Nat.mod_eq_of_lt hl32]
    exact hl
  have ha := s1.accept_fits .dec hfit
  set s2 := s1.accept .dec with hs2
  have hstart : DecStart s2 := by rw [ha]; exact ⟨rfl, rfl, rfl, rfl, rfl⟩
  have hin : HasInput .dec s2 c := hasInput_of_block (s := s) hl32 (by rw [ha]; rfl) (by rw [ha]; rfl)
  obtain ⟨t, t1, t2, t3⟩ := decode_run s2 c hstart hin
  have hpar : s2.params = s.params := by rw [ha]; rfl
  rw [hpar] at t3
  refine ⟨(t.waitRead .dec).collect .dec, ?_, ?_, ?_, ?_, ?_, ?_, ?_, ?_, t3, ?_⟩
  · rw [execDecodeBytes, hp, hacc]
    simp only [andThen, maxPhases]
    rw [t1]
  · exact t2.params.trans hpar
  · exact t2.agenda.trans (by rw [ha]; rfl)
  · exact t2.other.1.trans (by rw [ha]; rfl)
  · exact t2.other.2.trans (by rw [ha]; rfl)
  · exact ⟨(hin.kept t2).1, (hin.kept t2).2⟩
  · exact t2.ill.trans (by rw [ha]; rfl)
  · funext a
    exact (t2.inByte a).trans (by rw [ha]; rfl)
  · show (match ((t.waitRead .dec).block .dec).state with
      | .done => HostResult.success ((t.waitRead .dec).output .dec)
      | .fault => .failure ((t.waitRead .dec).block .dec).err
      | .idle => (t.waitRead .dec).result
      | .busy => (t.waitRead .dec).result) = _
    have hblk : (t.waitRead .dec).block .dec = t.dec := rfl
    rw [hblk]
    cases ho : decodeOutcome s.params c with
    | error r =>
      obtain ⟨ph, e⟩ := r
      rw [ho] at t3
      obtain ⟨a1, a2, a3, a4, a5⟩ := t3
      rw [a1, a3]
      rfl
    | ok r =>
      obtain ⟨m, n, d⟩ := r
      have hk := decodeOutcome_keys ho
      rw [ho] at t3
      obtain ⟨a1, a2, a3, a4, a5, a6⟩ := t3
      rw [a1]
      simp only [decodeResult, outputOf]
      congr 1
      unfold State.output
      rw [hblk, a4]
      apply memRead_congr
      intro i _ hi
      unfold State.outByte Block.outDefined
      rw [hblk, a1, a4, a6]
      have hsome : (m.read i).isSome := by
        rw [← Memory.mem_keys, hk, List.mem_range]
        omega
      obtain ⟨b, hb⟩ := Option.isSome_iff_exists.1 hsome
      have hi' : i < n.toNat := by omega
      simp [hi', hb]

theorem outputOf_writeAll (x : List Byte) (h : x.length < 2 ^ 32) :
    outputOf (Memory.writeAll [] 0 x) (BitVec.ofNat 32 x.length) = x := by
  unfold outputOf
  rw [BitVec.toNat_ofNat, Nat.mod_eq_of_lt h]
  apply memRead_eq_of_getElem
  intro i hi
  rw [Memory.read_writeAll]
  simp [hi]

end Sys2Proof.Machine
end

