-- ==== Sys2Proof/Laws/Invariant.lean ====
section
/-! SUPPORT. The invariant (Sys2Proof/Safety.lean), operation by operation: each shared operation, host access and phase keeps it,
and a phase of a `BUSY` unit always has a next state. -/

namespace Sys2Proof.Machine

theorem State.Inv.block {s : State} (h : s.Inv) (u : UnitId) : (s.block u).Coherent u (s.inCap u) (s.outCap u) := by
  cases u
  · exact h.enc
  · exact h.dec

/-- The invariant looks only at the parameters, the blocks and the working states. -/
theorem State.Inv.of_eq {s t : State} (h : s.Inv) (h1 : t.params = s.params) (h2 : t.enc = s.enc) (h3 : t.dec = s.dec)
    (h4 : t.encWork = s.encWork) (h5 : t.decWork = s.decWork) : t.Inv := by
  obtain ⟨a, b, c, d, e, f⟩ := h
  refine ⟨h1 ▸ a, ?_, ?_, ?_, ?_, ?_⟩
  · rw [h1, h2]; exact b
  · rw [h1, h3]; exact c
  · rw [h2, h4]; exact d
  · rw [h3, h5]; exact e
  · rw [State.bitWriter, h2, h4]; exact f

/-- A unit `u` that is not `BUSY` has taken the place of what it was. -/
theorem State.Inv.idle_unit {s t : State} (h : s.Inv) (u : UnitId) (h1 : t.params = s.params) (h2 : SameOther u s t)
    (hb : (t.block u).Coherent u (s.inCap u) (s.outCap u)) (hn : (t.block u).state ≠ .busy) (hw : u = .enc → t.bitWriter.Sound) :
    t.Inv := by
  cases u
  · refine ⟨h1 ▸ h.params, ?_, ?_, fun e => absurd e hn, ?_, hw rfl⟩
    · rw [h1]; exact hb
    · rw [h1, h2.1]; exact h.dec
    · rw [h2.1, h2.2]; exact h.decPhase
  · refine ⟨h1 ▸ h.params, ?_, ?_, ?_, fun e => absurd e hn, ?_⟩
    · rw [h1, h2.1]; exact h.enc
    · rw [h1]; exact hb
    · rw [h2.1, h2.2]; exact h.encPhase
    · rw [State.bitWriter, h2.1, h2.2]; exact h.writer

/-- A new block for unit `u` that is not `BUSY`, with the same `BITCNT`. -/
theorem State.Inv.withIdleBlock {s : State} (h : s.Inv) (u : UnitId) (b : Block) (hb : b.Coherent u (s.inCap u) (s.outCap u))
    (hn : b.state ≠ .busy) (hd : b.diag = (s.block u).diag) : (s.withBlock u b).Inv := by
  refine h.idle_unit u (State.withBlock_params ..) (by cases u <;> exact ⟨rfl, rfl⟩) (by rw [State.block_withBlock]; exact hb)
    (by rw [State.block_withBlock]; exact hn) ?_
  rintro rfl
  have hw : (s.withBlock .enc b).bitWriter = s.bitWriter := congrArg (fun d : Diag => BitWriter.mk s.encWork.pay d.bitcnt) hd
  rw [hw]
  exact h.writer

theorem State.Inv.draw {s : State} (h : s.Inv) : s.drawn.Inv := h.of_eq rfl rfl rfl rfl rfl

/-! Shared operations. -/

/-- Taking a fault keeps the invariant (R233, R236), whatever the block's phase was before it. -/
theorem State.Inv.raise_at {s : State} (h : s.Inv) (u : UnitId) (ph : BitVec 4) (e : Failure) (hf : (ph, e) ∈ faultWords u) :
    (State.raise (s.withBlock u { s.block u with phase := ph }) u e).Inv := by
  have hc := h.block u
  refine h.idle_unit u ?_ ?_ ?_ ?_ ?_
  · cases u <;> rfl
  · cases u <;> exact ⟨rfl, rfl⟩
  · rw [State.raise_block, State.block_withBlock]
    exact ⟨hc.inWf, hc.inRange, List.Pairwise.nil, fun x => (by cases x), fun x => (by cases x), fun x => (by cases x),
      fun _ => ⟨hf, rfl, rfl⟩⟩
  · rw [State.raise_block]
    exact fun x => (by cases x)
  · rintro rfl
    exact freeBitWriter_sound s.tick

theorem State.Inv.raise {s : State} (h : s.Inv) (u : UnitId) (e : Failure) (hf : ((s.block u).phase, e) ∈ faultWords u) :
    (s.raise u e).Inv := by
  have h1 := h.raise_at u (s.block u).phase e hf
  rwa [State.withBlock_block] at h1

theorem Block.cleared_coherent {u : UnitId} {ic oc : Word} {b : Block} (h : b.Coherent u ic oc) : b.cleared.Coherent u ic oc :=
  ⟨h.inWf, h.inRange, List.Pairwise.nil, fun _ => ⟨rfl, rfl, rfl, rfl, rfl⟩, fun x => (by cases x), fun x => (by cases x),
    fun x => (by cases x)⟩

theorem State.Inv.returnToIdle {s : State} (h : s.Inv) (u : UnitId) : (s.returnToIdle u).Inv :=
  h.idle_unit u (by cases u <;> rfl) (s.returnToIdle_kept_other u) (by rw [State.returnToIdle_block]; exact Block.cleared_coherent (h.block u))
    (by rw [State.returnToIdle_block]; exact fun x => (by cases x)) (by rintro rfl; exact ⟨[], BitWriter.empty_holds⟩)

/-- A change of `ILL`, which the invariant does not look at. -/
theorem State.Inv.markIllegal {s : State} (h : s.Inv) (u : UnitId) : (s.markIllegal u).Inv := by
  cases u
  · refine ⟨h.params, ?_, h.dec, ?_, h.decPhase, h.writer⟩
    · obtain ⟨a, b, c, d, e, f, g⟩ := h.enc
      exact ⟨a, b, c, d, e, f, g⟩
    · intro hb
      obtain ⟨a, b, c, d, e⟩ := h.encPhase hb
      exact ⟨a, b, c, d, e⟩
  · refine ⟨h.params, h.enc, ?_, h.encPhase, ?_, h.writer⟩
    · obtain ⟨a, b, c, d, e, f, g⟩ := h.dec
      exact ⟨a, b, c, d, e, f, g⟩
    · intro hb
      obtain ⟨a, b, c⟩ := h.decPhase hb
      exact ⟨a, b, c⟩

theorem Block.accepted_coherent {u : UnitId} {ic oc : Word} {b : Block} (d : Diag) (h : b.Coherent u ic oc) (hl : b.inLen ≤ ic) :
    (b.accepted d).Coherent u ic oc := by
  refine ⟨h.inWf, h.inRange, List.Pairwise.nil, fun x => (by cases x), fun _ => ⟨⟨?_, ?_⟩, rfl, rfl, rfl, hl⟩,
    fun x => (by cases x), fun x => (by cases x)⟩
  · show 1 ≤ firstPhase.toNat
    decide
  · show firstPhase.toNat ≤ maxPhases u
    cases u <;> decide

/-- Acceptance keeps the invariant (R206, R207). -/
theorem State.Inv.accept {s : State} (h : s.Inv) (u : UnitId) : (s.accept u).Inv := by
  have hc := h.block u
  by_cases hl : s.inCap u < (s.block u).inLen
  · rw [s.accept_tooLong u hl]
    -- the fault at acceptance: its phase is NONE
    exact h.raise_at u phaseNone .bufferBound (by cases u <;> simp [faultWords, phaseNone])
  · have hle : (s.block u).inLen ≤ s.inCap u := by simpa [BitVec.not_lt] using hl
    rw [s.accept_fits u hle]
    cases u
    · refine ⟨h.params, Block.accepted_coherent _ hc hle, h.dec, fun _ => ⟨fun _ => ⟨rfl, rfl⟩, ?_, ?_, ?_, ?_⟩, h.decPhase,
        ⟨[], BitWriter.empty_holds⟩⟩
      · intro hp; have hp' : firstPhase = 2 := hp; exact absurd hp' (by decide)
      · intro hp; have hp' : firstPhase = 3 := hp; exact absurd hp' (by decide)
      · intro hp; have hp' : firstPhase = 4 := hp; exact absurd hp' (by decide)
      · intro hp; have hp' : firstPhase = 5 := hp; exact absurd hp' (by decide)
    · refine ⟨h.params, h.enc, Block.accepted_coherent _ hc hle, h.encPhase, fun _ => ⟨fun _ => rfl, ?_, ?_⟩, h.writer⟩
      · intro hp; have hp' : firstPhase = 2 := hp; exact absurd hp' (by decide)
      · intro hp; have hp' : firstPhase = 3 := hp; exact absurd hp' (by decide)

/-! Host accesses. -/

theorem State.Inv.writeInLen {s : State} (h : s.Inv) (u : UnitId) (v : Word) : (s.writeInLen u v).Inv := by
  unfold State.writeInLen
  by_cases hb : s.busy u
  · rw [if_pos hb]; exact h
  · rw [if_neg hb]
    have hn : (s.block u).state ≠ .busy := by simpa [State.busy] using hb
    have hc := h.block u
    exact h.withIdleBlock u _ ⟨hc.inWf, hc.inRange, hc.outWf, hc.idle, fun e => absurd e hn, hc.done, hc.fault⟩ hn rfl

theorem State.Inv.writeIn {s : State} (h : s.Inv) (u : UnitId) (a : Nat) (b : Byte) : (s.writeIn u a b).Inv := by
  unfold State.writeIn
  by_cases hb : s.busy u = false ∧ a < (s.inCap u).toNat
  · rw [if_pos hb]
    have hn : (s.block u).state ≠ .busy := by simpa [State.busy] using hb.1
    have hc := h.block u
    refine h.withIdleBlock u _ ⟨Memory.write_wf a b hc.inWf, ?_, hc.outWf, hc.idle, fun e => absurd e hn, hc.done, hc.fault⟩ hn rfl
    intro i hi
    rcases (Table.mem_keys_set _ _ _ _).1 hi with rfl | hi
    · exact hb.2
    · exact hc.inRange i hi
  · rw [if_neg hb]; exact h

theorem State.Inv.writeInAll {s : State} (h : s.Inv) (u : UnitId) (a : Nat) (x : List Byte) : (s.writeInAll u a x).Inv := by
  induction x generalizing s a with
  | nil => exact h
  | cons b x ih => exact ih (h.writeIn u a b) (a + 1)

theorem State.Inv.resetUnits {s : State} (h : s.Inv) : s.resetUnits.Inv := by
  have hr : ∀ u ic oc, Block.reset.Coherent u ic oc := fun u ic oc =>
    ⟨List.Pairwise.nil, fun a ha => (by cases ha), List.Pairwise.nil, fun _ => ⟨rfl, rfl, rfl, rfl, rfl⟩, fun x => (by cases x),
      fun x => (by cases x), fun x => (by cases x)⟩
  exact ⟨h.params, hr _ _ _, hr _ _ _, fun x => (by cases x), fun x => (by cases x), ⟨[], BitWriter.empty_holds⟩⟩

theorem State.Inv.regRead {s : State} (h : s.Inv) (u : UnitId) (r : BitVec 4) : (s.regRead u r).Inv :=
  h.of_eq rfl rfl rfl rfl rfl

theorem State.Inv.collect {s : State} (h : s.Inv) (u : UnitId) : (s.collect u).Inv := h.of_eq rfl rfl rfl rfl rfl

/-! Phases. -/

/-- What holds after a phase of a `BUSY` unit under the invariant: it has a next state, which keeps the frame and the invariant. -/
def GoesOn (u : UnitId) (s : State) (o : Host.Outcome State Fault Refusal) : Prop := ∃ t, o = .next t ∧ Kept u s t ∧ t.Inv

theorem goesOn_raise {s : State} (h : s.Inv) (u : UnitId) (e : Failure) (hf : ((s.block u).phase, e) ∈ faultWords u) :
    GoesOn u s (.next (s.raise u e)) := ⟨_, rfl, State.raise_kept s u e, h.raise u e hf⟩

theorem inv_enc_step {s t : State} (h : s.Inv) (hk : Kept .enc s t)
    (hc : t.enc.Coherent .enc s.params.encInCap s.params.encOutCap) (hp : t.enc.state = .busy → EncPhaseOk t.enc t.encWork)
    (hw : t.bitWriter.Sound) : t.Inv := by
  refine ⟨hk.params ▸ h.params, ?_, ?_, hp, ?_, hw⟩
  · rw [hk.params]; exact hc
  · rw [hk.params, hk.other.1]; exact h.dec
  · rw [hk.other.1, hk.other.2]; exact h.decPhase

theorem inv_dec_step {s t : State} (h : s.Inv) (hk : Kept .dec s t)
    (hc : t.dec.Coherent .dec s.params.decInCap s.params.decOutCap) (hp : t.dec.state = .busy → DecPhaseOk t.dec t.decWork) : t.Inv := by
  refine ⟨hk.params ▸ h.params, ?_, ?_, ?_, hp, ?_⟩
  · rw [hk.params, hk.other.1]; exact h.enc
  · rw [hk.params]; exact hc
  · rw [hk.other.1, hk.other.2]; exact h.encPhase
  · rw [State.bitWriter, hk.other.1, hk.other.2]; exact h.writer

/-- A `BUSY` block with another phase and other diagnostics. -/
theorem Block.coherent_phase {u : UnitId} {ic oc : Word} {b : Block} (h : b.Coherent u ic oc) (hb : b.state = .busy) (ph : BitVec 4)
    (d : Diag) (h1 : 1 ≤ ph.toNat) (h2 : ph.toNat ≤ maxPhases u) : Block.Coherent u ic oc { b with phase := ph, diag := d } := by
  obtain ⟨-, e2, e3, e4, e5⟩ := h.busy hb
  refine ⟨h.inWf, h.inRange, h.outWf, fun x => ?_, fun _ => ⟨⟨h1, h2⟩, e2, e3, e4, e5⟩, fun x => ?_, fun x => ?_⟩
  · rw [hb] at x; cases x
  · rw [hb] at x; cases x
  · rw [hb] at x; cases x

theorem goesOn_count {s : State} (h : s.Inv) (hb : s.enc.state = .busy) (hp : s.enc.phase = 1) : GoesOn .enc s (execFtCount s) := by
  obtain ⟨hw, hbit⟩ := (h.encPhase hb).count hp
  cases hc : countBytes s.params.cntW s.encWork.freq (s.input .enc) with
  | none =>
    have : execFtCount s = .next (s.raise .enc .overflow) := by rw [execFtCount, hc]
    rw [this]
    exact goesOn_raise h .enc .overflow (by show (s.enc.phase, Failure.overflow) ∈ faultWords .enc; rw [hp]; simp [faultWords])
  | some f =>
    obtain ⟨t, t1, t2, t3, t4⟩ := execFtCount_some hc
    have hd := distinctSymbols_le f
    refine ⟨t, t1, t2, inv_enc_step h t2 ?_ ?_ (by rw [State.bitWriter, t3, t4]; exact h.writer)⟩
    · rw [t3]
      refine Block.coherent_phase h.enc hb _ _ ?_ ?_ <;> split <;> decide
    · intro _
      rw [hw] at t4
      by_cases h0 : distinctSymbols f = 0
      · have hph : t.enc.phase = 5 := by rw [t3]; simp [h0, phaseSerialize]
        refine ⟨fun x => ?_, fun x => ?_, fun x => ?_, fun x => ?_, fun _ => ?_⟩
        · rw [hph] at x; exact absurd x (by decide)
        · rw [hph] at x; exact absurd x (by decide)
        · rw [hph] at x; exact absurd x (by decide)
        · rw [hph] at x; exact absurd x (by decide)
        · have hbc : t.enc.diag.bitcnt = 0 := by rw [t3]; exact hbit
          rw [t4, hbc]; rfl
      · have hph : t.enc.phase = 2 := by rw [t3]; simp [h0, phaseBuild]
        refine ⟨fun x => ?_, fun _ => ⟨?_, ?_, ?_, ?_⟩, fun x => ?_, fun x => ?_, fun x => ?_⟩
        · rw [hph] at x; exact absurd x (by decide)
        · rw [t3]; exact hbit
        · rw [t4]; show 1 ≤ distinctSymbols f; omega
        · rw [t3, t4]
          show (BitVec.ofNat 9 (distinctSymbols f)).toNat = distinctSymbols f
          rw [BitVec.toNat_ofNat]; omega
        · rw [t4]
        · rw [hph] at x; exact absurd x (by decide)
        · rw [hph] at x; exact absurd x (by decide)
        · rw [hph] at x; exact absurd x (by decide)

theorem goesOn_build {s : State} (h : s.Inv) (hb : s.enc.state = .busy) (hp : s.enc.phase = 2) : GoesOn .enc s (execTbBuild s) := by
  obtain ⟨hbit, hd, hn, hw⟩ := (h.encPhase hb).build hp
  obtain ⟨r, tr, m1, m2, m3, m4, m5⟩ := buildOf_spec s.encWork.freq hd
  have hbuilt : s.encWork.built = buildOf s.encWork.freq := congrArg EncWork.built hw
  have hnz : s.enc.diag.nsym ≠ 0 := by
    intro e
    rw [e] at hn
    simp at hn
    omega
  obtain ⟨t, t1, t2, t3, t4⟩ := execTbBuild_some hnz (hbuilt ▸ m1)
  rw [hbuilt] at t4
  have hlen : tr.symbols.length ≤ 256 := by
    rw [m3.length_eq, List.length_map]
    exact occurring_length_le _
  generalize buildOf s.encWork.freq = bw at *
  have hph : t.enc.phase = 3 := by rw [t3]; rfl
  refine ⟨t, t1, t2, inv_enc_step h t2 ?_ ?_ ?_⟩
  · rw [t3]
    exact Block.coherent_phase h.enc hb _ _ (by decide) (by decide)
  · intro _
    refine ⟨fun x => ?_, fun x => ?_, fun _ => ⟨?_, ?_, ?_, r, tr, ?_, ?_, hlen⟩, fun x => ?_, fun x => ?_⟩
    · rw [hph] at x; exact absurd x (by decide)
    · rw [hph] at x; exact absurd x (by decide)
    · rw [t3]; exact hbit
    · rw [t4]; exact m4
    · rw [t4]; exact m5
    · rw [t4]
    · rw [t4]; exact m2
    · rw [hph] at x; exact absurd x (by decide)
    · rw [hph] at x; exact absurd x (by decide)
  · have hbw : t.bitWriter = BitWriter.empty := by
      rw [State.bitWriter, t3, t4]
      simp only [BitWriter.empty, m5, hbit]
    rw [hbw]
    exact ⟨[], BitWriter.empty_holds⟩

theorem goesOn_assign {s : State} (h : s.Inv) (hb : s.enc.state = .busy) (hp : s.enc.phase = 3) : GoesOn .enc s (execCaAssign s) := by
  obtain ⟨hbit, hcode, hpay, r, tr, hr, hat, hlen⟩ := (h.encPhase hb).assign hp
  have ha : assignCodes s.encWork.node s.encWork.root s.encWork.code = .ok (writeCodes [] tr.codes) := by
    rw [hr, hcode]; exact assignCodes_tree tr r [] hat hlen
  obtain ⟨t, t1, t2, t3, t4⟩ := execCaAssign_ok ha
  have hph : t.enc.phase = 4 := by rw [t3]; rfl
  refine ⟨t, t1, t2, inv_enc_step h t2 ?_ ?_ (by rw [State.bitWriter, t3, t4]; exact h.writer)⟩
  · rw [t3]
    exact Block.coherent_phase h.enc hb _ _ (by decide) (by decide)
  · intro _
    refine ⟨fun x => ?_, fun x => ?_, fun x => ?_, fun _ => ⟨?_, ?_, ?_⟩, fun x => ?_⟩
    · rw [hph] at x; exact absurd x (by decide)
    · rw [hph] at x; exact absurd x (by decide)
    · rw [hph] at x; exact absurd x (by decide)
    · rw [t3]; exact hbit
    · rw [t4]; exact hpay
    · rw [t4]; exact bits_writeCodes_length tr hlen
    · rw [hph] at x; exact absurd x (by decide)

theorem goesOn_pack {s : State} (h : s.Inv) (hb : s.enc.state = .busy) (hp : s.enc.phase = 4) : GoesOn .enc s (execBwPack s) := by
  obtain ⟨hbit, hpay, hlen⟩ := (h.encPhase hb).pack hp
  obtain ⟨t, t1, t2, t3, t4⟩ := execBwPack_next s
  have hw : s.bitWriter = BitWriter.empty := by simp [State.bitWriter, hbit, hpay, BitWriter.empty]
  rw [hw] at t3 t4
  have hin : (s.input .enc).length < 2 ^ 32 := by
    unfold State.input
    rw [memRead_length]
    exact BitVec.isLt _
  have hh := packInput_holds s.encWork.code (s.input .enc) hlen hin
  have hph : t.enc.phase = 5 := by rw [t3]; rfl
  refine ⟨t, t1, t2, inv_enc_step h t2 ?_ ?_ (by rw [State.bitWriter, t3, t4]; exact ⟨_, hh⟩)⟩
  · rw [t3]
    exact Block.coherent_phase h.enc hb _ _ (by decide) (by decide)
  · intro _
    refine ⟨fun x => ?_, fun x => ?_, fun x => ?_, fun x => ?_, fun _ => ?_⟩
    · rw [hph] at x; exact absurd x (by decide)
    · rw [hph] at x; exact absurd x (by decide)
    · rw [hph] at x; exact absurd x (by decide)
    · rw [hph] at x; exact absurd x (by decide)
    · rw [t3, t4]
      exact hh.bytes.trans (congrArg ceil8 hh.count.symm)

/-- A command's success (R236): a block with its output in place. -/
theorem Block.finished_coherent {u : UnitId} {ic oc : Word} {b : Block} (h : b.Coherent u ic oc) (hb : b.state = .busy) (n : Word)
    (d : Diag) (m : Memory) (hn : n ≤ oc) (hm : m.wf) (hk : Table.keys m = List.range n.toNat) :
    (b.finished n d m).Coherent u ic oc :=
  ⟨h.inWf, h.inRange, hm, fun x => (by cases x), fun x => (by cases x), fun _ => ⟨rfl, (h.busy hb).2.1, hn, hk⟩, fun x => (by cases x)⟩

theorem goesOn_serialize {s : State} (h : s.Inv) (hb : s.enc.state = .busy) (hp : s.enc.phase = 5) :
    GoesOn .enc s (execEncSerialize s) := by
  by_cases hc : s.params.encOutCap.toNat < s.container.length
  · rw [execEncSerialize_tooLong hc]
    exact goesOn_raise h .enc .bufferBound (by show (s.enc.phase, Failure.bufferBound) ∈ faultWords .enc; rw [hp]; simp [faultWords])
  · obtain ⟨t, t1, t2, t3, t4⟩ := execEncSerialize_fits (s := s) (by omega)
    have ho := (h.enc.busy hb).2.2.2.1
    have hcap := s.params.encOutCap.isLt
    have hl : (BitVec.ofNat 32 s.container.length).toNat = s.container.length := by
      rw [BitVec.toNat_ofNat, Nat.mod_eq_of_lt (by omega)]
    refine ⟨t, t1, t2, inv_enc_step h t2 ?_ ?_ (by rw [State.bitWriter, t3, t4]; exact h.writer)⟩
    · rw [t3, ho]
      refine Block.finished_coherent h.enc hb _ _ _ ?_ (Memory.writeAll_wf _ _ List.Pairwise.nil) ?_
      · rw [BitVec.le_def, hl]; omega
      · rw [hl, Memory.keys_writeAll_next (n := 0) s.container rfl, Nat.zero_add]
    · intro x
      rw [t3] at x
      cases x

theorem goesOn_parse {s : State} (h : s.Inv) (hb : s.dec.state = .busy) (hp : s.dec.phase = 1) : GoesOn .dec s (execDecParse s) := by
  have hw := (h.decPhase hb).parse hp
  cases hc : parseHeader (s.inByte .dec) s.dec.inLen.toNat with
  | none =>
    have : execDecParse s = .next (s.raise .dec .corruptData) := by rw [execDecParse, hc]
    rw [this]
    exact goesOn_raise h .dec .corruptData (by show (s.dec.phase, Failure.corruptData) ∈ faultWords .dec; rw [hp]; simp [faultWords])
  | some hd =>
    obtain ⟨b1, b2, b3, b4, b5⟩ := header_bounds hc
    have hlen := s.dec.inLen.isLt
    by_cases hn : hd.n = 0
    · obtain ⟨t, t1, t2, t3, -⟩ := execDecParse_zero hc hn
      refine ⟨t, t1, t2, inv_dec_step h t2 ?_ ?_⟩
      · have ho := (h.dec.busy hb).2.2.2.1
        rw [t3, ho]
        exact Block.finished_coherent h.dec hb _ _ _ (by rw [BitVec.le_def]; exact Nat.zero_le _) List.Pairwise.nil rfl
      · intro x
        rw [t3] at x
        cases x
    · obtain ⟨t, t1, t2, t3, t4⟩ := execDecParse_some hc hn
      have hph : t.dec.phase = 2 := by rw [t3]; rfl
      refine ⟨t, t1, t2, inv_dec_step h t2 ?_ ?_⟩
      · rw [t3]
        exact Block.coherent_phase h.dec hb _ _ (by decide) (by decide)
      · intro _
        rw [hw] at t4
        have hk9 : t.decWork.k.toNat = hd.k := by
          rw [t4]
          show (BitVec.ofNat 9 hd.k).toNat = hd.k
          rw [BitVec.toNat_ofNat]; omega
        refine ⟨fun x => ?_, fun _ => ⟨?_, ?_, ?_, ?_, ?_, ?_, ?_⟩, fun x => ?_⟩
        · rw [hph] at x; exact absurd x (by decide)
        · rw [t4]
          show BitVec.ofNat 32 hd.n ≠ 0
          intro e
          have := congrArg BitVec.toNat e
          rw [BitVec.toNat_ofNat, Nat.mod_eq_of_lt b1] at this
          exact hn this
        · rw [t4]; rfl
        · rw [t4]; rfl
        · rw [hk9, t4, b3]; rfl
        · rw [hk9]; exact b4
        · rw [t4]; exact b5
        · rw [t4, t3]
          show (BitVec.ofNat 32 hd.payOff).toNat + (BitVec.ofNat 32 (s.dec.inLen.toNat - hd.payOff)).toNat = s.dec.inLen.toNat
          rw [BitVec.toNat_ofNat, BitVec.toNat_ofNat, Nat.mod_eq_of_lt (by omega), Nat.mod_eq_of_lt (by omega)]
          omega
        · rw [hph] at x; exact absurd x (by decide)

theorem goesOn_rebuild {s : State} (h : s.Inv) (hb : s.dec.state = .busy) (hp : s.dec.phase = 2) :
    GoesOn .dec s (execTrRebuild s) := by
  obtain ⟨hn, ht, hs, hl, hk, hbits, hoff⟩ := (h.decPhase hb).rebuild hp
  have hf : GoesOn .dec s (.next (s.raise .dec .corruptData)) :=
    goesOn_raise h .dec .corruptData (by show (s.dec.phase, Failure.corruptData) ∈ faultWords .dec; rw [hp]; simp [faultWords])
  cases hr : s.decWork.rebuild with
  | none => rw [execTrRebuild, hr]; exact hf
  | some q =>
    obtain ⟨tr, seen⟩ := q
    have hk0 : s.decWork.k ≠ 0 := by
      intro e
      unfold DecWork.rebuild at hr
      rw [if_pos e] at hr
      cases hr
    have hspec := DecWork.rebuild_spec s.decWork ht hs hk0 hl (fun e he e0 => by have := (hbits e he).1; rw [e0] at this; simp at this)
    rw [hr] at hspec
    obtain ⟨hbuild, -, htl, -⟩ := hspec
    obtain ⟨t, t1, t2, t3, t4⟩ := execTrRebuild_some hr
    have hph : t.dec.phase = 3 := by rw [t3]; rfl
    refine ⟨t, t1, t2, inv_dec_step h t2 ?_ ?_⟩
    · rw [t3]
      exact Block.coherent_phase h.dec hb _ _ (by decide) (by decide)
    · intro _
      refine ⟨fun x => ?_, fun x => ?_, fun _ => ⟨?_, ?_, ?_⟩⟩
      · rw [hph] at x; exact absurd x (by decide)
      · rw [hph] at x; exact absurd x (by decide)
      · rw [t4]; exact hn
      · rw [t4]
        show tr.length ≤ Config.nodeCap
        rw [htl]
        exact hbuild.2.2
      · rw [t4, t3]; exact hoff

theorem goesOn_walk {s : State} (h : s.Inv) (hb : s.dec.state = .busy) (hp : s.dec.phase = 3) : GoesOn .dec s (execTwWalk s) := by
  have hf : ∀ e, e = .bufferBound ∨ e = .truncatedStream ∨ e = .corruptData → GoesOn .dec s (.next (s.raise .dec e)) := by
    intro e he
    apply goesOn_raise h .dec e
    show (s.dec.phase, e) ∈ faultWords .dec
    rw [hp]
    rcases he with rfl | rfl | rfl <;> simp [faultWords]
  by_cases hc : s.params.decOutCap < s.decWork.n
  · rw [execTwWalk, if_pos hc]
    exact hf _ (Or.inl rfl)
  · cases hw : s.walk with
    | error e =>
      rw [execTwWalk, if_neg hc, hw]
      exact hf e (Or.inr (walkLoop_error hw))
    | ok w =>
      obtain ⟨t, t1, t2, t3, -⟩ := execTwWalk_ok (s := s) (by simpa [BitVec.not_lt] using hc) hw
      refine ⟨t, t1, t2, inv_dec_step h t2 ?_ ?_⟩
      · have ho := (h.dec.busy hb).2.2.2.1
        obtain ⟨-, k2, k3, -⟩ := walkLoop_ok hw (Nat.zero_le _) (by rw [ho]; rfl) (by rw [ho]; exact List.Pairwise.nil)
        rw [t3]
        exact Block.finished_coherent h.dec hb _ _ _ (by simpa [BitVec.not_lt] using hc) k3 k2
      · intro x
        rw [t3] at x
        cases x

/-! The sequencer. -/

theorem runFetched_phase (u : UnitId) (s : State) : runFetched (.phase u (s.block u).statusWord) s = unitPhase u s := by
  unfold runFetched unitPhase
  rw [decode, statusPhase_statusWord]
  generalize hp : (s.block u).phase = p
  cases u with
  | enc =>
    by_cases h1 : p = 1
    · subst h1; rfl
    by_cases h2 : p = 2
    · subst h2; rfl
    by_cases h3 : p = 3
    · subst h3; rfl
    by_cases h4 : p = 4
    · subst h4; rfl
    by_cases h5 : p = 5
    · subst h5; rfl
    have he : decodePhase .enc p = .error (.reservedPhase .enc p) := by
      simp only [decodePhase, if_neg h1, if_neg h2, if_neg h3, if_neg h4, if_neg h5]
    rw [he]
  | dec =>
    by_cases h1 : p = 1
    · subst h1; rfl
    by_cases h2 : p = 2
    · subst h2; rfl
    by_cases h3 : p = 3
    · subst h3; rfl
    have he : decodePhase .dec p = .error (.reservedPhase .dec p) := by
      simp only [decodePhase, if_neg h1, if_neg h2, if_neg h3]
    rw [he]

/-- The next phase of a `BUSY` unit (R211, R17). -/
theorem goesOn_phase {s : State} (h : s.Inv) (u : UnitId) (hb : s.busy u = true) : GoesOn u s (unitPhase u s) := by
  cases u with
  | enc =>
    have hb' : s.enc.state = .busy := of_decide_eq_true hb
    obtain ⟨⟨h1, h2⟩, -⟩ := h.enc.busy hb'
    have h2' : s.enc.phase.toNat ≤ 5 := h2
    have : s.enc.phase = 1 ∨ s.enc.phase = 2 ∨ s.enc.phase = 3 ∨ s.enc.phase = 4 ∨ s.enc.phase = 5 := by
      generalize s.enc.phase = ph at h1 h2'
      revert ph
      decide
    rcases this with hp | hp | hp | hp | hp
    · rw [unitPhase_count hp]; exact goesOn_count h hb' hp
    · rw [unitPhase_build hp]; exact goesOn_build h hb' hp
    · rw [unitPhase_assign hp]; exact goesOn_assign h hb' hp
    · rw [unitPhase_pack hp]; exact goesOn_pack h hb' hp
    · rw [unitPhase_serialize hp]; exact goesOn_serialize h hb' hp
  | dec =>
    have hb' : s.dec.state = .busy := of_decide_eq_true hb
    obtain ⟨⟨h1, h2⟩, -⟩ := h.dec.busy hb'
    have h2' : s.dec.phase.toNat ≤ 3 := h2
    have : s.dec.phase = 1 ∨ s.dec.phase = 2 ∨ s.dec.phase = 3 := by
      generalize s.dec.phase = ph at h1 h2'
      revert ph
      decide
    rcases this with hp | hp | hp
    · rw [unitPhase_parse hp]; exact goesOn_parse h hb' hp
    · rw [unitPhase_rebuild hp]; exact goesOn_rebuild h hb' hp
    · rw [unitPhase_walk hp]; exact goesOn_walk h hb' hp

theorem goesOn_run {s : State} (h : s.Inv) (u : UnitId) (n : Nat) : GoesOn u s (unitRun u n s) := by
  induction n generalizing s with
  | zero => exact ⟨s, rfl, Kept.refl u s, h⟩
  | succ n ih =>
    by_cases hb : s.busy u = true
    · rw [unitRun_busy hb]
      obtain ⟨t, t1, t2, t3⟩ := goesOn_phase h u hb
      rw [t1]
      obtain ⟨r, r1, r2, r3⟩ := ih t3
      exact ⟨r, r1, t2.trans r2, r3⟩
    · rw [unitRun_idle (by simpa using hb)]
      exact ⟨s, rfl, Kept.refl u s, h⟩

theorem unitStep_inv {s : State} (h : s.Inv) (u : UnitId) : ∃ t, unitStep u s = .next t ∧ t.Inv := by
  unfold unitStep
  by_cases hb : s.busy u = true
  · rw [if_pos hb, runFetched_phase]
    obtain ⟨t, t1, -, t3⟩ := goesOn_phase h u hb
    exact ⟨t, t1, t3⟩
  · rw [if_neg hb]
    exact ⟨s, rfl, h⟩

/-- With one unit `BUSY`, the free step is that unit's. -/
theorem freeStep_alone {s : State} {u : UnitId} (hb : s.busy u = true) (hv : ∀ v, v ≠ u → s.busy v = false) :
    freeStep s = unitStep u s := by
  unfold freeStep State.nextUnit
  cases u
  · have := hv .dec (by decide); simp [hb, this]
  · have := hv .enc (by decide); simp [this]

/-- With both units `BUSY`, the free step is the one's or the other's, after the draw that chooses. -/
theorem freeStep_both {s : State} (h1 : s.busy .enc = true) (h2 : s.busy .dec = true) :
    freeStep s = unitStep .enc s.drawn ∨ freeStep s = unitStep .dec s.drawn := by
  unfold freeStep
  rw [if_pos ⟨h1, h2⟩]
  cases s.nextUnit
  · exact Or.inl rfl
  · exact Or.inr rfl

/-- With no unit `BUSY`, the free step changes nothing. -/
theorem freeStep_none {s : State} (h : ∀ u, s.busy u = false) : freeStep s = .next s := by
  simp [freeStep, unitStep, h]

theorem freeStep_inv {s : State} (h : s.Inv) : ∃ t, freeStep s = .next t ∧ t.Inv := by
  unfold freeStep
  split
  · exact unitStep_inv h.draw _
  · exact unitStep_inv h _

/-- The commands a word can stand for. -/
theorem decodeCommand_cases (u : UnitId) (w : Word) :
    decodeCommand u w = .nop u ∨ (decodeCommand u w = .encode ∧ u = .enc) ∨ (decodeCommand u w = .decode ∧ u = .dec) ∨
      decodeCommand u w = .clear u ∨ decodeCommand u w = .illegal u w := by
  unfold decodeCommand
  split
  · simp
  · split
    · simp
    · split
      · rename_i h; simp [h.2]
      · split
        · rename_i h; simp [h.2]
        · split <;> simp

theorem unlessBusy_inv {s : State} (h : s.Inv) (u : UnitId) (f : State → State) (hf : (f s).Inv) : (unlessBusy u s f).Inv := by
  unfold unlessBusy
  by_cases hb : s.busy u = true
  · rw [if_pos hb]; exact h.markIllegal u
  · rw [if_neg hb]; exact hf

/-- A `CMD` write always has a next state, and keeps the invariant. -/
theorem command_inv {s : State} (h : s.Inv) (u : UnitId) (w : Word) : ∃ t, runFetched (.command u w) s = .next t ∧ t.Inv := by
  show ∃ t, exec (decodeCommand u w) s = .next t ∧ t.Inv
  rcases decodeCommand_cases u w with e | ⟨e, -⟩ | ⟨e, -⟩ | e | e <;> rw [e]
  · exact ⟨s, rfl, h⟩
  · exact ⟨_, rfl, unlessBusy_inv h .enc _ (h.accept .enc)⟩
  · exact ⟨_, rfl, unlessBusy_inv h .dec _ (h.accept .dec)⟩
  · exact ⟨_, rfl, unlessBusy_inv h u _ (h.returnToIdle u)⟩
  · exact ⟨_, rfl, h.markIllegal u⟩

theorem encodeBytes_inv {s : State} (h : s.Inv) (x : List Byte) : ∃ t, execEncodeBytes x s = .next t ∧ t.Inv := by
  have h1 := (h.writeInAll .enc 0 x).writeInLen .enc (BitVec.ofNat 32 x.length)
  have h2 := unlessBusy_inv h1 .enc (fun s => s.accept .enc) (h1.accept .enc)
  obtain ⟨t, t1, -, t3⟩ := goesOn_run h2 .enc (maxPhases .enc)
  refine ⟨(t.waitRead .enc).collect .enc, ?_, (t3.regRead .enc 1).collect .enc⟩
  rw [execEncodeBytes, execEncode]
  simp only [andThen]
  rw [t1]

theorem decodeBytes_inv {s : State} (h : s.Inv) (c : List Byte) : ∃ t, execDecodeBytes c s = .next t ∧ t.Inv := by
  have h1 := (h.writeInAll .dec 0 c).writeInLen .dec (BitVec.ofNat 32 c.length)
  have h2 := unlessBusy_inv h1 .dec (fun s => s.accept .dec) (h1.accept .dec)
  obtain ⟨t, t1, -, t3⟩ := goesOn_run h2 .dec (maxPhases .dec)
  refine ⟨(t.waitRead .dec).collect .dec, ?_, (t3.regRead .dec 1).collect .dec⟩
  rw [execDecodeBytes, execDecode]
  simp only [andThen]
  rw [t1]

/-- Every move of the agenda has a next state and keeps the invariant. -/
theorem perform_inv {s : State} (h : s.Inv) (e : Event) : ∃ t, perform e s = .next t ∧ t.Inv := by
  cases e with
  | regRead u r => exact ⟨_, rfl, h.regRead u r⟩
  | regWrite u r v =>
    simp only [perform, regWrite]
    by_cases h0 : r = 0
    · rw [if_pos h0]; exact command_inv h u v
    · rw [if_neg h0]
      by_cases h2 : r = 2
      · rw [if_pos h2]; exact ⟨_, rfl, h.writeInLen u v⟩
      · rw [if_neg h2]; exact ⟨_, rfl, h⟩
  | writeIn u a b => exact ⟨_, rfl, h.writeIn u a b⟩
  | writeOut u a b => exact ⟨_, rfl, h⟩
  | readIn u a => exact ⟨_, rfl, h.of_eq rfl rfl rfl rfl rfl⟩
  | readOut u a => exact ⟨_, rfl, h.of_eq rfl rfl rfl rfl rfl⟩
  | reset => exact ⟨_, rfl, h.resetUnits⟩
  | wait u =>
    simp only [perform]
    by_cases hb : s.busy u = true
    · rw [if_pos hb]; exact unitStep_inv (s := { s with agenda := .wait u :: s.agenda }) (h.of_eq rfl rfl rfl rfl rfl) u
    · rw [if_neg hb]; exact ⟨_, rfl, h.regRead u 1⟩
  | collect u => exact ⟨_, rfl, h.collect u⟩
  | unitStep u => exact unitStep_inv h u
  | encodeBytes x => exact encodeBytes_inv h x
  | decodeBytes c => exact decodeBytes_inv h c

end Sys2Proof.Machine
end

