-- ==== Sys2Proof/Laws/Coding.lean ====
section
/-! SUPPORT. Encodings (30_encoding.md): the fields of the words, and a command word from the command it stands for. -/

namespace Sys2Proof
open Machine

/-- The `PHASE` field of a `STATUS` word as a number (R83). -/
theorem statusPhase_toNat (w : Word) : (statusPhase w).toNat = w.toNat / 16 % 16 := by
  rw [statusPhase, extract_toNat]; norm_num

/-- The phase code, from its number. -/
theorem statusPhase_eq (w : Word) (n : Nat) (hn : n < 16) (h : w.toNat / 16 % 16 = n) : statusPhase w = BitVec.ofNat 4 n := by
  apply BitVec.eq_of_toNat_eq; rw [statusPhase_toNat, h]; simp; omega

/-- A command word is the encoding of the command it stands for (R80 to R82). -/
theorem encode_decodeCommand (u : UnitId) (w : Word) : encode (decodeCommand u w) = some (.command u w) := by
  have key : ∀ n : Nat, n < 256 → cmdRsv w = 0 → cmdOp w = BitVec.ofNat 8 n → w = BitVec.ofNat 32 n := by
    intro n hn h1 h2
    have a1 := congrArg BitVec.toNat h1
    have a2 := congrArg BitVec.toNat h2
    rw [cmdRsv, extract_toNat] at a1
    rw [cmdOp, extract_toNat] at a2
    apply BitVec.eq_of_toNat_eq
    have := w.isLt
    simp at a1 a2 ⊢
    omega
  unfold decodeCommand
  split
  · rfl
  · rename_i h0
    have h0 : cmdRsv w = 0 := by simpa using h0
    split
    · rename_i h; rw [key 0 (by omega) h0 h]; rfl
    split
    · rename_i h; rw [key 1 (by omega) h0 h.1, h.2]; rfl
    split
    · rename_i h; rw [key 2 (by omega) h0 h.1, h.2]; rfl
    split
    · rename_i h; rw [key 3 (by omega) h0 h]; rfl
    · rfl

end Sys2Proof
end

