-- ==== Sys2Proof/Laws/Insert.lean ====
section
/-! SUPPORT. One insertion into any trie (46_decoder.md R178): when it succeeds, what it adds, and that it takes nothing away;
and that the trie of a code table spells nothing else (R179). -/

namespace Sys2Proof.Machine

/-- `t'` holds all that `t` holds. -/
structure Trie.Grows (t t' : Trie) : Prop where
  length : t.length ≤ t'.length
  child  : ∀ n b m, t.child n b = some m → t'.child n b = some m
  leaf   : ∀ n, n < t.length → t'.leafAt n = t.leafAt n

theorem Trie.Grows.trans {t t' t'' : Trie} (h : t.Grows t') (h' : t'.Grows t'') : t.Grows t'' :=
  ⟨Nat.le_trans h.length h'.length, fun n b m e => h'.child n b m (h.child n b m e),
    fun n hn => (h'.leaf n (Nat.lt_of_lt_of_le hn h.length)).trans (h.leaf n hn)⟩

/-- Every child index names an allocated entry. -/
abbrev Trie.Bounded (t : Trie) : Prop := ∀ n b m, t.child n b = some m → m < t.length

/-- What a trie spells it still spells when it grows. -/
theorem Trie.Grows.spells {t t' : Trie} (h : t.Grows t') (hb : t.Bounded) {n : Nat} {bs : Bits} {s : Byte}
    (hs : t.Spells n bs s) : t'.Spells n bs s := by
  induction bs generalizing n with
  | nil => exact hs
  | cons b rest ih =>
    cases rest with
    | nil =>
      obtain ⟨m, h1, h2⟩ := hs
      exact ⟨m, h.child _ _ _ h1, by rw [h.leaf m (hb _ _ _ h1)]; exact h2⟩
    | cons b' rest =>
      obtain ⟨m, h1, h2, h3⟩ := hs
      exact ⟨m, h.child _ _ _ h1, by rw [h.leaf m (hb _ _ _ h1)]; exact h2, ih h3⟩

/-- A new entry hung under `cur`. -/
theorem Trie.grows_grow {t : Trie} {cur : Nat} {b : Bool} (x : TrieNode) (hx : x = .internal none none ∨ ∃ s, x = .leaf s)
    (hcur : cur < t.length) (hleaf : t.leafAt cur = none) (hc : t.child cur b = none) :
    t.Grows (Trie.setChild (t ++ [x]) cur b t.length) := by
  refine ⟨by simp [Trie.setChild], fun n c m h => ?_, fun n hn => Trie.leafAt_grow x n hn⟩
  rw [Trie.child_grow x hx hcur hleaf]
  by_cases e : n = cur ∧ c = b
  · rw [e.1, e.2, hc] at h
    cases h
  · rw [if_neg e]
    exact h

theorem Trie.bounded_grow {t : Trie} {cur : Nat} {b : Bool} (x : TrieNode) (hx : x = .internal none none ∨ ∃ s, x = .leaf s)
    (hcur : cur < t.length) (hleaf : t.leafAt cur = none) (hb : t.Bounded) :
    Trie.Bounded (Trie.setChild (t ++ [x]) cur b t.length) := by
  intro n c m h
  have hl : (Trie.setChild (t ++ [x]) cur b t.length).length = t.length + 1 := by simp [Trie.setChild]
  rw [Trie.child_grow x hx hcur hleaf] at h
  rw [hl]
  split at h
  · simp at h
    omega
  · have := hb _ _ _ h
    omega

/-- Below an entry without children everything is free and everything is missing. -/
theorem Trie.free_of_bare {t : Trie} {n : Nat} (hleaf : t.leafAt n = none) (hc : ∀ b, t.child n b = none) (bs : Bits)
    (hne : bs ≠ []) : t.Free n bs ∧ t.missing n bs = bs.length := by
  cases bs with
  | nil => exact absurd rfl hne
  | cons b rest =>
    constructor
    · cases rest with
      | nil => exact ⟨hleaf, hc b⟩
      | cons b' rest => exact ⟨hleaf, fun m hm => by rw [hc b] at hm; cases hm⟩
    · rw [Trie.missing, hc b]
      rfl

/-- The loop of R178 on any trie: it succeeds exactly when the way is free and there is room. -/
theorem Trie.place_grows {t : Trie} (s : Byte) (bs : Bits) (hne : bs ≠ []) (cur : Nat) (hcur : cur < t.length)
    (hcap : t.length ≤ Config.nodeCap) (hb : t.Bounded) :
    match t.place s cur bs with
    | some t' => (t.Free cur bs ∧ t.length + t.missing cur bs ≤ Config.nodeCap) ∧ t'.length = t.length + t.missing cur bs ∧
        t.Grows t' ∧ t'.Bounded ∧ t'.Spells cur bs s
    | none => ¬ (t.Free cur bs ∧ t.length + t.missing cur bs ≤ Config.nodeCap) := by
  induction bs generalizing t cur with
  | nil => exact absurd rfl hne
  | cons b rest ih =>
    unfold Trie.place
    cases hL : t.leafAt cur with
    | some s0 =>
      rintro ⟨h, -⟩
      cases rest with
      | nil =>
        rw [Trie.Free, hL] at h
        cases h.1
      | cons b' rest =>
        rw [Trie.Free, hL] at h
        cases h.1
    | none =>
      cases rest with
      | nil =>
        cases hc : t.child cur b with
        | some m =>
          rintro ⟨h, -⟩
          rw [Trie.Free, hc] at h
          cases h.2
        | none =>
          have hmiss : t.missing cur [b] = 1 := by rw [Trie.missing, hc]; rfl
          rw [hmiss]
          simp only [Trie.alloc]
          by_cases hfull : t.length = Config.nodeCap
          · rw [if_pos hfull]
            rintro ⟨-, h⟩
            omega
          · rw [if_neg hfull]
            have hlt : t.length < Config.nodeCap := by omega
            refine ⟨⟨⟨hL, hc⟩, by omega⟩, by simp [Trie.setChild], Trie.grows_grow _ (Or.inr ⟨s, rfl⟩) hcur hL hc,
              Trie.bounded_grow _ (Or.inr ⟨s, rfl⟩) hcur hL hb, t.length, ?_, ?_⟩
            · rw [Trie.child_grow _ (Or.inr ⟨s, rfl⟩) hcur hL]
              simp
            · rw [Trie.leafAt_new _ hcur]
              rfl
      | cons b' rest =>
        cases hc : t.child cur b with
        | some m =>
          have hmiss : t.missing cur (b :: b' :: rest) = t.missing m (b' :: rest) := by rw [Trie.missing, hc]
          have hfree : t.Free cur (b :: b' :: rest) ↔ t.Free m (b' :: rest) := by
            constructor
            · exact fun h => h.2 m hc
            · exact fun h => ⟨hL, fun k hk => by rw [hc] at hk; cases hk; exact h⟩
          have := ih (t := t) (by simp) m (hb _ _ _ hc) hcap hb
          rw [hmiss, hfree]
          simp only
          cases hp : t.place s m (b' :: rest) with
          | none => rw [hp] at this; exact this
          | some t' =>
            rw [hp] at this
            obtain ⟨h1, h2, h3, h4, h5⟩ := this
            exact ⟨h1, h2, h3, h4, m, h3.child _ _ _ hc, by
              rw [h3.leaf m (hb _ _ _ hc)]
              cases rest with
              | nil => exact h1.1.1
              | cons => exact h1.1.1, h5⟩
        | none =>
          have hmiss : t.missing cur (b :: b' :: rest) = rest.length + 2 := by rw [Trie.missing, hc]; rfl
          have hfree : t.Free cur (b :: b' :: rest) := ⟨hL, fun k hk => by rw [hc] at hk; cases hk⟩
          rw [hmiss]
          simp only [Trie.alloc]
          by_cases hfull : t.length = Config.nodeCap
          · rw [if_pos hfull]
            rintro ⟨-, h⟩
            omega
          · rw [if_neg hfull]
            have hlt : t.length < Config.nodeCap := by omega
            have hg := Trie.grows_grow (b := b) (.internal none none) (Or.inl rfl) hcur hL hc
            have hb' := Trie.bounded_grow (b := b) (.internal none none) (Or.inl rfl) hcur hL hb
            have hl' : (Trie.setChild (t ++ [.internal none none]) cur b t.length).length = t.length + 1 := by
              simp [Trie.setChild]
            have hleafn : Trie.leafAt (Trie.setChild (t ++ [.internal none none]) cur b t.length) t.length = none := by
              rw [Trie.leafAt_new _ hcur]
              rfl
            have hchn : ∀ c, Trie.child (Trie.setChild (t ++ [.internal none none]) cur b t.length) t.length c = none := by
              intro c
              rw [Trie.child_grow _ (Or.inl rfl) hcur hL, if_neg (by omega)]
              simp [Trie.child]
            have hch : Trie.child (Trie.setChild (t ++ [.internal none none]) cur b t.length) cur b = some t.length := by
              rw [Trie.child_grow _ (Or.inl rfl) hcur hL]
              simp
            obtain ⟨hf', hm'⟩ := Trie.free_of_bare hleafn hchn (b' :: rest) (by simp)
            simp only
            generalize Trie.setChild (t ++ [.internal none none]) cur b t.length = t1 at *
            have := ih (t := t1) (by simp) t.length (by omega) (by omega) hb'
            rw [hm', hl'] at this
            cases hp : t1.place s t.length (b' :: rest) with
            | none =>
              rw [hp] at this
              rintro ⟨-, h⟩
              exact this ⟨hf', by simp; omega⟩
            | some t' =>
              rw [hp] at this
              obtain ⟨h1, h2, h3, h4, h5⟩ := this
              have h1' := h1.2
              simp at h1' h2
              exact ⟨⟨hfree, by omega⟩, by omega, hg.trans h3, h4, t.length, h3.child _ _ _ hch,
                by rw [h3.leaf _ (by omega)]; exact hleafn, h5⟩

/-- `TR.INSERT` on any trie (R178). -/
theorem trieInsert_spec {t : Trie} {seen : Table Unit} (s : Byte) (bs : Bits) (hne : bs ≠ []) (h0 : 0 < t.length)
    (hcap : t.length ≤ Config.nodeCap) (hb : t.Bounded) :
    match trieInsert t seen s bs with
    | some (t', seen') => (Table.get seen s.toNat = none ∧ t.Free 0 bs ∧ t.length + t.missing 0 bs ≤ Config.nodeCap) ∧
        t'.length = t.length + t.missing 0 bs ∧ t.Grows t' ∧ t'.Spells 0 bs s ∧ seen' = Table.set seen s.toNat ()
    | none => ¬ (Table.get seen s.toNat = none ∧ t.Free 0 bs ∧ t.length + t.missing 0 bs ≤ Config.nodeCap) := by
  have hp := Trie.place_grows s bs hne 0 h0 hcap hb
  unfold trieInsert
  cases hg : Table.get seen s.toNat with
  | some v =>
    simp only [Option.isSome_some, if_true]
    rintro ⟨h, -⟩
    cases h
  | none =>
    simp only [Option.isSome_none, Bool.false_eq_true, if_false]
    cases hpl : t.place s 0 bs with
    | none =>
      rw [hpl] at hp
      exact fun h => hp h.2
    | some t' =>
      rw [hpl] at hp
      obtain ⟨h1, h2, h3, -, h5⟩ := hp
      exact ⟨⟨trivial, h1⟩, h2, h3, h5, rfl⟩

/-- What a trie spells is a leaf at the end of a path. -/
theorem Trie.follow_of_spells {t : Trie} {n : Nat} {bs : Bits} {s : Byte} (h : t.Spells n bs s) :
    ∃ m, t.follow n bs = some m ∧ t.leafAt m = some s := by
  induction bs generalizing n with
  | nil => exact absurd h (by simp [Trie.Spells])
  | cons b rest ih =>
    cases rest with
    | nil =>
      obtain ⟨m, h1, h2⟩ := h
      exact ⟨m, by simp [Trie.follow, h1], h2⟩
    | cons b' rest =>
      obtain ⟨m, h1, -, h3⟩ := h
      obtain ⟨k, h4, h5⟩ := ih h3
      exact ⟨k, by rw [Trie.follow, h1]; exact h4, h5⟩

/-- The trie of a set of entries spells exactly them (R179). -/
theorem Inserted.spells_iff {t : Trie} {seen : Table Unit} {es : List Entry} {L : Bits → Option Byte} (h : Inserted t seen es L)
    (hne : ∀ e ∈ es, e.bits ≠ []) (bs : Bits) (s : Byte) : t.Spells 0 bs s ↔ ∃ e ∈ es, e.bits = bs ∧ e.sym = s := by
  constructor
  · intro hs
    obtain ⟨m, h1, h2⟩ := Trie.follow_of_spells hs
    rw [h.inv.kind _ _ h1] at h2
    exact (h.leaf _ _).1 h2
  · rintro ⟨e, he, rfl, rfl⟩
    exact h.spells e he (hne e he)

/-- The root of the trie of a set of entries is no leaf. -/
theorem Inserted.root_no_leaf {t : Trie} {seen : Table Unit} {es : List Entry} {L : Bits → Option Byte}
    (h : Inserted t seen es L) : t.leafAt 0 = none := by
  have hk := h.inv.kind [] 0 rfl
  cases hL : L [] with
  | none => rw [hk, hL]
  | some s => exact absurd (h.inv.leafP [] (by rw [hL]; simp)) h.inv.nil

/-- `TR.REBUILD` from an empty arena (R179), with all that holds of the trie it leaves. -/
theorem DecWork.rebuild_inserted (w : DecWork) (ht : w.trie = []) (hs : w.seen = []) (hk : w.k ≠ 0)
    (hlen : w.entries.length = w.k.toNat) (hne : ∀ e ∈ w.entries, e.bits ≠ []) :
    match w.rebuild with
    | some (t, seen) => ∃ L, Inserted t seen w.entries L
    | none => ¬ Buildable w.entries := by
  unfold DecWork.rebuild
  rw [if_neg hk, ht, hs, ← hlen, List.take_length]
  have halloc : Trie.alloc [] (.internal none none) = some ([.internal none none], 0) := rfl
  rw [halloc]
  have := Inserted.root.insertAll w.entries hne
  simp only [List.nil_append] at this
  exact this

end Sys2Proof.Machine
end

