-- ==== Sys2Proof/Laws/PerInstr.lean ====
section
/-! SUPPORT. Statements about every instruction as syntax, with one lemma per constructor. -/

namespace Sys2Proof.Laws.EncodingRoundTrip
open Machine

/-- What a well-formed instruction is encoded to decodes to that instruction (R80 to R82, R85). -/
def Statement (i : Instr) : Prop := ∀ (p : Params) (f : Fetch), wellFormed p i = true → encode i = some f → decode f = .ok i

theorem nop (u : UnitId) : Statement (.nop u) := by
  intro p f _ he
  cases he
  cases u <;> decide

theorem encode : Statement (.encode) := by
  intro p f _ he
  cases he
  rfl

theorem decode : Statement (.decode) := by
  intro p f _ he
  cases he
  rfl

theorem clear (u : UnitId) : Statement (.clear u) := by
  intro p f _ he
  cases he
  cases u <;> decide

theorem illegal (u : UnitId) (w : Word) : Statement (.illegal u w) := by
  intro p f hw he
  cases he
  simp only [wellFormed, legalCommand, Bool.not_eq_true'] at hw
  show Except.ok (decodeCommand u w) = _
  congr 1
  rcases decodeCommand_cases u w with e | ⟨e, h⟩ | ⟨e, h⟩ | e | e <;> try exact e
  all_goals
    have := encode_decodeCommand u w
    rw [e] at this
    simp only [Sys2Proof.encode, Option.some.injEq, Fetch.command.injEq] at this
    obtain ⟨h1, h2⟩ := this
    subst h2
    try subst h
    first | (cases u <;> simp at hw) | simp at hw

theorem ftCount : Statement (.ftCount) := by
  intro p f _ he
  cases he
  rfl

theorem tbBuild : Statement (.tbBuild) := by
  intro p f _ he
  cases he
  rfl

theorem caAssign : Statement (.caAssign) := by
  intro p f _ he
  cases he
  rfl

theorem bwPack : Statement (.bwPack) := by
  intro p f _ he
  cases he
  rfl

theorem encSerialize : Statement (.encSerialize) := by
  intro p f _ he
  cases he
  rfl

theorem decParse : Statement (.decParse) := by
  intro p f _ he
  cases he
  rfl

theorem trRebuild : Statement (.trRebuild) := by
  intro p f _ he
  cases he
  rfl

theorem twWalk : Statement (.twWalk) := by
  intro p f _ he
  cases he
  rfl

theorem pqInsert (i : Nat) : Statement (.pqInsert i) := by
  intro p f _ he
  cases he

theorem pqExtractMin : Statement (.pqExtractMin) := by
  intro p f _ he
  cases he

theorem bwPutBit (b : Bool) : Statement (.bwPutBit b) := by
  intro p f _ he
  cases he

theorem bwPutCode (bs : Bits) : Statement (.bwPutCode bs) := by
  intro p f _ he
  cases he

theorem brGetBit : Statement (.brGetBit) := by
  intro p f _ he
  cases he

theorem trInsert (s : Byte) (bs : Bits) : Statement (.trInsert s bs) := by
  intro p f _ he
  cases he

theorem encodeBytes (x : List Byte) : Statement (.encodeBytes x) := by
  intro p f _ he
  cases he

theorem decodeBytes (c : List Byte) : Statement (.decodeBytes c) := by
  intro p f _ he
  cases he

end Sys2Proof.Laws.EncodingRoundTrip
end

