-- ==== Sys2Proof/Laws/Progress.lean ====
section
/-! SUPPORT. How a unit goes on: each phase ends the command or leads to a later phase (47_host_commands.md R211, 00_scope.md R17);
a phase sees of the state its own unit, the parameters and the count of draws only (10_state.md R20); and the steps of a waiting
host (R212). -/

namespace Sys2Proof.Machine

/-! Progress. -/

/-- How a phase leaves its unit (R211): `DONE`, `FAULT`, or `BUSY` with a later phase. -/
def Advanced (u : UnitId) (s t : State) : Prop :=
  (t.block u).state = .done ∨ (t.block u).state = .fault ∨
    ((t.block u).state = .busy ∧ (s.block u).phase.toNat < (t.block u).phase.toNat)

theorem advanced_raise (s : State) (u : UnitId) (e : Failure) : Advanced u s (s.raise u e) :=
  Or.inr (Or.inl (s.raise_faulted u e).state)

/-- A phase of a `BUSY` unit under the invariant advances it. -/
theorem unitPhase_advances {s t : State} (h : s.Inv) (u : UnitId) (hb : s.busy u = true) (ht : unitPhase u s = .next t) :
    Advanced u s t := by
  cases u with
  | enc =>
    have hb' : s.enc.state = .busy := of_decide_eq_true hb
    obtain ⟨⟨h1, h2⟩, -⟩ := h.enc.busy hb'
    have h2' : s.enc.phase.toNat ≤ 5 := h2
    have hp : s.enc.phase = 1 ∨ s.enc.phase = 2 ∨ s.enc.phase = 3 ∨ s.enc.phase = 4 ∨ s.enc.phase = 5 := by
      generalize s.enc.phase = ph at h1 h2'
      revert ph
      decide
    rcases hp with hp | hp | hp | hp | hp
    · rw [unitPhase_count hp] at ht
      cases hc : countBytes s.params.cntW s.encWork.freq (s.input .enc) with
      | none =>
        rw [execFtCount, hc] at ht
        injection ht with ht
        exact ht ▸ advanced_raise s .enc .overflow
      | some f =>
        obtain ⟨t', t1, -, t3, -⟩ := execFtCount_some hc
        injection t1.symm.trans ht with ht
        subst ht
        right; right
        rw [State.block, State.block, t3, hp]
        refine ⟨hb', ?_⟩
        show (1 : BitVec 4).toNat < BitVec.toNat (if distinctSymbols f = 0 then phaseSerialize else phaseBuild)
        split <;> decide
    · obtain ⟨-, hd, hn, -⟩ := (h.encPhase hb').build hp
      have hnz : s.enc.diag.nsym ≠ 0 := by
        intro e
        rw [e] at hn
        simp at hn
        omega
      rw [unitPhase_build hp] at ht
      obtain ⟨t', r, t1, -, t3, -⟩ := execTbBuild_next hnz
      injection t1.symm.trans ht with ht
      subst ht
      right; right
      rw [State.block, State.block, t3, hp]
      exact ⟨hb', show (2 : BitVec 4).toNat < phaseAssign.toNat by decide⟩
    · rw [unitPhase_assign hp] at ht
      unfold execCaAssign at ht
      split at ht
      · injection ht with ht
        subst ht
        right; right
        refine ⟨hb', ?_⟩
        show s.enc.phase.toNat < phasePack.toNat
        rw [hp]
        decide
      · injection ht with ht
        exact ht ▸ advanced_raise s .enc .malformedTree
      · cases ht
    · rw [unitPhase_pack hp] at ht
      obtain ⟨t', t1, -, t3, -⟩ := execBwPack_next s
      injection t1.symm.trans ht with ht
      subst ht
      right; right
      rw [State.block, State.block, t3, hp]
      exact ⟨hb', show (4 : BitVec 4).toNat < phaseSerialize.toNat by decide⟩
    · rw [unitPhase_serialize hp] at ht
      unfold execEncSerialize at ht
      split at ht
      · injection ht with ht
        exact ht ▸ advanced_raise s .enc .bufferBound
      · injection ht with ht
        subst ht
        exact Or.inl rfl
  | dec =>
    have hb' : s.dec.state = .busy := of_decide_eq_true hb
    obtain ⟨⟨h1, h2⟩, -⟩ := h.dec.busy hb'
    have h2' : s.dec.phase.toNat ≤ 3 := h2
    have hp : s.dec.phase = 1 ∨ s.dec.phase = 2 ∨ s.dec.phase = 3 := by
      generalize s.dec.phase = ph at h1 h2'
      revert ph
      decide
    rcases hp with hp | hp | hp
    · rw [unitPhase_parse hp] at ht
      cases hc : parseHeader (s.inByte .dec) s.dec.inLen.toNat with
      | none =>
        rw [execDecParse, hc] at ht
        injection ht with ht
        exact ht ▸ advanced_raise s .dec .corruptData
      | some hd =>
        by_cases hn : hd.n = 0
        · obtain ⟨t', t1, -, t3, -⟩ := execDecParse_zero hc hn
          injection t1.symm.trans ht with ht
          subst ht
          left
          rw [State.block, t3]
          rfl
        · obtain ⟨t', t1, -, t3, -⟩ := execDecParse_some hc hn
          injection t1.symm.trans ht with ht
          subst ht
          right; right
          rw [State.block, State.block, t3, hp]
          exact ⟨hb', show (1 : BitVec 4).toNat < phaseRebuild.toNat by decide⟩
    · rw [unitPhase_rebuild hp] at ht
      unfold execTrRebuild at ht
      split at ht
      · injection ht with ht
        exact ht ▸ advanced_raise s .dec .corruptData
      · injection ht with ht
        subst ht
        right; right
        refine ⟨hb', ?_⟩
        show s.dec.phase.toNat < phaseWalk.toNat
        rw [hp]
        decide
    · rw [unitPhase_walk hp] at ht
      unfold execTwWalk at ht
      split at ht
      · injection ht with ht
        exact ht ▸ advanced_raise s .dec .bufferBound
      · split at ht
        · injection ht with ht
          exact ht ▸ advanced_raise s .dec _
        · injection ht with ht
          subst ht
          exact Or.inl rfl

/-! What a phase sees. -/

/-- Unit `u`, the parameters and the count of draws of `s`, and everything else of `o`. -/
def State.graft (u : UnitId) (s o : State) : State :=
  match u with
  | .enc => { o with params := s.params, enc := s.enc, encWork := s.encWork, tick := s.tick }
  | .dec => { o with params := s.params, dec := s.dec, decWork := s.decWork, tick := s.tick }

/-- Change the next state, if there is one. -/
def mapNext (f : State → State) (o : Host.Outcome State Fault Refusal) : Host.Outcome State Fault Refusal :=
  andThen o (fun t => .next (f t))

theorem graft_raise (u : UnitId) (s o : State) (e : Failure) :
    (State.graft u s o).raise u e = State.graft u (s.raise u e) o := by
  cases u <;> rfl

theorem execFtCount_graft (s o : State) :
    execFtCount (State.graft .enc s o) = mapNext (fun t => State.graft .enc t o) (execFtCount s) := by
  have hin : (State.graft .enc s o).input .enc = s.input .enc := rfl
  unfold execFtCount
  rw [hin]
  show (match countBytes s.params.cntW s.encWork.freq (s.input .enc) with | none => _ | some f => _) = _
  cases countBytes s.params.cntW s.encWork.freq (s.input .enc) with
  | none => exact congrArg Host.Outcome.next (graft_raise .enc s o .overflow)
  | some f => rfl

theorem execTbBuild_graft (s o : State) :
    execTbBuild (State.graft .enc s o) = mapNext (fun t => State.graft .enc t o) (execTbBuild s) := by
  unfold execTbBuild
  have hw : (State.graft .enc s o).encWork = s.encWork := rfl
  have hn : (State.graft .enc s o).enc = s.enc := rfl
  rw [hw, hn]
  by_cases h : s.enc.diag.nsym = 0
  · rw [if_pos h, if_pos h]
    exact congrArg Host.Outcome.next (graft_raise .enc s o .emptyInput)
  · rw [if_neg h, if_neg h]
    generalize s.encWork.built = w
    rfl

theorem execCaAssign_graft (s o : State) :
    execCaAssign (State.graft .enc s o) = mapNext (fun t => State.graft .enc t o) (execCaAssign s) := by
  unfold execCaAssign
  have hw : (State.graft .enc s o).encWork = s.encWork := rfl
  rw [hw]
  cases assignCodes s.encWork.node s.encWork.root s.encWork.code with
  | ok c => rfl
  | error e =>
    cases e with
    | malformed => exact congrArg Host.Outcome.next (graft_raise .enc s o .malformedTree)
    | endless => rfl

theorem execBwPack_graft (s o : State) :
    execBwPack (State.graft .enc s o) = mapNext (fun t => State.graft .enc t o) (execBwPack s) := rfl

theorem execEncSerialize_graft (s o : State) :
    execEncSerialize (State.graft .enc s o) = mapNext (fun t => State.graft .enc t o) (execEncSerialize s) := by
  unfold execEncSerialize
  have hw : (State.graft .enc s o).container = s.container := rfl
  have hp : (State.graft .enc s o).params = s.params := rfl
  rw [hw, hp]
  generalize s.container = c
  by_cases h : s.params.encOutCap.toNat < c.length
  · rw [if_pos h, if_pos h]
    exact congrArg Host.Outcome.next (graft_raise .enc s o .bufferBound)
  · rw [if_neg h, if_neg h]
    rfl

theorem execDecParse_graft (s o : State) :
    execDecParse (State.graft .dec s o) = mapNext (fun t => State.graft .dec t o) (execDecParse s) := by
  unfold execDecParse
  have hw : (State.graft .dec s o).inByte .dec = s.inByte .dec := rfl
  have hn : (State.graft .dec s o).dec = s.dec := rfl
  rw [hw, hn]
  cases parseHeader (s.inByte .dec) s.dec.inLen.toNat with
  | none => exact congrArg Host.Outcome.next (graft_raise .dec s o .corruptData)
  | some h => rfl

theorem execTrRebuild_graft (s o : State) :
    execTrRebuild (State.graft .dec s o) = mapNext (fun t => State.graft .dec t o) (execTrRebuild s) := by
  unfold execTrRebuild
  have hw : (State.graft .dec s o).decWork = s.decWork := rfl
  rw [hw]
  cases s.decWork.rebuild with
  | none => exact congrArg Host.Outcome.next (graft_raise .dec s o .corruptData)
  | some p => rfl

theorem execTwWalk_graft (s o : State) :
    execTwWalk (State.graft .dec s o) = mapNext (fun t => State.graft .dec t o) (execTwWalk s) := by
  unfold execTwWalk
  have hw : (State.graft .dec s o).walk = s.walk := rfl
  have hp : (State.graft .dec s o).params = s.params := rfl
  have hd : (State.graft .dec s o).decWork = s.decWork := rfl
  rw [hw, hp, hd]
  by_cases h : s.params.decOutCap < s.decWork.n
  · rw [if_pos h, if_pos h]
    exact congrArg Host.Outcome.next (graft_raise .dec s o .bufferBound)
  · rw [if_neg h, if_neg h]
    cases s.walk with
    | error e => exact congrArg Host.Outcome.next (graft_raise .dec s o e)
    | ok w => rfl

theorem execTrInsert_graft (sym : Byte) (bs : Bits) (s o : State) :
    execTrInsert sym bs (State.graft .dec s o) = mapNext (fun t => State.graft .dec t o) (execTrInsert sym bs s) := by
  unfold execTrInsert
  have hd : (State.graft .dec s o).decWork = s.decWork := rfl
  rw [hd]
  cases trieInsert s.decWork.trie s.decWork.seen sym bs with
  | none => exact congrArg Host.Outcome.next (graft_raise .dec s o .corruptData)
  | some p => rfl

/-- A unit's step sees only its own unit (R20). -/
theorem unitPhase_graft (u : UnitId) (s o : State) :
    unitPhase u (State.graft u s o) = mapNext (fun t => State.graft u t o) (unitPhase u s) := by
  have hb : (State.graft u s o).block u = s.block u := by cases u <;> rfl
  cases u with
  | enc =>
    unfold unitPhase
    rw [hb, decode, statusPhase_statusWord]
    generalize hp : (s.block .enc).phase = p
    by_cases h1 : p = 1
    · subst h1; exact execFtCount_graft s o
    by_cases h2 : p = 2
    · subst h2; exact execTbBuild_graft s o
    by_cases h3 : p = 3
    · subst h3; exact execCaAssign_graft s o
    by_cases h4 : p = 4
    · subst h4; exact execBwPack_graft s o
    by_cases h5 : p = 5
    · subst h5; exact execEncSerialize_graft s o
    have he : decodePhase .enc p = .error (.reservedPhase .enc p) := by
      simp only [decodePhase, if_neg h1, if_neg h2, if_neg h3, if_neg h4, if_neg h5]
    rw [he]
    rfl
  | dec =>
    unfold unitPhase
    rw [hb, decode, statusPhase_statusWord]
    generalize hp : (s.block .dec).phase = p
    by_cases h1 : p = 1
    · subst h1; exact execDecParse_graft s o
    by_cases h2 : p = 2
    · subst h2; exact execTrRebuild_graft s o
    by_cases h3 : p = 3
    · subst h3; exact execTwWalk_graft s o
    have he : decodePhase .dec p = .error (.reservedPhase .dec p) := by
      simp only [decodePhase, if_neg h1, if_neg h2, if_neg h3]
    rw [he]
    rfl

theorem unitPhase_params {u : UnitId} {s t : State} (h : unitPhase u s = .next t) : t.params = s.params := by
  have key : ∀ e v, (s.raise v e).params = s.params := fun e v => (s.raise_faulted v e).kept.params
  unfold unitPhase at h
  split at h
  · unfold execFtCount at h
    split at h <;> injection h with h <;> subst h
    · exact key _ _
    · rfl
  · unfold execTbBuild at h
    generalize s.encWork.built = w at h
    split at h <;> injection h with h <;> subst h
    · exact key _ _
    · rfl
  · unfold execCaAssign at h
    split at h
    · injection h with h
      subst h
      rfl
    · injection h with h
      subst h
      exact key _ _
    · cases h
  · injection h with h
    subst h
    rfl
  · unfold execEncSerialize at h
    split at h <;> injection h with h <;> subst h
    · exact key _ _
    · rfl
  · unfold execDecParse at h
    split at h <;> injection h with h <;> subst h
    · exact key _ _
    · rfl
  · unfold execTrRebuild at h
    split at h <;> injection h with h <;> subst h
    · exact key _ _
    · rfl
  · unfold execTwWalk at h
    split at h
    · injection h with h
      subst h
      exact key _ _
    · split at h <;> injection h with h <;> subst h
      · exact key _ _
      · rfl
  · cases h

/-- What a phase leaves alone (R20): everything but its unit, and the count of draws. -/
theorem unitPhase_eq_graft {u : UnitId} {s t : State} (h : unitPhase u s = .next t) : t = State.graft u t s ∧ t.params = s.params := by
  have hg : s = State.graft u s s := by cases u <;> rfl
  have h1 := unitPhase_graft u s s
  rw [← hg, h] at h1
  injection h1 with h1
  refine ⟨h1, ?_⟩
  have h2 := unitPhase_params h
  exact h2

/-! The steps of a waiting host (R212). -/

/-- One step of a run. -/
theorem core_run_next {M : Host.Core} {s s' : M.State} (m : Nat) (h : M.step s = .next s') : M.run (m + 1) s = M.run m s' := by
  rw [Host.Core.run.eq_def]
  simp only
  rw [h]

theorem core_run_succ {s s' : State} (m : Nat) (h : step s = .next s') :
    Sys2Proof.core.run (m + 1) s = Sys2Proof.core.run m s' := core_run_next (M := Sys2Proof.core) m h

theorem core_run_zero (s : State) : Sys2Proof.core.run 0 s = .next s := rfl

/-- The same state with another agenda. -/
def State.withAgenda (s : State) (a : List Event) : State := { s with agenda := a }

@[simp] theorem State.withAgenda_agenda (s : State) (a : List Event) : (s.withAgenda a).agenda = a := rfl
@[simp] theorem State.withAgenda_block (s : State) (a : List Event) (u : UnitId) : (s.withAgenda a).block u = s.block u := by
  cases u <;> rfl
@[simp] theorem State.withAgenda_busy (s : State) (a : List Event) (u : UnitId) : (s.withAgenda a).busy u = s.busy u := by
  cases u <;> rfl
@[simp] theorem State.withAgenda_withAgenda (s : State) (a b : List Event) : (s.withAgenda a).withAgenda b = s.withAgenda b := rfl

theorem unitPhase_withAgenda (u : UnitId) (s : State) (a : List Event) :
    unitPhase u (s.withAgenda a) = mapNext (fun t => State.graft u t (s.withAgenda a)) (unitPhase u s) := by
  have : s.withAgenda a = State.graft u s (s.withAgenda a) := by cases u <;> rfl
  conv_lhs => rw [this]
  exact unitPhase_graft u s _

/-- While a host waits, each step is a step of the unit; when the unit has left `BUSY`, the wait ends with a read of `STATUS`
(R212). -/
theorem run_wait (u : UnitId) (n : Nat) (s : State) (rest : List Event) (t : State)
    (hr : unitRun u n s = .next t) (hb : t.busy u = false) :
    ∃ k, ∀ m, Sys2Proof.core.run (k + m) (s.withAgenda (.wait u :: rest)) =
      Sys2Proof.core.run m ((t.withAgenda rest).waitRead u) := by
  have hend : ∀ r : State, r.busy u = false → ∀ m, Sys2Proof.core.run (1 + m) (r.withAgenda (.wait u :: rest)) =
      Sys2Proof.core.run m ((r.withAgenda rest).waitRead u) := by
    intro r hr m
    have hst : step (r.withAgenda (.wait u :: rest)) = .next ((r.withAgenda rest).waitRead u) := by
      show (if (r.withAgenda rest).busy u then _ else _) = _
      rw [State.withAgenda_busy, hr]
      rfl
    rw [Nat.add_comm]
    exact core_run_succ m hst
  induction n generalizing s with
  | zero =>
    injection hr with hr
    subst hr
    exact ⟨1, hend s hb⟩
  | succ n ih =>
    by_cases hbs : s.busy u = true
    · rw [unitRun_busy hbs] at hr
      cases hp : unitPhase u s with
      | fault e => rw [hp] at hr; cases hr
      | refused e => rw [hp] at hr; cases hr
      | next r =>
      rw [hp] at hr
      obtain ⟨k, hk⟩ := ih r hr
      refine ⟨1 + k, fun m => ?_⟩
      have hst : step (s.withAgenda (.wait u :: rest)) = .next (r.withAgenda (.wait u :: rest)) := by
        have h1 : step (s.withAgenda (.wait u :: rest)) = unitPhase u (s.withAgenda (.wait u :: rest)) := by
          show (if (s.withAgenda rest).busy u then unitStep u (s.withAgenda (.wait u :: rest)) else _) = _
          rw [State.withAgenda_busy, hbs, if_pos rfl]
          unfold unitStep
          rw [State.withAgenda_busy, hbs, if_pos rfl]
          exact runFetched_phase u _
        rw [h1, unitPhase_withAgenda, hp]
        have hg := (unitPhase_eq_graft hp).1
        show Host.Outcome.next (State.graft u r (s.withAgenda _)) = .next (r.withAgenda _)
        conv_rhs => rw [hg]
        cases u <;> rfl
      rw [Nat.add_assoc, Nat.add_comm 1]
      rw [core_run_succ _ hst]
      exact hk m
    · rw [unitRun_idle (by simpa using hbs)] at hr
      injection hr with hr
      subst hr
      exact ⟨1, hend s hb⟩

/-! The host's writes (R203, R212), one by one. -/

theorem State.withAgenda_withBlock (s : State) (a : List Event) (u : UnitId) (b : Block) :
    (s.withAgenda a).withBlock u b = (s.withBlock u b).withAgenda a := by cases u <;> rfl

@[simp] theorem State.withAgenda_inCap (s : State) (a : List Event) (u : UnitId) : (s.withAgenda a).inCap u = s.inCap u := by
  cases u <;> rfl

theorem State.withAgenda_writeIn (s : State) (ag : List Event) (u : UnitId) (a : Nat) (b : Byte) :
    (s.withAgenda ag).writeIn u a b = (s.writeIn u a b).withAgenda ag := by
  unfold State.writeIn
  rw [State.withAgenda_busy, State.withAgenda_inCap, State.withAgenda_block]
  by_cases h : s.busy u = false ∧ a < (s.inCap u).toNat
  · rw [if_pos h, if_pos h, State.withAgenda_withBlock]
  · rw [if_neg h, if_neg h]

theorem State.withAgenda_writeInLen (s : State) (ag : List Event) (u : UnitId) (v : Word) :
    (s.withAgenda ag).writeInLen u v = (s.writeInLen u v).withAgenda ag := by
  unfold State.writeInLen
  rw [State.withAgenda_busy, State.withAgenda_block]
  by_cases h : s.busy u = true
  · rw [if_pos h, if_pos h]
  · rw [if_neg h, if_neg h, State.withAgenda_withBlock]

theorem State.withAgenda_accept (s : State) (ag : List Event) (u : UnitId) :
    (s.withAgenda ag).accept u = (s.accept u).withAgenda ag := by
  unfold State.accept
  rw [State.withAgenda_inCap, State.withAgenda_block]
  by_cases h : s.inCap u < (s.block u).inLen
  · rw [if_pos h, if_pos h]
    cases u <;> rfl
  · rw [if_neg h, if_neg h]
    cases u <;> rfl

/-- The moves that write a byte sequence (R212). -/
theorem run_writes (u : UnitId) (x : List Byte) (a : Nat) (s : State) (rest : List Event) (m : Nat) :
    Sys2Proof.core.run (x.length + m) (s.withAgenda (x.mapIdx (fun i b => Event.writeIn u (a + i) b) ++ rest)) =
      Sys2Proof.core.run m ((s.writeInAll u a x).withAgenda rest) := by
  induction x generalizing a s with
  | nil => rw [List.length_nil, Nat.zero_add]; rfl
  | cons b x ih =>
    have e : (fun i b => Event.writeIn u (a + (i + 1)) b) = (fun i b => Event.writeIn u (a + 1 + i) b) := by
      funext i b
      congr 1
      omega
    rw [List.mapIdx_cons, e, Nat.add_zero, List.cons_append]
    have hst : step (s.withAgenda (Event.writeIn u a b :: (x.mapIdx (fun i b => Event.writeIn u (a + 1 + i) b) ++ rest))) =
        .next ((s.writeIn u a b).withAgenda (x.mapIdx (fun i b => Event.writeIn u (a + 1 + i) b) ++ rest)) :=
      congrArg Host.Outcome.next (State.withAgenda_writeIn s _ u a b)
    have hl : (b :: x).length + m = (x.length + m) + 1 := by
      rw [List.length_cons]
      omega
    rw [hl, core_run_succ _ hst, ih]
    rfl

/-- A host sequence of R213 or R214 run move by move: it leads to where the unit's run after the accepted command leads. -/
theorem run_expansion (u : UnitId) (op : Instr) (code : Word) (hop : decodeCommand u code = op) (s t : State) (x : List Byte) (rest : List Event) (n : Nat)
    (hacc : ∀ ag, exec op (((s.writeInAll u 0 x).writeInLen u (BitVec.ofNat 32 x.length)).withAgenda ag) = .next ((((s.writeInAll u 0 x).writeInLen u (BitVec.ofNat 32 x.length)).accept u).withAgenda ag))
    (hrun : unitRun u n ((((s.writeInAll u 0 x).writeInLen u (BitVec.ofNat 32 x.length)).accept u).withAgenda rest) = .next t) (hb : t.busy u = false)
    (htag : t.agenda = rest)
    (ha : s.agenda = x.mapIdx (fun i b => Event.writeIn u i b) ++ [.regWrite u 2 (BitVec.ofNat 32 x.length), .regWrite u 0 code, .wait u, .collect u] ++ rest) :
    ∃ k, Sys2Proof.core.run k s = .next ((t.waitRead u).collect u) := by
  set s1 := (s.writeInAll u 0 x).writeInLen u (BitVec.ofNat 32 x.length) with hs1
  obtain ⟨k, hk⟩ := run_wait u n _ (.collect u :: rest) t hrun hb
  refine ⟨x.length + (k + 1 + 1 + 1), ?_⟩
  have hss : s = s.withAgenda (x.mapIdx (fun i b => Event.writeIn u (0 + i) b) ++ ([.regWrite u 2 (BitVec.ofNat 32 x.length), .regWrite u 0 code, .wait u, .collect u] ++ rest)) := by
    have : (fun (i : Nat) b => Event.writeIn u (0 + i) b) = fun i b => Event.writeIn u i b := by funext i b; rw [Nat.zero_add]
    rw [this, ← List.append_assoc, ← ha]; rfl
  conv_lhs => rw [hss]
  rw [run_writes]
  have st1 : step ((s.writeInAll u 0 x).withAgenda ([.regWrite u 2 (BitVec.ofNat 32 x.length), .regWrite u 0 code, .wait u, .collect u] ++ rest)) =
        .next (s1.withAgenda ([.regWrite u 0 code, .wait u, .collect u] ++ rest)) :=
      congrArg Host.Outcome.next (State.withAgenda_writeInLen (s.writeInAll u 0 x) ([.regWrite u 0 code, .wait u, .collect u] ++ rest) u (BitVec.ofNat 32 x.length))
  have st2 : step (s1.withAgenda ([.regWrite u 0 code, .wait u, .collect u] ++ rest)) = .next ((s1.accept u).withAgenda (.wait u :: .collect u :: rest)) := by
    show exec (decodeCommand u code) (s1.withAgenda (.wait u :: .collect u :: rest)) = _
    rw [hop]; exact hacc _
  rw [core_run_succ _ st1, core_run_succ _ st2]
  have := hk 1
  rw [State.withAgenda_withAgenda] at this
  rw [this]
  have st3 : step (State.waitRead (t.withAgenda (.collect u :: rest)) u) = .next ((t.waitRead u).collect u) := by
    have ht : t = t.withAgenda rest := by rw [← htag]; rfl
    show Host.Outcome.next _ = _
    congr 1
    conv_rhs => rw [ht]
    cases u <;> rfl
  rw [core_run_succ 0 st3]; rfl

end Sys2Proof.Machine
end

