-- ==== Sys2Proof/Tests/Slice0.lean ====
section
/-! SUPPORT. The model's own tests: ill-formed terms, words written out from the encodings (30_encoding.md R80 to R85), one step per
instruction on the vectors of 95_test_vectors.md, and for each statement with hypotheses a witness that meets them. -/

namespace Sys2Proof.Tests
open Sys2Proof.Machine

/-! Helpers. -/

/-- A unit with the input bytes `x` in `IN`. -/
def loadedBlock (x : List Byte) : Block :=
  { Block.reset with inLen := BitVec.ofNat 32 x.length, inBuf := x.mapIdx (fun a b => (a, b)) }

/-- A unit that is `BUSY` with the next phase `p`, on the input bytes `x`. -/
def busyBlock (p : BitVec 4) (x : List Byte) : Block := { loadedBlock x with state := .busy, phase := p }

/-- The reset state with `ENC` so. -/
def withEnc (b : Block) (w : EncWork) : State := { State.reset with enc := b, encWork := w }

/-- The reset state with `DEC` so. -/
def withDec (b : Block) (w : DecWork) : State := { State.reset with dec := b, decWork := w }

/-- The reset state with the moves `es` to come. -/
def moves (es : List Event) : State := { State.reset with agenda := es }

/-- The outcome is a next state, of which `p` holds. -/
def goes (o : Host.Outcome State Fault Refusal) (p : State → Bool) : Bool :=
  match o with
  | .next s => p s
  | .fault _ => false
  | .refused _ => false

/-- What a successful pseudo-operation handed over, or a failure. -/
def gives (o : Host.Outcome State Fault Refusal) (r : HostResult) : Bool := goes o (fun s => s.result = r)

/-- "abracadabra" (V-S1). -/
def abra : List Byte := [0x61, 0x62, 0x72, 0x61, 0x63, 0x61, 0x64, 0x61, 0x62, 0x72, 0x61]

/-- The 24 bytes of V-E8. -/
def abraContainer : List Byte :=
  [0x00, 0x05, 0x61, 0x01, 0x00, 0x62, 0x03, 0xC0, 0x63, 0x03, 0x80, 0x64, 0x03, 0xA0, 0x72, 0x03, 0xE0, 0x00, 0x00, 0x00, 0x0B,
    0x6E, 0x8A, 0xDC]

/-- The frequencies of V-T6. -/
def abraFreq : Table Nat := [(0x61, 5), (0x62, 2), (0x63, 1), (0x64, 1), (0x72, 2)]

/-- The codes of V-C6. -/
def abraCode : Table Bits :=
  [(0x61, [false]), (0x62, [true, true, false]), (0x63, [true, false, false]), (0x64, [true, false, true]),
    (0x72, [true, true, true])]

/-- The trie of V-B2: a root with one child. -/
def soloTrie : Trie := [.internal (some 1) none, .leaf 0x41]

/-! Well-formedness: a term that each check refuses. -/

theorem test_wf_illegal : wellFormed Config.defaults (.illegal .enc 0x00000001) = false := by decide
theorem test_wf_illegal_ok : wellFormed Config.defaults (.illegal .dec 0x00000001) = true := by decide
theorem test_wf_pqInsert : wellFormed Config.defaults (.pqInsert 511) = false := by decide
theorem test_wf_bwPutCode : wellFormed Config.defaults (.bwPutCode (List.replicate 256 true)) = false := by decide +kernel
theorem test_wf_trInsert_empty : wellFormed Config.defaults (.trInsert 0 []) = false := by decide
theorem test_wf_trInsert_long : wellFormed Config.defaults (.trInsert 0 (List.replicate 256 true)) = false := by decide +kernel
theorem test_wf_encodeBytes : wellFormed { Config.defaults with encInCap := 1 } (.encodeBytes [1, 2]) = false := by decide
theorem test_wf_decodeBytes : wellFormed { Config.defaults with decInCap := 6 } (.decodeBytes [0, 0, 0, 0, 0, 0, 0]) = false := by
  decide

/-! Decoding: words written out from the encodings, `RSV` (31:8) and `OP` (7:0), or `STATUS` with `PHASE` in 7:4. -/

theorem test_decode_nop : decode (.command .dec 0b000000000000000000000000_00000000) = .ok (.nop .dec) := by decide
theorem test_decode_encode : decode (.command .enc 0b000000000000000000000000_00000001) = .ok .encode := by decide
theorem test_decode_decode : decode (.command .dec 0b000000000000000000000000_00000010) = .ok .decode := by decide
theorem test_decode_clear : decode (.command .enc 0b000000000000000000000000_00000011) = .ok (.clear .enc) := by decide
theorem test_decode_illegal_op : decode (.command .enc 0b000000000000000000000000_00000100) = .ok (.illegal .enc 4) := by decide
theorem test_decode_illegal_rsv :
    decode (.command .dec 0b100000000000000000000000_00000011) = .ok (.illegal .dec 0x80000003) := by decide
theorem test_decode_ftCount : decode (.phase .enc 0b0000000000000000000_0_0000_0001_00_01) = .ok .ftCount := by decide
theorem test_decode_tbBuild : decode (.phase .enc 0b0000000000000000000_0_0000_0010_00_01) = .ok .tbBuild := by decide
theorem test_decode_caAssign : decode (.phase .enc 0b0000000000000000000_0_0000_0011_00_01) = .ok .caAssign := by decide
theorem test_decode_bwPack : decode (.phase .enc 0b0000000000000000000_1_0000_0100_00_01) = .ok .bwPack := by decide
theorem test_decode_encSerialize : decode (.phase .enc 0b0000000000000000000_0_0000_0101_00_01) = .ok .encSerialize := by decide
theorem test_decode_decParse : decode (.phase .dec 0b0000000000000000000_0_0000_0001_00_01) = .ok .decParse := by decide
theorem test_decode_trRebuild : decode (.phase .dec 0b0000000000000000000_0_0000_0010_00_01) = .ok .trRebuild := by decide
theorem test_decode_twWalk : decode (.phase .dec 0b0000000000000000000_1_0000_0011_00_01) = .ok .twWalk := by decide
theorem test_decode_reserved : decode (.phase .dec 0x41) = .error (.reservedPhase .dec 4) := by decide

/-! The state after reset. -/

theorem reset_memory_wf : State.reset.enc.inBuf.wf ∧ State.reset.enc.outBuf.wf ∧ State.reset.dec.inBuf.wf ∧
    State.reset.dec.outBuf.wf := by decide

theorem reset_params_valid : Config.Valid State.reset.params := by decide

theorem test_reset_status : State.reset.regValue .enc 1 = 0x00000000 ∧ State.reset.regValue .dec 8 = 4096 := by decide

/-! One step of each instruction, on 95_test_vectors.md. -/

/-- V-H8. -/
theorem test_nop_busy : goes (exec (.nop .enc) (withEnc (busyBlock 2 abra) EncWork.initial)) (fun t =>
    t.enc.statusWord = 0x00000021) = true := by decide

/-- V-H11. -/
theorem test_encode_keeps_ill : goes (exec .encode (withEnc { loadedBlock abra with state := .done, ill := true } EncWork.initial))
    (fun t => t.enc.statusWord = 0x00001011 ∧ t.enc.outLen = 0) = true := by decide

/-- V-H13. -/
theorem test_encode_too_long : goes (exec .encode (withEnc { Block.reset with state := .done, inLen := 0xFFFFFFFF } EncWork.initial))
    (fun t => t.enc.statusWord = 0x00000603) = true := by decide

/-- V-D23. -/
theorem test_decode_too_long :
    goes (exec .decode { withDec (loadedBlock abraContainer) DecWork.initial with params := { Config.defaults with decInCap := 23 } })
      (fun t => t.dec.statusWord = 0x00000603) = true := by decide

/-- V-H7 (while `BUSY`) and V-H10 (from `FAULT`). -/
theorem test_clear :
    goes (exec (.clear .enc) (withEnc (busyBlock 2 abra) EncWork.initial)) (fun t =>
      t.enc.statusWord = 0x00001021 ∧ t.enc.inLen = 11) = true ∧
    goes (exec (.clear .dec) (withDec { loadedBlock abra with state := .fault, phase := 3, err := .truncatedStream } DecWork.initial))
      (fun t => t.dec.statusWord = 0x00000000 ∧ t.dec.inLen = 11) = true := by decide

/-- R36, R208: after `CLEAR` from `DONE` the empty `PAY` fits `BITCNT = 0`. -/
theorem test_clear_empties_pay :
    goes (exec (.clear .enc) (withEnc { loadedBlock [0x41] with state := .done, diag := { nsym := 1, symcnt := 1, bitcnt := 1 } }
      { EncWork.initial with pay := [0x00], code := [(0x41, [false])] }))
      (fun t => t.encWork.pay = [] ∧ t.enc.diag.bitcnt = 0 ∧ t.encWork.code = [(0x41, [false])]) = true := by decide

/-- V-H3, as a step. -/
theorem test_illegal_wrong_unit : goes (step (moves [.regWrite .dec 0 0x00000001])) (fun t =>
    t.dec.statusWord = 0x00001000 ∧ t.enc.statusWord = 0) = true := by decide

/-- V-F3. -/
theorem test_ftCount : goes (exec .ftCount (withEnc (busyBlock 1 [0x00, 0xFF, 0x00, 0x00, 0xFF, 0x00, 0x07]) EncWork.initial)) (fun t =>
    t.encWork.freq = [(0x00, 4), (0x07, 1), (0xFF, 2)] ∧ t.enc.diag.nsym = 3 ∧ t.enc.diag.symcnt = 7) = true := by
  decide +kernel

/-- V-F6. -/
theorem test_ftCount_overflow :
    goes (exec .ftCount { withEnc (busyBlock 1 [0x61, 0x61, 0x61, 0x61]) EncWork.initial with params := { Config.defaults with cntW := 2 } })
      (fun t => t.enc.statusWord = 0x00000213 ∧ t.enc.outLen = 0) = true := by decide +kernel

/-- V-T6. -/
theorem test_tbBuild :
    goes (exec .tbBuild (withEnc { busyBlock 2 abra with diag := { Diag.zero with nsym := 5 } } { EncWork.initial with freq := abraFreq }))
      (fun t => t.encWork.root = some 259 ∧ t.encWork.nint = 4 ∧
        Table.get t.encWork.node 256 = some (.internal (some 0x63) (some 0x64) 2) ∧
        Table.get t.encWork.node 257 = some (.internal (some 0x62) (some 0x72) 4) ∧
        Table.get t.encWork.node 258 = some (.internal (some 256) (some 257) 6) ∧
        Table.get t.encWork.node 259 = some (.internal (some 0x61) (some 258) 11)) = true := by decide +kernel

/-- V-T8: the internal node is lighter than a leaf and goes left. -/
theorem test_tbBuild_light_left :
    goes (exec .tbBuild (withEnc { busyBlock 2 abra with diag := { Diag.zero with nsym := 3 } }
      { EncWork.initial with freq := [(0x00, 4), (0x07, 1), (0xFF, 2)] }))
      (fun t => Table.get t.encWork.node 257 = some (.internal (some 256) (some 0x00) 7)) = true := by decide +kernel

/-- V-C4. -/
theorem test_caAssign :
    goes (exec .caAssign (withEnc (busyBlock 3 abra) { EncWork.initial with
      node := [(0x61, .leaf 0x61 2), (0x62, .leaf 0x62 2), (0x63, .leaf 0x63 2), (256, .internal (some 0x61) (some 0x62) 4),
        (257, .internal (some 0x63) (some 256) 6)]
      root := some 257 }))
      (fun t => t.encWork.code = [(0x61, [true, false]), (0x62, [true, true]), (0x63, [false])] ∧ t.enc.phase = 4) = true := by
  decide +kernel

/-- V-C11. -/
theorem test_caAssign_malformed :
    goes (exec .caAssign (withEnc (busyBlock 3 abra) { EncWork.initial with
      node := [(0x61, .leaf 0x61 2), (256, .internal (some 0x61) none 2)], root := some 256 }))
      (fun t => t.enc.err = .malformedTree ∧ t.enc.state = .fault) = true := by decide +kernel

/-- V-W8. -/
theorem test_bwPack : goes (exec .bwPack (withEnc (busyBlock 4 abra) { EncWork.initial with code := abraCode })) (fun t =>
    t.encWork.pay = [0x6E, 0x8A, 0xDC] ∧ t.enc.diag.bitcnt = 23 ∧ t.enc.phase = 5) = true := by decide +kernel

/-- A state before `SERIALIZE` on "abracadabra". -/
def abraSerialize (cap : Word) : State :=
  { withEnc { busyBlock 5 abra with diag := { nsym := 5, symcnt := 11, bitcnt := 23 } }
      { EncWork.initial with code := abraCode, pay := [0x6E, 0x8A, 0xDC] } with
    params := { Config.defaults with encOutCap := cap } }

/-- V-X2. -/
theorem test_encSerialize : goes (exec .encSerialize (abraSerialize 24)) (fun t =>
    t.enc.statusWord = 0x00000002 ∧ t.enc.outLen = 24 ∧ t.output .enc = abraContainer) = true := by decide +kernel

/-- V-X1. -/
theorem test_encSerialize_bound : goes (exec .encSerialize (abraSerialize 23)) (fun t =>
    t.enc.statusWord = 0x00000653 ∧ t.enc.outLen = 0) = true := by decide +kernel

/-- V-P13: the padding of the entries is not looked at. -/
theorem test_decParse :
    goes (exec .decParse (withDec (busyBlock 1 [0x00, 0x02, 0x61, 0x01, 0x7F, 0x62, 0x01, 0xFF, 0x00, 0x00, 0x00, 0x02, 0x40])
      DecWork.initial))
      (fun t => t.decWork.entries = [{ sym := 0x61, bits := [false] }, { sym := 0x62, bits := [true] }] ∧ t.decWork.n = 2 ∧
        t.decWork.payOff = 12 ∧ t.decWork.payLen = 1 ∧ t.dec.phase = 2) = true := by decide +kernel

/-- V-P8: three bytes for `N`. -/
theorem test_decParse_corrupt : goes (exec .decParse (withDec (busyBlock 1 (abraContainer.take 20)) DecWork.initial)) (fun t =>
    t.dec.statusWord = 0x00000413) = true := by decide +kernel

/-- V-B1. -/
theorem test_trRebuild :
    goes (exec .trRebuild (withDec (busyBlock 2 abraContainer) { DecWork.initial with
      k := 5, n := 11
      entries := [{ sym := 0x61, bits := [false] }, { sym := 0x62, bits := [true, true, false] },
        { sym := 0x63, bits := [true, false, false] }, { sym := 0x64, bits := [true, false, true] },
        { sym := 0x72, bits := [true, true, true] }] }))
      (fun t => t.decWork.trie = [.internal (some 1) (some 2), .leaf 0x61, .internal (some 5) (some 3), .internal (some 4) (some 8),
        .leaf 0x62, .internal (some 6) (some 7), .leaf 0x63, .leaf 0x64, .leaf 0x72] ∧ t.dec.phase = 3) = true := by decide +kernel

/-- V-B5: a code that ends on an internal node. -/
theorem test_trRebuild_corrupt :
    goes (exec .trRebuild (withDec (busyBlock 2 []) { DecWork.initial with
      k := 2, n := 1, entries := [{ sym := 0x41, bits := [false, true] }, { sym := 0x42, bits := [false] }] }))
      (fun t => t.dec.statusWord = 0x00000423) = true := by decide +kernel

/-- V-D7: payload padding is not looked at. -/
theorem test_twWalk :
    goes (exec .twWalk (withDec (busyBlock 3 [0x00, 0x01, 0x41, 0x01, 0x00, 0x00, 0x00, 0x00, 0x04, 0x0F]) { DecWork.initial with
      n := 4, payOff := 9, payLen := 1, trie := soloTrie }))
      (fun t => t.output .dec = [0x41, 0x41, 0x41, 0x41] ∧ t.dec.diag.bitcnt = 4 ∧ t.dec.statusWord = 0x00000002) = true := by
  decide +kernel

/-- V-D18: a bit that leads to no child. -/
theorem test_twWalk_corrupt :
    goes (exec .twWalk (withDec (busyBlock 3 [0x00, 0x01, 0x41, 0x01, 0x00, 0x00, 0x00, 0x00, 0x04, 0x20]) { DecWork.initial with
      n := 4, payOff := 9, payLen := 1, trie := soloTrie }))
      (fun t => t.dec.statusWord = 0x00000433 ∧ t.dec.outLen = 0) = true := by decide +kernel

/-- R121's example, the last insertion. -/
theorem test_pqInsert : goes (exec (.pqInsert 0x64) (withEnc (busyBlock 2 abra) { EncWork.initial with
    inq := [(0x61, ()), (0x62, ()), (0x63, ()), (0x72, ())] })) (fun t =>
      t.encWork.members = [0x61, 0x62, 0x63, 0x64, 0x72]) = true := by decide +kernel

/-- R122's example: a tie of two leaves and an internal node. -/
theorem test_pqExtractMin : goes (exec .pqExtractMin (withEnc (busyBlock 2 abra) { EncWork.initial with
    node := [(0x61, .leaf 0x61 5), (0x62, .leaf 0x62 2), (0x72, .leaf 0x72 2), (256, .internal (some 0x63) (some 0x64) 2)]
    inq := [(0x61, ()), (0x62, ()), (0x72, ()), (256, ())] })) (fun t =>
      t.ret = 0x62 ∧ t.encWork.members = [0x61, 0x72, 256]) = true := by decide +kernel

/-- V-W3, the third bit. -/
theorem test_bwPutBit : goes (exec (.bwPutBit true) (withEnc { busyBlock 4 abra with diag := { Diag.zero with bitcnt := 2 } }
    { EncWork.initial with pay := [0x80] })) (fun t => t.encWork.pay = [0xA0] ∧ t.enc.diag.bitcnt = 3) = true := by decide +kernel

/-- V-W9: nine bits. -/
theorem test_bwPutCode :
    goes (exec (.bwPutCode [true, false, true, false, true, false, true, false, true]) (withEnc (busyBlock 4 abra) EncWork.initial))
      (fun t => t.encWork.pay = [0xAA, 0x80] ∧ t.enc.diag.bitcnt = 9) = true := by decide +kernel

/-- V-R1 at `BITPOS = 8`, in the second payload byte. -/
theorem test_brGetBit :
    goes (exec .brGetBit (withDec (busyBlock 3 abraContainer) { DecWork.initial with payOff := 21, payLen := 3, bitpos := 8 }))
      (fun t => t.ret = 1 ∧ t.decWork.bitpos = 9) = true := by decide +kernel

/-- V-B4: a code that passes through a leaf. -/
theorem test_trInsert_corrupt :
    goes (exec (.trInsert 0x42 [false, true]) (withDec (busyBlock 2 []) { DecWork.initial with trie := soloTrie, seen := [(0x41, ())] }))
      (fun t => t.dec.statusWord = 0x00000423) = true := by decide +kernel

/-- R178: a code of two bits takes an internal node and a leaf. -/
theorem test_trInsert :
    goes (exec (.trInsert 0x42 [true, false]) (withDec (busyBlock 2 []) { DecWork.initial with trie := soloTrie, seen := [(0x41, ())] }))
      (fun t => t.decWork.trie = [.internal (some 1) (some 2), .leaf 0x41, .internal (some 3) none, .leaf 0x42]) = true := by
  decide +kernel

/-- V-E8. -/
theorem test_encodeBytes : gives (exec (.encodeBytes abra) State.reset) (.success abraContainer) = true := by decide +kernel

/-- V-E5. -/
theorem test_encodeBytes_skewed : gives (exec (.encodeBytes [0x61, 0x61, 0x62]) State.reset)
    (.success [0x00, 0x02, 0x61, 0x01, 0x80, 0x62, 0x01, 0x00, 0x00, 0x00, 0x00, 0x03, 0xC0]) = true := by decide +kernel

/-- V-D12: a padding bit decoded as a twelfth symbol. -/
theorem test_decodeBytes : gives (exec (.decodeBytes (abraContainer.set 20 0x0C)) State.reset) (.success (abra ++ [0x61])) = true := by
  decide +kernel

/-- V-D24: `REBUILD` runs before `WALK`. -/
theorem test_decodeBytes_corrupt :
    gives (exec (.decodeBytes [0x00, 0x02, 0x41, 0x01, 0x00, 0x41, 0x01, 0x80, 0x00, 0x00, 0x00, 0x01]) State.reset)
      (.failure .corruptData) = true := by decide +kernel

end Sys2Proof.Tests

/-! Witnesses: for each statement with hypotheses, a state and operands that meet them together, clause by clause. -/

namespace Sys2Proof.Tests
open Sys2Proof.Machine

/-- Both units `BUSY`, in their first phases, with the moves `es` to come. -/
def bothBusy (es : List Event) : State :=
  { State.reset with enc := busyBlock 1 abra, dec := busyBlock 1 abraContainer, agenda := es }

/-- `ENC` in a fault. -/
def encFaulted : State := withEnc { loadedBlock abra with state := .fault, phase := 1, err := .overflow } EncWork.initial

/-- `DEC` in a fault. -/
def decFaulted : State := withDec { loadedBlock abraContainer with state := .fault, phase := 3, err := .truncatedStream } DecWork.initial

theorem witness_EncodeDecodeRoundTrip :
    (∃ p i f, wellFormed p i = true ∧ encode i = some f ∧ i = .illegal .dec 1) ∧
    (∃ u w i, decode (.phase u w) = .ok i ∧ w = 0x1531) :=
  ⟨⟨Config.defaults, _, _, by decide, rfl, rfl⟩, ⟨.dec, 0x1531, .twWalk, by decide, rfl⟩⟩

theorem witness_CommandWordsNameTheirCommands :
    (∀ p ∈ [(UnitId.enc, (4 : Word)), (.enc, 2), (.dec, 1), (.dec, 0xFFFFFFFF), (.enc, 0x101), (.enc, 0x100)],
      p.2.toNat ≠ 0 ∧ p.2.toNat ≠ 3 ∧ (p.1 = .enc → p.2.toNat ≠ 1) ∧ (p.1 = .dec → p.2.toNat ≠ 2)) := by decide

theorem witness_PhaseCodesNameTheirPhases :
    (0x11 : Word).toNat / 16 % 16 = 1 ∧ (0x21 : Word).toNat / 16 % 16 = 2 ∧ (0x31 : Word).toNat / 16 % 16 = 3 ∧
    (0x41 : Word).toNat / 16 % 16 = 4 ∧ (0x1651 : Word).toNat / 16 % 16 = 5 ∧ (0x1001 : Word).toNat / 16 % 16 = 0 ∧
    6 ≤ (0x61 : Word).toNat / 16 % 16 ∧ 6 ≤ (0xFFFFFFFF : Word).toNat / 16 % 16 := by decide

theorem witness_StepRunsDecodedInstruction :
    (∃ (s : State) (u : UnitId) (w : Word) (rest : List Event) (i : Instr), s.agenda = .regWrite u 0 w :: rest ∧ decode (.command u w) = .ok i) ∧
    (∃ (s : State) (u : UnitId) (rest : List Event) (i : Instr), s.agenda = .unitStep u :: rest ∧ s.busy u = true ∧ decode (.phase u (s.block u).statusWord) = .ok i) ∧
    (∃ (s : State) (u : UnitId) (rest : List Event) (i : Instr), s.agenda = .wait u :: rest ∧ s.busy u = true ∧ decode (.phase u (s.block u).statusWord) = .ok i) ∧
    (∃ (s : State) (u : UnitId) (i : Instr), s.agenda = [] ∧ s.busy u = true ∧ (∀ v, v ≠ u → s.busy v = false) ∧
      decode (.phase u (s.block u).statusWord) = .ok i) ∧
    (∃ (s : State) (i j : Instr), s.agenda = [] ∧ s.busy .enc = true ∧ s.busy .dec = true ∧ decode (.phase .enc s.enc.statusWord) = .ok i ∧
      decode (.phase .dec s.dec.statusWord) = .ok j) ∧
    (∃ (s : State) (x : List Byte) (rest : List Event), s.agenda = .encodeBytes x :: rest) ∧ (∃ (s : State) (c : List Byte) (rest : List Event), s.agenda = .decodeBytes c :: rest) := by
  refine ⟨⟨moves [.regWrite .enc 0 1], .enc, 1, [], .encode, rfl, by decide⟩,
    ⟨(bothBusy [.unitStep .dec]), .dec, [], .decParse, rfl, by decide, by decide⟩,
    ⟨(bothBusy [.wait .enc, .reset]), .enc, [.reset], .ftCount, rfl, by decide, by decide⟩,
    ⟨withDec (busyBlock 3 []) DecWork.initial, .dec, .twWalk, rfl, by decide, ?_, by decide⟩,
    ⟨bothBusy [], .ftCount, .decParse, rfl, by decide, by decide, by decide, by decide⟩,
    ⟨moves [.encodeBytes abra], abra, [], rfl⟩, ⟨moves [.decodeBytes abraContainer], abraContainer, [], rfl⟩⟩
  intro v hv
  cases v
  · decide
  · exact absurd rfl hv

theorem witness_FetchWordRunsItsInstruction :
    decodeTableWord 32 0x00000001 = some .encode ∧ decodeTableWord 8 0x50 = some .encSerialize ∧
      decodeTableWord 32 0x00000002 = some .decode := by decide

theorem witness_OnlyBusyUnitsStep :
    State.reset.busy .enc = false ∧ State.reset.busy .dec = false ∧ State.reset.agenda = [] ∧ encFaulted.busy .enc = false ∧
      (moves [.unitStep .dec]).agenda = .unitStep .dec :: [] ∧ (moves [.unitStep .dec]).busy .dec = false := by decide

theorem witness_RegReadReturnsRegister :
    (∀ r : BitVec 4, (moves [.regRead .enc r]).agenda = .regRead .enc r :: []) ∧ (State.reset.block .enc).state = .idle ∧
      (encFaulted.block .enc).state ≠ .busy ∧ 10 ≤ (10 : BitVec 4).toNat ∧ 10 ≤ (15 : BitVec 4).toNat := by decide

theorem witness_RegWriteEffect :
    (∀ r : BitVec 4, (moves [.regWrite .enc r 7]).agenda = .regWrite .enc r 7 :: []) ∧ (moves [.regWrite .enc 2 7]).busy .enc = false ∧
      (bothBusy [.regWrite .enc 2 7]).busy .enc = true ∧ (3 : BitVec 4) ≠ 0 ∧ (3 : BitVec 4) ≠ 2 := by decide

theorem witness_HostWriteInStoresByte :
    (moves [.writeIn .enc 4095 1]).agenda = .writeIn .enc 4095 1 :: [] ∧ (moves [.writeIn .enc 4095 1]).busy .enc = false ∧
      4095 < ((moves [.writeIn .enc 4095 1]).inCap .enc).toNat ∧ ((moves [.writeIn .enc 4096 1]).inCap .enc).toNat ≤ 4096 ∧
      (bothBusy [.writeIn .enc 0 1]).busy .enc = true := by decide

/-- `DEC` in `DONE` with one byte of output. -/
def decDone (es : List Event) : State :=
  { withDec { loadedBlock [0xAB] with state := .done, outLen := 1, outBuf := [(0, 0x41)] } DecWork.initial with agenda := es }

theorem witness_HostReadsReturnBytes :
    ((decDone [.readIn .dec 0]).agenda = .readIn .dec 0 :: [] ∧ 0 < ((decDone []).inCap .dec).toNat ∧
      ((decDone []).block .dec).inBuf.read 0 = some 0xAB) ∧
    ((decDone [.readOut .dec 0]).agenda = .readOut .dec 0 :: [] ∧ ((decDone []).block .dec).state = .done ∧
      0 < ((decDone []).block .dec).outLen.toNat ∧ ((decDone []).block .dec).outBuf.read 0 = some 0x41) := by decide

theorem witness_HostWritesToOutAreIgnored : (moves [.writeOut .dec 3 9]).agenda = .writeOut .dec 3 9 :: [] := by decide

theorem witness_ResetReturnsBothUnitsToIdle :
    (bothBusy [.reset]).agenda = .reset :: [] ∧ (0 : BitVec 4).toNat < 8 ∧ (7 : BitVec 4).toNat < 8 := by decide

/-- The input just fits. -/
theorem witness_EncodeIsAccepted :
    (withEnc { loadedBlock abra with inLen := 4096 } EncWork.initial).busy .enc = false ∧
      (withEnc { loadedBlock abra with inLen := 4096 } EncWork.initial).enc.inLen ≤ State.reset.params.encInCap ∧
      encFaulted.busy .enc = false ∧ encFaulted.enc.inLen ≤ encFaulted.params.encInCap := by decide

theorem witness_DecodeIsAccepted :
    decFaulted.busy .dec = false ∧ decFaulted.dec.inLen ≤ decFaulted.params.decInCap := by decide

/-- The input is one byte too long. -/
theorem witness_TooLongInputFaultsAtAcceptance :
    (withEnc { Block.reset with inLen := 4097 } EncWork.initial).busy .enc = false ∧
      State.reset.params.encInCap < (withEnc { Block.reset with inLen := 4097 } EncWork.initial).enc.inLen ∧
      (withDec { Block.reset with inLen := 4097 } DecWork.initial).busy .dec = false ∧
      State.reset.params.decInCap < (withDec { Block.reset with inLen := 4097 } DecWork.initial).dec.inLen := by decide

theorem witness_IllegalCommandSetsOnlyIll :
    cmdRsv 0x00000101 ≠ 0 ∧ 4 ≤ (cmdOp 0x00000004).toNat ∧ cmdOp 0x00000001 = 1 ∧ cmdOp 0x00000002 = 2 ∧
      (bothBusy []).busy .enc = true ∧ (bothBusy []).busy .dec = true := by decide

theorem witness_ClearReturnsToIdle : State.reset.busy .enc = false ∧ decFaulted.busy .dec = false := by decide

theorem bits_single (i : Nat) : (Table.bits [(0x61, [false])] i).length ≤ 255 := by
  simp only [Table.bits, Table.get]
  split <;> decide

theorem witness_CountCountsEachSymbol :
    (∀ b, (withEnc (busyBlock 1 abra) EncWork.initial).encWork.freq.count b ≤ 2 ^ 32 - 1) ∧
    (∀ b, Table.count ([] : Table Nat) b + occurrences [0x61, 0x61, 0x61] b ≤ 2 ^ 2 - 1) ∧
    (∃ b, 2 ^ 2 - 1 < Table.count ([] : Table Nat) b + occurrences [0x61, 0x61, 0x61, 0x61] b) := by
  refine ⟨fun b => Nat.zero_le _, fun b => ?_, ⟨0x61, by decide⟩⟩
  have := List.countP_le_length (p := fun c : Byte => decide (c.toNat = b)) (l := [0x61, 0x61, 0x61])
  simpa [Table.count, Table.get, occurrences] using this

theorem witness_CountersAddUpToInputLength :
    (∃ s t : State, s.enc.state = .busy ∧ (∀ b, s.encWork.freq.count b = 0) ∧ exec .ftCount s = .next t ∧ t.enc.state = .busy) ∧
    (∃ s t : State, s.enc.state = .busy ∧ exec .bwPack s = .next t ∧ t.enc.state ≠ .fault) := by
  refine ⟨⟨withEnc (busyBlock 1 []) EncWork.initial, _, rfl, fun b => rfl, rfl, by decide +kernel⟩,
    ⟨withEnc (busyBlock 4 []) EncWork.initial, _, rfl, rfl, by decide +kernel⟩⟩

theorem witness_PqExtractMinTakesTheFirst : (EncWork.initial.pqInsert 0x61).members ≠ [] := by decide

/-- A state before `BUILD` on "abracadabra". -/
def abraBuild : State :=
  withEnc { busyBlock 2 abra with diag := { Diag.zero with nsym := 5 } } { EncWork.initial with freq := abraFreq }

/-- A state before `BUILD` with one symbol. -/
def soloBuild : State :=
  withEnc { busyBlock 2 [0x41] with diag := { Diag.zero with nsym := 1 } } { EncWork.initial with freq := [(0x41, 1)] }

theorem witness_BuildJoinsTheTwoFirst :
    State.reset.enc.diag.nsym = 0 ∧ abraBuild.enc.diag.nsym ≠ 0 ∧ 1 ≤ distinctSymbols abraBuild.encWork.freq ∧
      abraBuild.encWork.node = [] ∧ abraBuild.encWork.inq = [] ∧ abraBuild.encWork.nint = 0 := by decide +kernel

theorem witness_BuiltTreeIsAWeighedCodeTree :
    (abraBuild.enc.diag.nsym ≠ 0 ∧ 2 ≤ distinctSymbols abraBuild.encWork.freq ∧ abraBuild.encWork.node = [] ∧
      abraBuild.encWork.inq = [] ∧ abraBuild.encWork.nint = 0) ∧
    (soloBuild.enc.diag.nsym ≠ 0 ∧ distinctSymbols soloBuild.encWork.freq = 1 ∧ soloBuild.encWork.node = [] ∧
      soloBuild.encWork.inq = [] ∧ soloBuild.encWork.nint = 0) := by decide +kernel

theorem witness_CodeTableIsACompletePrefixCode :
    abraBuild.encWork.code = [] ∧ soloBuild.encWork.code = [] ∧ 2 ≤ distinctSymbols abraBuild.encWork.freq ∧
      distinctSymbols soloBuild.encWork.freq = 1 ∧ 255 ≤ (List.replicate 255 true).length := by decide +kernel

/-- The arena of V-T3. -/
def pairArena : Table EncNode := [(0x61, .leaf 0x61 2), (0x62, .leaf 0x62 1), (256, .internal (some 0x62) (some 0x61) 3)]

theorem witness_AssignGivesLeafPaths :
    ∃ (s : State) (r : Nat) (tree : CodeTree), s.encWork.root = some r ∧ tree.At s.encWork.node r ∧ tree.symbols.Nodup ∧
      s.encWork.code = [] :=
  ⟨withEnc (busyBlock 3 []) { EncWork.initial with node := pairArena, root := some 256 }, 256, .node (.leaf 0x62) (.leaf 0x61), rfl,
    ⟨0x62, 0x61, 3, by decide, ⟨1, by decide⟩, ⟨2, by decide⟩⟩, by decide, rfl⟩

theorem witness_AssignRaisesMalformedTree :
    (∃ (s : State) (r : Nat) (sh : Shape), s.encWork.root = some r ∧ sh.At s.encWork.node r ∧ sh.ends ≤ 256 ∧ sh.hasDefect = true) ∧
    (∃ (s : State) (r : Nat) (sh : Shape), s.encWork.root = some r ∧ sh.At s.encWork.node r ∧ sh.ends ≤ 256 ∧ sh.hasDefect = true ∧
      sh ≠ .defect) ∧
    State.reset.encWork.root = none :=
  ⟨⟨withEnc (busyBlock 3 []) { EncWork.initial with node := [(256, .internal (some 0x61) none 2)], root := some 256 }, 256, .defect, rfl,
      .inr ⟨_, _, _, rfl, .inr rfl⟩, by decide, rfl⟩,
    ⟨withEnc (busyBlock 3 []) { EncWork.initial with
        node := [(0x61, .leaf 0x61 1), (256, .internal (some 0x61) (some 0x62) 2)], root := some 256 }, 256,
      .node (.leaf 0x61) .defect, rfl, ⟨_, _, _, rfl, ⟨_, rfl⟩, .inl rfl⟩, by decide, by decide, by decide⟩, rfl⟩

theorem witness_BitWriterAppendsBits :
    (∃ (s : State) (bs : Bits), s.bitWriter.Holds bs ∧ bs.length + 1 < 2 ^ 40) ∧
    (∃ (s : State) (bs cs : Bits), s.bitWriter.Holds bs ∧ bs ≠ [] ∧ cs ≠ [] ∧ bs.length + cs.length < 2 ^ 40) :=
  ⟨⟨State.reset, [], BitWriter.empty_holds, by decide⟩,
    ⟨State.reset.withBitWriter (BitWriter.empty.putBit true), [true], [false, true],
      BitWriter.putBit_holds true BitWriter.empty_holds (by decide), by decide, by decide, by decide⟩⟩

theorem witness_PackbitsLaysBitsMostSignificantFirst :
    [true, true, false].length < 2 ^ 40 ∧ State.reset.encWork.pay = [] ∧ State.reset.enc.diag.bitcnt = 0 ∧
      Table.bits abraCode 0x62 = [true, true, false] := by decide

theorem witness_PackPacksTheInputsCodes :
    ∃ s : State, s.encWork.pay = [] ∧ s.enc.diag.bitcnt = 0 ∧ (∀ i, (s.encWork.code.bits i).length ≤ 255) ∧ s.input .enc = [0x61] :=
  ⟨withEnc (busyBlock 4 [0x61]) { EncWork.initial with code := [(0x61, [false])] }, rfl, rfl, bits_single, by decide⟩

theorem witness_SerializeWritesTheContainer :
    ((abraSerialize 24).container.length ≤ (abraSerialize 24).params.encOutCap.toNat) ∧
      ((abraSerialize 23).params.encOutCap.toNat < (abraSerialize 23).container.length) := by decide +kernel

theorem witness_SerializedTablesAreAContainer :
    ∃ (s : State) (code : Table Bits), s.encWork.code = code ∧ (∀ i, (code.bits i).length ≤ 255) ∧
      s.enc.diag.nsym.toNat = (codeEntries code).length ∧ code ≠ [] :=
  ⟨withEnc { busyBlock 5 [0x61] with diag := { nsym := 1, symcnt := 1, bitcnt := 1 } }
      { EncWork.initial with code := [(0x61, [false])], pay := [0x00] }, _, rfl, bits_single, by decide +kernel, by decide⟩

theorem witness_EmptyInputGivesTheEmptyContainer :
    State.reset.busy .enc = false ∧ State.reset.enc.inLen = 0 ∧ 6 ≤ State.reset.params.encOutCap.toNat := by decide

/-- The container of V-E2, read through its format. -/
theorem container_solo : Container [0x00, 0x01, 0x41, 0x01, 0x00, 0x00, 0x00, 0x00, 0x01, 0x00] [{ sym := 0x41, bits := [false] }] 1 [0x00] :=
  ⟨by decide, by decide, [0x41, 0x01, 0x00], ⟨[0x41, 0x01, 0x00], [], rfl, ⟨by decide, by decide, [0x00], rfl, by decide, by decide⟩, rfl⟩, rfl⟩

/-- V-P11: no symbols, and a byte that is not looked at. -/
theorem container_empty : Container [0x00, 0x00, 0x00, 0x00, 0x00, 0x00, 0xAB] [] 0 [0xAB] := ⟨by decide, by decide, [], rfl, rfl⟩

/-- V-P2 and V-P8: no container. -/
theorem no_container {c : List Byte} (h : parseHeader (listReader c) c.length = none) : ∀ es n pay, ¬ Container c es n pay := by
  intro es n pay hc
  obtain ⟨hp, -⟩ := parseHeader_of_container (rd := listReader c) (len := c.length) (by rw [memRead_listReader]; exact hc)
  rw [h] at hp
  cases hp

theorem witness_ParseReadsTheContainer :
    ∃ (s : State) (es : List Entry) (n : Nat) (pay : List Byte), Container (s.input .dec) es n pay ∧ 1 ≤ n := by
  refine ⟨withDec (busyBlock 1 [0x00, 0x01, 0x41, 0x01, 0x00, 0x00, 0x00, 0x00, 0x01, 0x00]) DecWork.initial,
    [{ sym := 0x41, bits := [false] }], 1, [0x00], ?_, by decide⟩
  have h : (withDec (busyBlock 1 [0x00, 0x01, 0x41, 0x01, 0x00, 0x00, 0x00, 0x00, 0x01, 0x00]) DecWork.initial).input .dec =
    [0x00, 0x01, 0x41, 0x01, 0x00, 0x00, 0x00, 0x00, 0x01, 0x00] := by decide
  rw [h]
  exact container_solo

theorem witness_ParseOfZeroSymbolsEndsTheCommand :
    ∃ (s : State) (es : List Entry) (pay : List Byte), Container (s.input .dec) es 0 pay := by
  refine ⟨withDec (busyBlock 1 [0x00, 0x00, 0x00, 0x00, 0x00, 0x00, 0xAB]) DecWork.initial, [], [0xAB], ?_⟩
  have h : (withDec (busyBlock 1 [0x00, 0x00, 0x00, 0x00, 0x00, 0x00, 0xAB]) DecWork.initial).input .dec =
    [0x00, 0x00, 0x00, 0x00, 0x00, 0x00, 0xAB] := by decide
  rw [h]
  exact container_empty

theorem witness_ParseRejectsWhatIsNoContainer :
    (∃ s : State, s.input .dec = [] ∧ ∀ es n pay, ¬ Container (s.input .dec) es n pay) ∧
      ∀ es n pay, ¬ Container [0x01, 0x01, 0x00, 0x00, 0x00, 0x00] es n pay :=
  ⟨⟨State.reset, by decide, by rw [show State.reset.input .dec = [] by decide]; exact no_container (by decide)⟩, no_container (by decide)⟩

/-- A trie that is only a root. -/
def rootTrie : Trie := [.internal none none]

/-- A full arena whose root has no child. -/
def fullTrie : Trie := List.replicate 511 (.internal none none)

theorem child_replicate (n k : Nat) (b : Bool) : Trie.child (List.replicate k (.internal none none)) n b = none := by
  unfold Trie.child
  rw [List.getElem?_replicate]
  by_cases h : n < k
  · rw [if_pos h]; cases b <;> rfl
  · rw [if_neg h]

theorem fullTrie_needs : fullTrie.length + fullTrie.missing 0 [false] = 512 := by
  unfold fullTrie
  rw [List.length_replicate]
  simp only [Trie.missing, child_replicate, List.length_nil]

theorem witness_TrInsertPlacesACode :
    (∃ (s : State) (sym : Byte) (bs : Bits), 1 ≤ bs.length ∧ 1 ≤ s.decWork.trie.length ∧ s.decWork.trie.length ≤ Config.nodeCap ∧
      (∀ n b m, s.decWork.trie.child n b = some m → m < s.decWork.trie.length) ∧ Table.get s.decWork.seen sym.toNat = none ∧
      s.decWork.trie.Free 0 bs ∧ s.decWork.trie.length + s.decWork.trie.missing 0 bs ≤ Config.nodeCap) ∧
    (∃ (s : State) (sym : Byte) (bs : Bits), 1 ≤ bs.length ∧ 1 ≤ s.decWork.trie.length ∧ s.decWork.trie.length ≤ Config.nodeCap ∧
      (∀ n b m, s.decWork.trie.child n b = some m → m < s.decWork.trie.length) ∧
      ¬ (Table.get s.decWork.seen sym.toNat = none ∧ s.decWork.trie.Free 0 bs ∧
        s.decWork.trie.length + s.decWork.trie.missing 0 bs ≤ Config.nodeCap)) := by
  refine ⟨⟨withDec (busyBlock 2 []) { DecWork.initial with trie := rootTrie }, 0x41, [false], by decide, by decide, by decide,
      fun n b m h => ?_, by decide, ⟨by decide, by decide⟩, by decide⟩,
    ⟨withDec (busyBlock 2 []) { DecWork.initial with trie := fullTrie }, 0x41, [false], by decide, ?_, ?_, fun n b m h => ?_, ?_⟩⟩
  · rw [show (withDec (busyBlock 2 []) { DecWork.initial with trie := rootTrie }).decWork.trie = List.replicate 1 (.internal none none)
      from rfl, child_replicate] at h
    cases h
  · show 1 ≤ (List.replicate 511 _).length; rw [List.length_replicate]; decide
  · show (List.replicate 511 _).length ≤ 511; rw [List.length_replicate]
  · have : Trie.child (List.replicate 511 (.internal none none)) n b = some m := h
    rw [child_replicate] at this
    cases this
  · rintro ⟨-, -, h⟩
    simp only [withDec] at h
    rw [fullTrie_needs] at h
    exact absurd h (by decide)

/-- A state before `REBUILD` with the entries `es`. -/
def beforeRebuild (es : List Entry) : State :=
  withDec (busyBlock 2 []) { DecWork.initial with k := BitVec.ofNat 9 es.length, n := 1, entries := es }

theorem witness_RebuildSpellsExactlyTheEntries :
    (∃ s : State, s.decWork.trie = [] ∧ s.decWork.seen = [] ∧ s.decWork.entries.length = s.decWork.k.toNat ∧
      (∀ e ∈ s.decWork.entries, 1 ≤ e.bits.length) ∧ s.decWork.k ≠ 0 ∧ Buildable s.decWork.entries) ∧
    (∃ s : State, s.decWork.trie = [] ∧ s.decWork.seen = [] ∧ s.decWork.entries.length = s.decWork.k.toNat ∧
      (∀ e ∈ s.decWork.entries, 1 ≤ e.bits.length) ∧ s.decWork.k = 0) ∧
    (∃ s : State, s.decWork.trie = [] ∧ s.decWork.seen = [] ∧ s.decWork.entries.length = s.decWork.k.toNat ∧
      (∀ e ∈ s.decWork.entries, 1 ≤ e.bits.length) ∧ ¬ Buildable s.decWork.entries) :=
  ⟨⟨beforeRebuild [{ sym := 0x61, bits := [false] }, { sym := 0x62, bits := [true, false] }], rfl, rfl, by decide, by decide, by decide,
      by decide, by decide, by decide +kernel⟩,
    ⟨beforeRebuild [], rfl, rfl, by decide, by decide, by decide⟩,
    ⟨beforeRebuild [{ sym := 0x61, bits := [false] }, { sym := 0x62, bits := [false, true] }], rfl, rfl, by decide, by decide,
      fun h => absurd h.2.1 (by decide)⟩⟩

theorem witness_GetBitYieldsTheNextPayloadBit :
    (withDec (busyBlock 3 abraContainer) { DecWork.initial with payOff := 21, payLen := 3, bitpos := 23 }).dec.inBuf.read (21 + 23 / 8) =
      some 0xDC := by decide

/-- A state before `WALK` of a payload byte with the trie of V-B2. -/
def beforeWalk (n : Word) (payload : Byte) : State :=
  withDec (busyBlock 3 [payload]) { DecWork.initial with n := n, payOff := 0, payLen := 1, trie := soloTrie }

theorem soloTrie_spells : soloTrie.Spells 0 [false] 0x41 := ⟨1, by decide, by decide⟩

theorem soloTrie_spellsAll (x : List Byte) (h : ∀ b ∈ x, b = 0x41) : soloTrie.SpellsAll x (List.replicate x.length false) := by
  induction x with
  | nil => rfl
  | cons b x ih =>
    have hb := h b (by simp)
    subst hb
    exact ⟨[false], List.replicate x.length false, rfl, soloTrie_spells, ih (fun b hb => h b (by simp [hb]))⟩

theorem witness_WalkEmitsTheSpelledSymbols :
    ∃ (s : State) (x : List Byte) (bs rest : Bits), s.payload = bs ++ rest ∧ s.decWork.trie.SpellsAll x bs ∧ rest ≠ [] ∧
      s.decWork.n.toNat = x.length ∧ s.decWork.n ≤ s.params.decOutCap ∧ bs.length < 2 ^ 40 :=
  ⟨beforeWalk 4 0x0F, [0x41, 0x41, 0x41, 0x41], [false, false, false, false], [true, true, true, true], by decide,
    soloTrie_spellsAll [0x41, 0x41, 0x41, 0x41] (by decide), by decide, by decide, by decide, by decide⟩

/-- The three faults: `N` above the buffer; the bits end between two codes (V-D13), and inside one (V-D14); a bit with no child
(V-D18). -/
theorem witness_WalkFaults :
    (∃ s : State, s.params.decOutCap < s.decWork.n) ∧
    (∃ (s : State) (x : List Byte) (bs r : Bits) (m : Nat), s.decWork.n ≤ s.params.decOutCap ∧ s.payload = bs ++ r ∧
      s.decWork.trie.SpellsAll x bs ∧ s.decWork.trie.Inner 0 r m ∧ x.length < s.decWork.n.toNat ∧ r = []) ∧
    (∃ (s : State) (x : List Byte) (bs r : Bits) (m : Nat), s.decWork.n ≤ s.params.decOutCap ∧ s.payload = bs ++ r ∧
      s.decWork.trie.SpellsAll x bs ∧ s.decWork.trie.Inner 0 r m ∧ x.length < s.decWork.n.toNat ∧ r ≠ []) ∧
    (∃ (s : State) (x : List Byte) (bs r rest : Bits) (b : Bool) (m : Nat), s.decWork.n ≤ s.params.decOutCap ∧
      s.payload = bs ++ (r ++ b :: rest) ∧ s.decWork.trie.SpellsAll x bs ∧ s.decWork.trie.Inner 0 r m ∧
      s.decWork.trie.child m b = none ∧ x.length < s.decWork.n.toNat) :=
  ⟨⟨beforeWalk 4097 0, by decide⟩,
    ⟨beforeWalk 9 0, List.replicate 8 0x41, List.replicate 8 false, [], 0, by decide, by decide,
      soloTrie_spellsAll (List.replicate 8 0x41) (by decide), rfl, by decide, rfl⟩,
    ⟨{ beforeWalk 9 0x80 with decWork := { (beforeWalk 9 0x80).decWork with
        payLen := 1
        trie := List.replicate 1 (.internal none (some 1)) ++ [.internal (some 2) none, .internal (some 3) none, .internal (some 4) none,
          .internal (some 5) none, .internal (some 6) none, .internal (some 7) none, .internal (some 8) none, .internal none none] } },
      [], [], [true, false, false, false, false, false, false, false], 8, by decide, by decide, rfl,
      ⟨1, by decide, by decide, 2, by decide, by decide, 3, by decide, by decide, 4, by decide, by decide, 5, by decide, by decide,
        6, by decide, by decide, 7, by decide, by decide, 8, by decide, by decide, rfl⟩, by decide, by decide⟩,
    ⟨beforeWalk 4 0x20, [0x41, 0x41], [false, false], [], [false, false, false, false, false], true, 0, by decide, by decide,
      soloTrie_spellsAll [0x41, 0x41] (by decide), rfl, by decide, by decide⟩⟩

theorem reset_inv : State.reset.Inv := by
  refine ⟨by decide, ?_, ?_, fun x => (by cases x), fun x => (by cases x), ⟨[], BitWriter.empty_holds⟩⟩ <;>
  exact ⟨List.Pairwise.nil, fun a ha => (by cases ha), List.Pairwise.nil, fun _ => ⟨rfl, rfl, rfl, rfl, rfl⟩, fun x => (by cases x),
    fun x => (by cases x), fun x => (by cases x)⟩

/-- A unit just accepted, with moves to come, in a state that satisfies the invariant. -/
theorem inv_accepted (u : UnitId) (es : List Event) : { State.reset.accept u with agenda := es }.Inv :=
  (reset_inv.accept u).of_eq rfl rfl rfl rfl rfl

theorem witness_StepKeepsTheInvariant : ∃ s t : State, s.Inv ∧ s.busy .dec = true ∧ step s = .next t := by
  have h := inv_accepted .dec [.unitStep .dec]
  obtain ⟨t, ht, -⟩ := perform_inv (s := { State.reset.accept .dec with agenda := [] }) (inv_accepted .dec []) (.unitStep .dec)
  exact ⟨_, t, h, by decide, ht⟩

theorem witness_MachineNeverStops : ∃ s : State, s.Inv ∧ s.busy .enc = true := ⟨_, inv_accepted .enc [], by decide⟩

theorem witness_CommandEndsWithinItsPhases :
    ∀ u : UnitId, ∃ (s : State) (rest : List Event), s.Inv ∧ s.busy u = true ∧
      s.agenda = List.replicate (maxPhases u) (.unitStep u) ++ rest :=
  fun u => ⟨_, [.collect u], inv_accepted u _, by cases u <;> decide, rfl⟩

theorem witness_OperationsTouchOnlyTheirUnit :
    (∃ (i : Instr) (u : UnitId) (s t : State), opUnit i = some u ∧ exec i s = .next t ∧ i ≠ .pqExtractMin ∧ i ≠ .brGetBit ∧
      i ≠ .encSerialize ∧ i ≠ .twWalk ∧ (s.block u).state ≠ .fault ∧ (t.block u).state ≠ .fault) ∧
    (∃ (s t : State), opUnit .brGetBit = some .dec ∧ exec .brGetBit s = .next t) :=
  ⟨⟨.bwPack, .enc, withEnc (busyBlock 4 []) EncWork.initial, _, rfl, rfl, by decide, by decide, by decide, by decide, by decide,
      by decide +kernel⟩, ⟨State.reset, _, rfl, rfl⟩⟩

theorem witness_UnitsDoNotInfluenceEachOther :
    ∃ (i : Instr) (u : UnitId) (s s' t : State), opUnit i = some u ∧ SameUnit u s s' ∧ s'.params = s.params ∧ s'.tick = s.tick ∧
      exec i s = .next t ∧ s'.dec ≠ s.dec :=
  ⟨.bwPack, .enc, withEnc (busyBlock 4 []) EncWork.initial, { withEnc (busyBlock 4 []) EncWork.initial with dec := decFaulted.dec }, _, rfl,
    ⟨rfl, rfl⟩, rfl, rfl, rfl, by decide⟩

/-- `CNT_W = 2`, and an `IN` of four bytes. -/
def smallParams : Params := { Config.defaults with cntW := 2, encInCap := 4 }

theorem witness_EncodeBytesGivesAContainer :
    (∃ (s : State) (x : List Byte), s.busy .enc = false ∧ x.length ≤ s.params.encInCap.toNat ∧
      ∃ b, 2 ^ s.params.cntW - 1 < occurrences x b) ∧
    (∃ (s : State) (x : List Byte), s.busy .enc = false ∧ x.length ≤ s.params.encInCap.toNat ∧
      ∀ b, occurrences x b ≤ 2 ^ s.params.cntW - 1) := by
  refine ⟨⟨{ State.reset with params := smallParams }, [0x61, 0x61, 0x61, 0x61], by decide, by decide, 0x61, by decide⟩,
    ⟨{ encFaulted with params := smallParams }, [0x61, 0x61, 0x61], by decide, by decide, fun b => ?_⟩⟩
  have := List.countP_le_length (p := fun c : Byte => decide (c.toNat = b)) (l := [0x61, 0x61, 0x61])
  exact this

theorem witness_DecodeBytesGivesTheSpelledSymbols :
    (State.reset.busy .dec = false ∧ (6 : Nat) ≤ State.reset.params.decInCap.toNat) ∧
    (∀ es n pay, ¬ Container ([] : List Byte) es n pay) ∧
    Container [0x00, 0x00, 0x00, 0x00, 0x00, 0x00, 0xAB] [] 0 [0xAB] ∧
    Container [0x00, 0x00, 0x00, 0x00, 0x00, 0x01, 0x00] [] 1 [0x00] ∧
    (∃ es pay, Container [0x00, 0x01, 0x41, 0x01, 0x00, 0x00, 0x00, 0x00, 0x01, 0x00] es 1 pay ∧ es ≠ [] ∧ Buildable es ∧
      1 ≤ State.reset.params.decOutCap.toNat ∧ EntriesSpell es [0x41] [false] ∧
      (List.range (8 * pay.length)).map (bitat pay) = [false] ++ List.replicate 7 false) ∧
    (∃ es pay, Container [0x00, 0x01, 0x41, 0x01, 0x00, 0x00, 0x00, 0x20, 0x00, 0x00] es 8192 pay ∧ es ≠ [] ∧ Buildable es ∧
      State.reset.params.decOutCap.toNat < 8192) :=
  ⟨by decide, no_container (by decide), container_empty, ⟨by decide, by decide, [], rfl, rfl⟩,
    ⟨_, _, container_solo, by decide, ⟨by decide, by decide, by decide +kernel⟩, by decide, ⟨{ sym := 0x41, bits := [false] }, by simp, [], rfl, rfl, rfl⟩, by decide⟩,
    ⟨[{ sym := 0x41, bits := [false] }], [0x00],
      ⟨by decide, by decide, [0x41, 0x01, 0x00], ⟨[0x41, 0x01, 0x00], [], rfl, ⟨by decide, by decide, [0x00], rfl, by decide, by decide⟩, rfl⟩, rfl⟩,
      by decide, ⟨by decide, by decide, by decide +kernel⟩, by decide⟩⟩

theorem witness_DecodeOfEncodeIsTheInput :
    ∃ (s t : State) (x c : List Byte), s.busy .enc = false ∧ s.busy .dec = false ∧ x.length ≤ s.params.encInCap.toNat ∧
      x.length ≤ s.params.decOutCap.toNat ∧ exec (.encodeBytes x) s = .next t ∧ t.result = .success c ∧
      c.length ≤ s.params.decInCap.toNat := by
  obtain ⟨t, t1, -, -, -, -, -, -, -, -, t9⟩ := encodeBytes_spec decFaulted abra (by decide) (by decide)
  refine ⟨decFaulted, t, abra, abraContainer, by decide, by decide, by decide, by decide, t1, ?_, by decide⟩
  rw [t9]
  decide +kernel

theorem witness_EncodeIsDeterministic :
    ∃ (s s' : State), s.busy .enc = false ∧ s'.busy .enc = false ∧ s'.params = s.params ∧ abra.length ≤ s.params.encInCap.toNat ∧
      s.enc ≠ s'.enc :=
  ⟨State.reset, encFaulted, by decide, by decide, rfl, by decide, by decide⟩

theorem witness_DecodeIsDeterministic :
    ∃ (s s' : State), s.busy .dec = false ∧ s'.busy .dec = false ∧ s'.params = s.params ∧
      abraContainer.length ≤ s.params.decInCap.toNat ∧ s.dec ≠ s'.dec :=
  ⟨State.reset, decFaulted, by decide, by decide, rfl, by decide, by decide⟩

theorem witness_PseudoOperationsAreTheirExpansions :
    (∃ (s : State) (rest : List Event), s.busy .enc = false ∧ abra.length ≤ s.params.encInCap.toNat ∧
      s.agenda = encodeExpansion abra ++ rest) ∧
    (∃ (s : State) (rest : List Event), s.busy .dec = false ∧ abraContainer.length ≤ s.params.decInCap.toNat ∧
      s.agenda = decodeExpansion abraContainer ++ rest) :=
  ⟨⟨moves (encodeExpansion abra ++ [.reset]), [.reset], by decide, by decide, rfl⟩,
    ⟨moves (decodeExpansion abraContainer ++ []), [], by decide, by decide, rfl⟩⟩

theorem witness_FaultIsLeftOnlyByCommandOrReset :
    (encFaulted.block .enc).state = .fault ∧ encFaulted.enc.inLen ≤ encFaulted.params.encInCap ∧
      (decFaulted.block .dec).state = .fault ∧ decFaulted.dec.inLen ≤ decFaulted.params.decInCap ∧
      ∃ t, perform (.regWrite .enc 2 5) encFaulted = .next t :=
  ⟨by decide, by decide, by decide, by decide, _, rfl⟩

end Sys2Proof.Tests
end

/-! The invariant at reset and along every step, and the end of every accepted command (00_scope.md R8, R17). -/

namespace Sys2Proof.Machine

/-! The invariant. -/

/-- A block after reset is coherent, whatever the unit and its capacities (R43). -/
theorem Block.reset_coherent (u : UnitId) (inCap outCap : Word) : Block.reset.Coherent u inCap outCap where
  inWf := List.Pairwise.nil
  inRange := nofun
  outWf := List.Pairwise.nil
  idle := fun _ => ⟨rfl, rfl, rfl, rfl, rfl⟩
  busy := nofun
  done := nofun
  fault := nofun

/-- Settles O45: both blocks are `Block.reset`, no unit is `BUSY`, and the BitWriter holds the empty bit string. -/
theorem invariantHoldsAtReset : Obligations.InvariantHoldsAtReset where
  params := by decide
  enc := Block.reset_coherent ..
  dec := Block.reset_coherent ..
  encPhase := nofun
  decPhase := nofun
  writer := ⟨[], BitWriter.empty_holds⟩

/-- The invariant does not look at the moves to come. -/
theorem State.Inv.withAgenda {s : State} (h : s.Inv) (a : List Event) : (s.withAgenda a).Inv := h.of_eq rfl rfl rfl rfl rfl

/-- Under the invariant a step has a next state, which satisfies the invariant: the move taken off the agenda does (`perform_inv`),
and so does the free step (`freeStep_inv`). -/
theorem step_inv {s : State} (h : s.Inv) : ∃ t, step s = .next t ∧ t.Inv := by
  unfold step
  split
  case h_1 => exact freeStep_inv h
  case h_2 e rest _ => exact perform_inv (h.withAgenda rest) e

/-- Settles O46: the next state is the one of `step_inv`. -/
theorem stepKeepsTheInvariant : Obligations.StepKeepsTheInvariant := by
  intro s t h hst
  obtain ⟨t', hst', ht'⟩ := step_inv h
  cases hst'.symm.trans hst
  exact ht'

/-! The end of a command. -/

/-- The command of unit `u` has ended, or `n` more phases exceed the unit's last one: each step of a `BUSY` unit leads to a later
phase (`Advanced`), so `n` steps end it. -/
def EndsWithin (u : UnitId) (n : Nat) (s : State) : Prop :=
  (s.block u).state = .done ∨ (s.block u).state = .fault ∨
    ((s.block u).state = .busy ∧ maxPhases u < (s.block u).phase.toNat + n)

theorem endsWithin_maxPhases {s : State} (h : s.Inv) {u : UnitId} (hb : s.busy u = true) : EndsWithin u (maxPhases u) s := by
  have hbusy : (s.block u).state = .busy := of_decide_eq_true hb
  obtain ⟨⟨hfirst, -⟩, -⟩ := (h.block u).busy hbusy
  exact Or.inr (Or.inr ⟨hbusy, by omega⟩)

theorem done_or_fault_of_endsWithin_zero {s : State} (h : s.Inv) {u : UnitId} (he : EndsWithin u 0 s) :
    (s.block u).state = .done ∨ (s.block u).state = .fault := by
  rcases he with hd | hf | ⟨hb, hlt⟩
  · exact Or.inl hd
  · exact Or.inr hf
  · obtain ⟨⟨-, hlast⟩, -⟩ := (h.block u).busy hb
    omega

theorem Advanced.endsWithin {u : UnitId} {s t : State} (ha : Advanced u s t) {n : Nat}
    (hlt : maxPhases u < (s.block u).phase.toNat + (n + 1)) : EndsWithin u n t :=
  ha.imp_right (Or.imp_right fun ⟨hb, hp⟩ => ⟨hb, by omega⟩)

/-- A step of a `BUSY` unit is its phase (R211). -/
theorem unitStep_of_busy {u : UnitId} {s : State} (hb : s.busy u = true) : unitStep u s = unitPhase u s := by
  rw [unitStep, if_pos hb, runFetched_phase]

/-- A unit that is not `BUSY` has no step (R211). -/
theorem unitStep_of_not_busy {u : UnitId} {s : State} (hb : s.busy u = false) : unitStep u s = .next s := by
  simp [unitStep, hb]

/-- One step of the unit takes one off what its command still needs; a unit that has ended stays as it is. -/
theorem unitStep_endsWithin {s : State} (h : s.Inv) {u : UnitId} {n : Nat} (he : EndsWithin u (n + 1) s) :
    ∃ t, unitStep u s = .next t ∧ t.Inv ∧ t.agenda = s.agenda ∧ EndsWithin u n t := by
  rcases he with hd | hf | ⟨hb, hlt⟩
  · exact ⟨s, unitStep_of_not_busy (by simp [State.busy, hd]), h, rfl, Or.inl hd⟩
  · exact ⟨s, unitStep_of_not_busy (by simp [State.busy, hf]), h, rfl, Or.inr (Or.inl hf)⟩
  · have hbusy : s.busy u = true := decide_eq_true hb
    obtain ⟨t, ht, hkept, hinv⟩ := goesOn_phase h u hbusy
    exact ⟨t, (unitStep_of_busy hbusy).trans ht, hinv, hkept.agenda, (unitPhase_advances h u hbusy ht).endsWithin hlt⟩

/-- With a step of `u` as the next move, a step of the hardware is that step of `u`. -/
theorem step_of_agenda_unitStep {s : State} {u : UnitId} {rest : List Event} (ha : s.agenda = .unitStep u :: rest) :
    step s = unitStep u (s.withAgenda rest) := by
  unfold step
  rw [ha]
  rfl

/-- A command that ends within `n` phases has ended after `n` steps of its unit in a row. -/
theorem run_unitSteps {u : UnitId} {rest : List Event} (n : Nat) {s : State} (h : s.Inv)
    (ha : s.agenda = List.replicate n (.unitStep u) ++ rest) (he : EndsWithin u n s) :
    ∃ t : State, Sys2Proof.core.run n s = .next t ∧ t.agenda = rest ∧
      ((t.block u).state = .done ∨ (t.block u).state = .fault) := by
  induction n generalizing s with
  | zero => exact ⟨s, core_run_zero s, ha, done_or_fault_of_endsWithin_zero h he⟩
  | succ n ih =>
    rw [List.replicate_succ, List.cons_append] at ha
    have hends : EndsWithin u (n + 1) (s.withAgenda (List.replicate n (.unitStep u) ++ rest)) := by
      rwa [EndsWithin, State.withAgenda_block]
    obtain ⟨t, ht, htinv, htagenda, htends⟩ := unitStep_endsWithin (h.withAgenda _) hends
    rw [core_run_succ n ((step_of_agenda_unitStep ha).trans ht)]
    exact ih htinv htagenda htends

/-- Settles O48: a `BUSY` unit's phase is at least 1 and every step of it raises the phase, which the invariant bounds by
`maxPhases`. -/
theorem commandEndsWithinItsPhases : Obligations.CommandEndsWithinItsPhases :=
  fun _ _ _ h hb ha => run_unitSteps _ h ha (endsWithin_maxPhases h hb)

end Sys2Proof.Machine

/-! The registers after reset, and the units' independence of each other (10_state.md R20, R42, R43). -/

namespace Sys2Proof.Machine

/-! After reset. -/

theorem State.reset_block (u : UnitId) : State.reset.block u = Block.reset := by cases u <;> rfl

/-- A unit whose block is the one of reset is not `BUSY`, and its diagnostic registers are defined: every register but the
capacities reads 0 (R43, R201). -/
theorem State.regValue_of_block_reset {s : State} {u : UnitId} (h : s.block u = Block.reset) {r : BitVec 4} (hr : r.toNat < 8) :
    s.regValue u r = 0 := by
  have hbusy : s.busy u = false := by simp [State.busy, h, Block.reset]
  have hdiag : s.visibleDiag u = Diag.zero := by simp [State.visibleDiag, h, Block.reset, Block.diagDefined]
  unfold State.regValue
  generalize r.toNat = n at hr
  interval_cases n <;> simp [hbusy, hdiag, h, Block.reset, Diag.zero, Block.statusWord, UnitState.toCode, Failure.toCode]

/-- Settles O14: each block is `Block.reset`, whose buffers list no byte. -/
theorem resetStateValues : Obligations.ResetStateValues := by
  intro u
  rw [State.reset_block]
  exact ⟨fun _ hr => State.regValue_of_block_reset (State.reset_block u) hr, rfl, rfl, rfl, fun _ => rfl, fun _ => rfl⟩

/-! `decode(c)` on two states (R42). -/

/-- Two blocks that end a `DECODE` with one outcome show a host the same; `NSYM`, `SYMCNT` and `BITCNT` only in `DONE`, since a
fault leaves them unspecified (R233). -/
theorem DecEnds.agree {o : Except (BitVec 4 × Failure) (Memory × Word × Diag)} {b b' : Block} (h : DecEnds o b)
    (h' : DecEnds o b') :
    b'.state = b.state ∧ b'.phase = b.phase ∧ b'.err = b.err ∧ b'.outLen = b.outLen ∧ b'.outBuf = b.outBuf ∧
      (b.state = .done → b'.diag = b.diag) := by
  cases o with
  | error f =>
    obtain ⟨hstate, hphase, herr, hlen, hout⟩ := h
    obtain ⟨hstate', hphase', herr', hlen', hout'⟩ := h'
    refine ⟨hstate'.trans hstate.symm, hphase'.trans hphase.symm, herr'.trans herr.symm, hlen'.trans hlen.symm,
      hout'.trans hout.symm, fun hd => ?_⟩
    cases hstate.symm.trans hd
  | ok r =>
    obtain ⟨hstate, hphase, herr, hlen, hdiag, hout⟩ := h
    obtain ⟨hstate', hphase', herr', hlen', hdiag', hout'⟩ := h'
    exact ⟨hstate'.trans hstate.symm, hphase'.trans hphase.symm, herr'.trans herr.symm, hlen'.trans hlen.symm,
      hout'.trans hout.symm, fun _ => hdiag'.trans hdiag.symm⟩

/-- Settles O55: both runs end with `decodeOutcome` of the parameters and `c` (`decodeBytes_spec`), which looks at neither state. -/
theorem decodeIsDeterministic : Obligations.DecodeIsDeterministic := by
  intro s s' c hb hb' hp hc
  obtain ⟨t, ht, -, -, -, -, -, -, -, hends, hres⟩ := decodeBytes_spec s c hb hc
  obtain ⟨t', ht', -, -, -, -, -, -, -, hends', hres'⟩ := decodeBytes_spec s' c hb' (by rwa [hp])
  rw [hp] at hends' hres'
  obtain ⟨hstate, hphase, herr, hlen, hout, hdiag⟩ := hends.agree hends'
  exact ⟨t, t', ht, ht', hres'.trans hres.symm, hstate, hphase, herr, hlen, fun a => by rw [hout], hdiag⟩

/-! What an operation of a unit sees (R20). -/

/-- On a state that has unit `u`, the parameters and the count of draws from `s` and all else from `o`, the operation completes if
and only if it does on `s`, with the unit that it leaves there; what else the next state holds is the operation's own (`g`). -/
def SeesOnlyUnit (u : UnitId) (op : State → Host.Outcome State Fault Refusal) : Prop :=
  ∀ s o : State, ∃ g : State → State, op (State.graft u s o) = mapNext (fun t => State.graft u t (g t)) (op s)

theorem execPqExtractMin_graft (s o : State) :
    execPqExtractMin (State.graft .enc s o) =
      mapNext (fun t => State.graft .enc t { o with ret := t.ret }) (execPqExtractMin s) := by
  have hw : (State.graft .enc s o).encWork = s.encWork := rfl
  unfold execPqExtractMin
  rw [hw]
  cases s.encWork.pqExtractMin with
  | none => rfl
  | some p => rfl

/-- Every phase operation and primitive sees only its unit. What it leaves of the rest is as in `o`, but for the value that
`PQ.EXTRACTMIN` and `BR.GETBIT` hand over. -/
theorem exec_seesOnlyUnit {i : Instr} {u : UnitId} (hu : opUnit i = some u) : SeesOnlyUnit u (exec i) := by
  intro s o
  cases i <;> cases hu
  case ftCount => exact ⟨fun _ => o, execFtCount_graft s o⟩
  case tbBuild => exact ⟨fun _ => o, execTbBuild_graft s o⟩
  case caAssign => exact ⟨fun _ => o, execCaAssign_graft s o⟩
  case bwPack => exact ⟨fun _ => o, execBwPack_graft s o⟩
  case encSerialize => exact ⟨fun _ => o, execEncSerialize_graft s o⟩
  case decParse => exact ⟨fun _ => o, execDecParse_graft s o⟩
  case trRebuild => exact ⟨fun _ => o, execTrRebuild_graft s o⟩
  case twWalk => exact ⟨fun _ => o, execTwWalk_graft s o⟩
  case pqInsert => exact ⟨fun _ => o, rfl⟩
  case pqExtractMin => exact ⟨fun t => { o with ret := t.ret }, execPqExtractMin_graft s o⟩
  case bwPutBit => exact ⟨fun _ => o, rfl⟩
  case bwPutCode => exact ⟨fun _ => o, rfl⟩
  case brGetBit => exact ⟨fun t => { o with ret := t.ret }, rfl⟩
  case trInsert sym bs => exact ⟨fun _ => o, execTrInsert_graft sym bs s o⟩

/-- A state that agrees with `s` on unit `u`, the parameters and the count of draws is `s`'s part grafted onto itself. -/
theorem State.eq_graft_of_sameUnit {u : UnitId} {s s' : State} (hu : SameUnit u s s') (hp : s'.params = s.params)
    (ht : s'.tick = s.tick) : s' = State.graft u s s' := by
  cases u <;>
  · obtain ⟨hblock, hwork⟩ := hu
    rw [State.graft, ← hp, ← ht, ← hblock, ← hwork]

theorem sameUnit_graft (u : UnitId) (s o : State) : SameUnit u s (State.graft u s o) := by cases u <;> exact ⟨rfl, rfl⟩

/-- Settles O50: the second state is a graft of the first one's unit, and the operation sees only that unit. -/
theorem unitsDoNotInfluenceEachOther : Obligations.UnitsDoNotInfluenceEachOther := by
  intro i u s s' t hi hu hp htick ht
  obtain ⟨g, hg⟩ := exec_seesOnlyUnit hi s s'
  rw [← State.eq_graft_of_sameUnit hu hp htick, ht] at hg
  exact ⟨_, hg, sameUnit_graft u t (g t)⟩

/-! What an operation of a unit touches (R20, R70, R164). -/

/-- The operation that leads from `s` to `t` keeps what no operation of `u` changes, hands over no value, and keeps `OUT` unless it
faults. -/
structure KeptWithOut (u : UnitId) (s t : State) : Prop where
  kept : Kept u s t
  out  : (t.block u).state ≠ .fault → (t.block u).outBuf = (s.block u).outBuf

theorem keptWithOut_raise (s : State) (u : UnitId) (e : Failure) : KeptWithOut u s (s.raise u e) :=
  ⟨s.raise_kept u e, fun h => absurd (s.raise_faulted u e).state h⟩

theorem execFtCount_keptWithOut {s t : State} (h : execFtCount s = .next t) : KeptWithOut .enc s t := by
  cases hc : countBytes s.params.cntW s.encWork.freq (s.input .enc) with
  | none =>
    rw [execFtCount, hc] at h
    cases h
    exact keptWithOut_raise s .enc .overflow
  | some f =>
    obtain ⟨t', ht', hkept, hblock, -⟩ := execFtCount_some hc
    cases ht'.symm.trans h
    exact ⟨hkept, fun _ => (congrArg Block.outBuf hblock :)⟩

theorem execTbBuild_keptWithOut {s t : State} (h : execTbBuild s = .next t) : KeptWithOut .enc s t := by
  by_cases hn : s.enc.diag.nsym = 0
  · rw [execTbBuild, if_pos hn] at h
    cases h
    exact keptWithOut_raise s .enc .emptyInput
  · obtain ⟨t', r, ht', hkept, hblock, -⟩ := execTbBuild_next hn
    cases ht'.symm.trans h
    exact ⟨hkept, fun _ => (congrArg Block.outBuf hblock :)⟩

theorem execCaAssign_keptWithOut {s t : State} (h : execCaAssign s = .next t) : KeptWithOut .enc s t := by
  cases hc : assignCodes s.encWork.node s.encWork.root s.encWork.code with
  | ok c =>
    obtain ⟨t', ht', hkept, hblock, -⟩ := execCaAssign_ok hc
    cases ht'.symm.trans h
    exact ⟨hkept, fun _ => (congrArg Block.outBuf hblock :)⟩
  | error e =>
    rw [execCaAssign, hc] at h
    cases e with
    | malformed =>
      cases h
      exact keptWithOut_raise s .enc .malformedTree
    | endless => cases h

theorem execBwPack_keptWithOut {s t : State} (h : execBwPack s = .next t) : KeptWithOut .enc s t := by
  obtain ⟨t', ht', hkept, hblock, -⟩ := execBwPack_next s
  cases ht'.symm.trans h
  exact ⟨hkept, fun _ => (congrArg Block.outBuf hblock :)⟩

theorem execEncSerialize_kept {s t : State} (h : execEncSerialize s = .next t) : Kept .enc s t := by
  by_cases hc : s.params.encOutCap.toNat < s.container.length
  · cases (execEncSerialize_tooLong hc).symm.trans h
    exact s.raise_kept .enc .bufferBound
  · obtain ⟨t', ht', hkept, -⟩ := execEncSerialize_fits (Nat.le_of_not_lt hc)
    cases ht'.symm.trans h
    exact hkept

theorem execDecParse_keptWithOut {s t : State} (h : execDecParse s = .next t) : KeptWithOut .dec s t := by
  cases hp : parseHeader (s.inByte .dec) s.dec.inLen.toNat with
  | none =>
    rw [execDecParse, hp] at h
    cases h
    exact keptWithOut_raise s .dec .corruptData
  | some hd =>
    by_cases hn : hd.n = 0
    · obtain ⟨t', ht', hkept, hblock, -⟩ := execDecParse_zero hp hn
      cases ht'.symm.trans h
      exact ⟨hkept, fun _ => (congrArg Block.outBuf hblock :)⟩
    · obtain ⟨t', ht', hkept, hblock, -⟩ := execDecParse_some hp hn
      cases ht'.symm.trans h
      exact ⟨hkept, fun _ => (congrArg Block.outBuf hblock :)⟩

theorem execTrRebuild_keptWithOut {s t : State} (h : execTrRebuild s = .next t) : KeptWithOut .dec s t := by
  cases hr : s.decWork.rebuild with
  | none =>
    rw [execTrRebuild, hr] at h
    cases h
    exact keptWithOut_raise s .dec .corruptData
  | some p =>
    obtain ⟨t', ht', hkept, hblock, -⟩ := execTrRebuild_some hr
    cases ht'.symm.trans h
    exact ⟨hkept, fun _ => (congrArg Block.outBuf hblock :)⟩

theorem execTwWalk_kept {s t : State} (h : execTwWalk s = .next t) : Kept .dec s t := by
  by_cases hc : s.params.decOutCap < s.decWork.n
  · rw [execTwWalk, if_pos hc] at h
    cases h
    exact s.raise_kept .dec .bufferBound
  · cases hw : s.walk with
    | error e =>
      rw [execTwWalk, if_neg hc, hw] at h
      cases h
      exact s.raise_kept .dec e
    | ok w =>
      obtain ⟨t', ht', hkept, -⟩ := execTwWalk_ok (BitVec.not_lt.1 hc) hw
      cases ht'.symm.trans h
      exact hkept

theorem execTrInsert_keptWithOut {sym : Byte} {bs : Bits} {s t : State} (h : execTrInsert sym bs s = .next t) :
    KeptWithOut .dec s t := by
  unfold execTrInsert at h
  split at h <;> cases h
  · exact keptWithOut_raise s .dec .corruptData
  · exact ⟨kept_dec_of rfl rfl rfl rfl rfl rfl rfl rfl rfl, fun _ => rfl⟩

theorem execPqExtractMin_keptWithOut {s t : State} (h : execPqExtractMin s = .next t) :
    KeptWithOut .enc s { t with ret := s.ret } := by
  unfold execPqExtractMin at h
  split at h <;> cases h <;> exact ⟨kept_enc_of rfl rfl rfl rfl rfl rfl rfl rfl rfl, fun _ => rfl⟩

theorem execPqInsert_keptWithOut {i : Nat} {s t : State} (h : execPqInsert i s = .next t) : KeptWithOut .enc s t := by
  cases h
  exact ⟨kept_enc_of rfl rfl rfl rfl rfl rfl rfl rfl rfl, fun _ => rfl⟩

theorem execBrGetBit_keptWithOut {s t : State} (h : execBrGetBit s = .next t) : KeptWithOut .dec s { t with ret := s.ret } := by
  cases h
  exact ⟨kept_dec_of rfl rfl rfl rfl rfl rfl rfl rfl rfl, fun _ => rfl⟩

theorem keptWithOut_withBitWriter (s : State) (w : BitWriter) : KeptWithOut .enc s (s.withBitWriter w) :=
  ⟨kept_enc_of rfl rfl rfl rfl rfl rfl rfl rfl rfl, fun _ => rfl⟩

/-- What R20, R70 and R164 say of an operation `i` of unit `u` that leads from `s` to `t`. -/
def TouchesOnlyUnit (i : Instr) (u : UnitId) (s t : State) : Prop :=
  Kept u s { t with ret := s.ret } ∧
    (i ≠ .pqExtractMin → i ≠ .brGetBit → t.ret = s.ret) ∧
    (i ≠ .encSerialize → i ≠ .twWalk → (s.block u).state ≠ .fault → (t.block u).state ≠ .fault →
      ∀ a, (t.block u).outBuf.read a = (s.block u).outBuf.read a)

theorem Kept.withRet {u : UnitId} {s t : State} (h : Kept u s t) : Kept u s { t with ret := s.ret } := by
  have ht : { t with ret := s.ret } = t := by rw [← h.ret]
  rwa [ht]

theorem KeptWithOut.touchesOnlyUnit {u : UnitId} {s t : State} (h : KeptWithOut u s t) (i : Instr) : TouchesOnlyUnit i u s t :=
  ⟨h.kept.withRet, fun _ _ => h.kept.ret, fun _ _ _ hf a => by rw [h.out hf]⟩

/-- The same where the operation hands over a value. -/
theorem KeptWithOut.touchesOnlyUnit_ret {u : UnitId} {s t : State} (h : KeptWithOut u s { t with ret := s.ret }) {i : Instr}
    (hi : i = .pqExtractMin ∨ i = .brGetBit) : TouchesOnlyUnit i u s t := by
  have hblock : State.block { t with ret := s.ret } u = t.block u := by cases u <;> rfl
  obtain ⟨hkept, hout⟩ := h
  rw [hblock] at hout
  exact ⟨hkept, fun h1 h2 => absurd hi (not_or.2 ⟨h1, h2⟩), fun _ _ _ hf a => by rw [hout hf]⟩

/-- The same where the operation writes `OUT`. -/
theorem Kept.touchesOnlyUnit {u : UnitId} {s t : State} (h : Kept u s t) {i : Instr} (hi : i = .encSerialize ∨ i = .twWalk) :
    TouchesOnlyUnit i u s t :=
  ⟨h.withRet, fun _ _ => h.ret, fun h1 h2 => absurd hi (not_or.2 ⟨h1, h2⟩)⟩

/-- Settles O49: operation by operation; a fault leaves alone what no operation changes (`State.raise_kept`). -/
theorem operationsTouchOnlyTheirUnit : Obligations.OperationsTouchOnlyTheirUnit := by
  intro i u s t hu h
  change TouchesOnlyUnit i u s t
  cases i <;> cases hu
  case ftCount => exact (execFtCount_keptWithOut h).touchesOnlyUnit _
  case tbBuild => exact (execTbBuild_keptWithOut h).touchesOnlyUnit _
  case caAssign => exact (execCaAssign_keptWithOut h).touchesOnlyUnit _
  case bwPack => exact (execBwPack_keptWithOut h).touchesOnlyUnit _
  case encSerialize => exact (execEncSerialize_kept h).touchesOnlyUnit (.inl rfl)
  case decParse => exact (execDecParse_keptWithOut h).touchesOnlyUnit _
  case trRebuild => exact (execTrRebuild_keptWithOut h).touchesOnlyUnit _
  case twWalk => exact (execTwWalk_kept h).touchesOnlyUnit (.inr rfl)
  case trInsert => exact (execTrInsert_keptWithOut h).touchesOnlyUnit _
  case pqExtractMin => exact (execPqExtractMin_keptWithOut h).touchesOnlyUnit_ret (.inl rfl)
  case brGetBit => exact (execBrGetBit_keptWithOut h).touchesOnlyUnit_ret (.inr rfl)
  case pqInsert => exact (execPqInsert_keptWithOut h).touchesOnlyUnit _
  case bwPutBit | bwPutCode =>
    cases h
    exact (keptWithOut_withBitWriter s _).touchesOnlyUnit _

end Sys2Proof.Machine

/-! The encodings: command words, phase codes, the `STATUS` word, table words and the container (30_encoding.md). -/

namespace Sys2Proof
open Machine

/-! Phase codes (R85). -/

/-- What a code says that names a phase of `u`: it runs from 1 to the unit's last phase, and it is the `PHASE` code of the phase's
encoding. -/
theorem decodePhase_inv {u : UnitId} {code : BitVec 4} {i : Instr} (h : decodePhase u code = .ok i) :
    (1 ≤ code.toNat ∧ code.toNat ≤ maxPhases u) ∧ encode i = some (.phase u (BitVec.ofNat 32 (16 * code.toNat))) := by
  cases u
  all_goals
    simp only [decodePhase] at h
    split_ifs at h
    all_goals
      subst code
      cases h
      exact ⟨by decide, rfl⟩

/-- A word that is a phase code in bits 7:4 and 0 elsewhere has that code as its `PHASE` field. -/
theorem statusPhase_ofNat (code : BitVec 4) : statusPhase (BitVec.ofNat 32 (16 * code.toNat)) = code := by
  have hlt := code.isLt
  apply BitVec.eq_of_toNat_eq
  rw [statusPhase_toNat, BitVec.toNat_ofNat]
  omega

/-- A `STATUS` word decodes by its bits 7:4 alone. -/
theorem decode_phase_of_code {w : Word} {n : Nat} (hn : n < 16) (h : w.toNat / 16 % 16 = n) (u : UnitId) :
    decode (.phase u w) = decodePhase u (BitVec.ofNat 4 n) := by
  rw [decode, statusPhase_eq w n hn h]

/-- A `STATUS` word whose bits 7:4 are 0 or beyond the unit's last phase decodes to no instruction. -/
theorem decode_phase_ne_ok {u : UnitId} {w : Word} (h : w.toNat / 16 % 16 = 0 ∨ maxPhases u < w.toNat / 16 % 16) (i : Instr) :
    decode (.phase u w) ≠ .ok i := by
  intro hd
  obtain ⟨hrange, -⟩ := decodePhase_inv hd
  rw [statusPhase_toNat] at hrange
  omega

theorem maxPhases_le (u : UnitId) : maxPhases u ≤ 5 := by cases u <;> decide

/-- Settles O3: the codes of phases are decoded one by one, the others are out of the range of `decodePhase_inv`. -/
theorem phaseCodesNameTheirPhases : Obligations.PhaseCodesNameTheirPhases := by
  intro w
  refine ⟨fun h => ?_, fun h => ?_, fun h => ?_, fun h => ?_, fun h => ?_, fun h u => ?_⟩
  case refine_1 | refine_2 | refine_3 => exact ⟨decode_phase_of_code (by decide) h _, decode_phase_of_code (by decide) h _⟩
  case refine_4 | refine_5 =>
    have hdec : maxPhases .dec < w.toNat / 16 % 16 := by rw [h]; decide
    exact ⟨decode_phase_of_code (by decide) h _, decode_phase_ne_ok (.inr hdec)⟩
  case refine_6 =>
    have hmax := maxPhases_le u
    exact decode_phase_ne_ok (h.imp_right fun h6 => by omega)

/-! Command words (R80 to R82). -/

/-- Decoding what a well-formed instruction is encoded to gives it back, constructor by constructor. -/
theorem decode_encode (i : Instr) : Laws.EncodingRoundTrip.Statement i := by
  cases i with
  | nop u => exact Laws.EncodingRoundTrip.nop u
  | encode => exact Laws.EncodingRoundTrip.encode
  | decode => exact Laws.EncodingRoundTrip.decode
  | clear u => exact Laws.EncodingRoundTrip.clear u
  | illegal u w => exact Laws.EncodingRoundTrip.illegal u w
  | ftCount => exact Laws.EncodingRoundTrip.ftCount
  | tbBuild => exact Laws.EncodingRoundTrip.tbBuild
  | caAssign => exact Laws.EncodingRoundTrip.caAssign
  | bwPack => exact Laws.EncodingRoundTrip.bwPack
  | encSerialize => exact Laws.EncodingRoundTrip.encSerialize
  | decParse => exact Laws.EncodingRoundTrip.decParse
  | trRebuild => exact Laws.EncodingRoundTrip.trRebuild
  | twWalk => exact Laws.EncodingRoundTrip.twWalk
  | pqInsert j => exact Laws.EncodingRoundTrip.pqInsert j
  | pqExtractMin => exact Laws.EncodingRoundTrip.pqExtractMin
  | bwPutBit b => exact Laws.EncodingRoundTrip.bwPutBit b
  | bwPutCode bs => exact Laws.EncodingRoundTrip.bwPutCode bs
  | brGetBit => exact Laws.EncodingRoundTrip.brGetBit
  | trInsert sym bs => exact Laws.EncodingRoundTrip.trInsert sym bs
  | encodeBytes x => exact Laws.EncodingRoundTrip.encodeBytes x
  | decodeBytes c => exact Laws.EncodingRoundTrip.decodeBytes c

/-- Settles O1: `decode_encode` for instructions, `encode_decodeCommand` for command words, and for `STATUS` words the code that a
decoded phase is encoded with (`decodePhase_inv`). -/
theorem encodeDecodeRoundTrip : Obligations.EncodeDecodeRoundTrip :=
  ⟨fun p i f => decode_encode i p f, encode_decodeCommand, fun _ _ _ h => ⟨_, (decodePhase_inv h).2, statusPhase_ofNat _⟩⟩

/-- A word that is none of the unit's three is not legal there (R81, R82). -/
theorem legalCommand_eq_false {u : UnitId} {w : Word} (h0 : w.toNat ≠ 0) (h3 : w.toNat ≠ 3) (henc : u = .enc → w.toNat ≠ 1)
    (hdec : u = .dec → w.toNat ≠ 2) : legalCommand u w = false := by
  cases u with
  | enc =>
    have h1 := henc rfl
    simp only [legalCommand, ← BitVec.toNat_inj]
    simp [h0, h1, h3]
  | dec =>
    have h2 := hdec rfl
    simp only [legalCommand, ← BitVec.toNat_inj]
    simp [h0, h2, h3]

/-- Settles O2: each command is well formed and encoded to its word, an illegal one to the word it carries; `decode_encode` gives it
back. -/
theorem commandWordsNameTheirCommands : Obligations.CommandWordsNameTheirCommands := by
  refine ⟨fun u => ?_, ?_, ?_, fun u => ?_, fun u w h0 h3 henc hdec => ?_⟩
  · exact decode_encode (.nop u) Config.defaults _ rfl rfl
  · exact decode_encode .encode Config.defaults _ rfl rfl
  · exact decode_encode .decode Config.defaults _ rfl rfl
  · exact decode_encode (.clear u) Config.defaults _ rfl rfl
  · have hwf : wellFormed Config.defaults (.illegal u w) = true := by
      rw [wellFormed, legalCommand_eq_false h0 h3 henc hdec, Bool.not_false]
    exact decode_encode (.illegal u w) Config.defaults _ hwf rfl

/-- Settles O4: the fourteen words of the table, decoded. -/
theorem tableWordsDecode : Obligations.TableWordsDecode := by
  unfold Obligations.TableWordsDecode
  decide

end Sys2Proof

namespace Sys2Proof.Machine

/-! The `STATUS` word (R83). -/

/-- A field of the `STATUS` word, from the word's value as an integer. -/
theorem Block.extract_statusWord {b : Block} {lo n : Nat} {x : BitVec n}
    (h : (b.state.toCode + 16 * b.phase.toNat + 256 * b.err.toCode + 4096 * b.ill.toNat) / 2 ^ lo % 2 ^ n = x.toNat) :
    b.statusWord.extractLsb' lo n = x :=
  BitVec.eq_of_toNat_eq (by rw [extract_toNat, b.statusWord_toNat, h])

/-- Settles O5: each part of the sum is below the weight of the next one, so dividing it cuts out the field. -/
theorem statusWordLayout : Obligations.StatusWordLayout := by
  refine ⟨by decide, by decide, fun s u => ?_⟩
  have hword : s.regValue u 1 = (s.block u).statusWord := rfl
  rw [hword]
  generalize s.block u = b
  have hstate := b.state.toCode_lt
  have hphase := b.phase.isLt
  have herr := b.err.toCode_lt
  have hill := Bool.toNat_le b.ill
  refine ⟨Block.extract_statusWord ?_, Block.extract_statusWord ?_, Block.extract_statusWord ?_, Block.extract_statusWord ?_,
    Block.extract_statusWord ?_, Block.extract_statusWord ?_, b.statusWord_toNat⟩
  all_goals (simp; omega)

/-! Words of the opcode table (log 20). -/

theorem decode_of_decodeTableWord {nbits w : Nat} {i : Instr} (h : decodeTableWord nbits w = some i) :
    decode (tableFetch nbits w) = .ok i := by
  unfold decodeTableWord at h
  split at h
  case h_1 j hj => cases h; exact hj
  case h_2 => cases h

/-- Running a fetch that decodes is running its instruction. -/
theorem runFetched_of_decode {f : Fetch} {i : Instr} (h : decode f = .ok i) (s : State) : runFetched f s = exec i s := by
  rw [runFetched, h]

/-- Settles O7: a command word is the host's next write, taken off an agenda that is then the one of `s`; a phase word is decoded from
the `PHASE` of `ENC`, which is `BUSY`. -/
theorem fetchWordRunsItsInstruction : Obligations.FetchWordRunsItsInstruction := by
  intro s nbits w i h
  have hd := decode_of_decodeTableWord h
  unfold State.withFetchWord
  unfold tableFetch at hd ⊢
  split_ifs at hd ⊢
  case pos =>
    refine ⟨s.withBlock .enc { s.enc with state := .busy, phase := statusPhase (BitVec.ofNat 32 (w % 256)) }, ?_,
      rfl, rfl, rfl, rfl, rfl, rfl⟩
    apply runFetched_of_decode
    rwa [decode, statusPhase_statusWord]
  case neg => exact ⟨s, runFetched_of_decode hd s, rfl, rfl, rfl, rfl, rfl, rfl⟩

/-! The container (R87 to R93). -/

/-- The length of a symbol's entry: `SYM`, `LEN` and the bytes of the code (R89, R90). -/
theorem entryBytes_length {code : Table Bits} {i : Nat} (h : (code.bits i).length ≤ 255) :
    (entryBytes code i).length = if 0 < (code.bits i).length then 2 + ceil8 (code.bits i).length else 0 := by
  unfold entryBytes
  split_ifs
  · rw [List.length_cons, List.length_cons, packbits_length _ (by omega)]
    omega
  · rfl

/-- The length of a container, symbol by symbol (R93). -/
theorem containerBytes_length {code : Table Bits} (h : ∀ i, (code.bits i).length ≤ 255) (nsym symcnt : Nat) (pay : List Byte) :
    (containerBytes nsym symcnt code pay).length =
      2 + ((List.range 256).map (fun i => if 0 < (code.bits i).length then 2 + ceil8 (code.bits i).length else 0)).sum + 4 +
        pay.length := by
  rw [containerBytes, List.length_append, List.length_append, List.length_append, List.length_flatMap,
    List.map_congr_left fun i _ => entryBytes_length (h i)]
  simp only [bytes16, bytes32, List.length_cons, List.length_nil]
  omega

/-- Settles O35: `State.container` is the encoder's container of its code table (`container_of_encoder`, `codeEntries_sorted`,
`mem_codeEntries`), with the length of `containerBytes_length`. -/
theorem serializedTablesAreAContainer : Obligations.SerializedTablesAreAContainer := by
  rintro s code rfl h255 hnsym
  refine ⟨?_, codeEntries_sorted _, fun _ => mem_codeEntries, containerBytes_length h255 ..⟩
  rw [State.container, hnsym]
  exact container_of_encoder _ h255 _ s.enc.diag.symcnt.isLt _

end Sys2Proof.Machine

/-! The frequency table (41_frequency_table.md). -/

namespace Sys2Proof.Machine

theorem State.input_length (s : State) (u : UnitId) : (s.input u).length = (s.block u).inLen.toNat := memRead_length ..

/-! `FT.COUNT` (R110). -/

/-- `FT.COUNT` with a counter that would pass its largest value (R110). -/
theorem execFtCount_none {s : State} (h : countBytes s.params.cntW s.encWork.freq (s.input .enc) = none) :
    execFtCount s = .next (s.raise .enc .overflow) := by rw [execFtCount, h]

/-- The counting loop ends with a table when the new counts fit (R110). -/
theorem countBytes_fits {w : Nat} {f : Table Nat} {x : List Byte} (h : ∀ b, f.count b + occurrences x b ≤ 2 ^ w - 1) :
    ∃ g, countBytes w f x = some g := by
  have hf : ∀ b, f.count b ≤ 2 ^ w - 1 := fun b => (Nat.le_add_right ..).trans (h b)
  refine Option.ne_none_iff_exists'.1 fun hnone => ?_
  obtain ⟨b, hb⟩ := (countBytes_none hf).1 hnone
  exact (h b).not_gt hb

/-- Settles O22: counts that fit end the loop with a table (`countBytes_fits`), whose counters `countBytes_some` gives; a count
that would not fit ends it without one (`countBytes_none`). -/
theorem countCountsEachSymbol : Obligations.CountCountsEachSymbol := by
  intro s hcap
  refine ⟨fun hfit => ?_, fun hover => ?_⟩
  · obtain ⟨f, hf⟩ := countBytes_fits hfit
    obtain ⟨t, ht, hkept, hblock, hwork⟩ := execFtCount_some hf
    exact ⟨t, f, distinctSymbols f, ht, hkept, countBytes_some hf, rfl, hwork, hblock⟩
  · exact ⟨_, execFtCount_none ((countBytes_none hcap).2 hover), s.raise_faulted .enc .overflow⟩

/-! What the counters add up to, and which phases keep them (R111, R15). -/

/-- `FT.COUNT` that does not fault leaves each counter with its symbol's occurrences added. -/
theorem execFtCount_count {s t : State} (h : execFtCount s = .next t) (hf : t.enc.state ≠ .fault) (b : Nat) :
    t.encWork.freq.count b = s.encWork.freq.count b + occurrences (s.input .enc) b := by
  cases hc : countBytes s.params.cntW s.encWork.freq (s.input .enc) with
  | none =>
    cases (execFtCount_none hc).symm.trans h
    exact absurd (s.raise_faulted .enc .overflow).state hf
  | some f =>
    obtain ⟨t', ht', -, -, hwork⟩ := execFtCount_some hc
    cases ht'.symm.trans h
    rw [hwork]
    exact countBytes_some hc b

/-- The operation that leads from `s` to `t` keeps the counters unless it faults, which leaves them unspecified (R233). -/
def KeepsCounters (s t : State) : Prop := t.enc.state ≠ .fault → t.encWork.freq = s.encWork.freq

theorem keepsCounters_raise (s : State) (e : Failure) : KeepsCounters s (s.raise .enc e) :=
  fun hf => absurd (s.raise_faulted .enc e).state hf

theorem execTbBuild_keepsCounters {s t : State} (h : execTbBuild s = .next t) : KeepsCounters s t := by
  by_cases hn : s.enc.diag.nsym = 0
  · rw [execTbBuild, if_pos hn] at h
    cases h
    exact keepsCounters_raise s .emptyInput
  · obtain ⟨t', r, ht', -, -, hwork⟩ := execTbBuild_next hn
    obtain ⟨hfreq, -⟩ := s.encWork.built_frame
    cases ht'.symm.trans h
    exact fun _ => by rw [hwork, ← hfreq]

theorem execCaAssign_keepsCounters {s t : State} (h : execCaAssign s = .next t) : KeepsCounters s t := by
  unfold execCaAssign at h
  split at h <;> cases h
  case h_1 => exact fun _ => rfl
  case h_2 => exact keepsCounters_raise s .malformedTree

theorem execBwPack_keepsCounters {s t : State} (h : execBwPack s = .next t) : KeepsCounters s t := by
  cases h
  exact fun _ => rfl

theorem execEncSerialize_keepsCounters {s t : State} (h : execEncSerialize s = .next t) : KeepsCounters s t := by
  unfold execEncSerialize at h
  split_ifs at h <;> cases h
  case pos => exact keepsCounters_raise s .bufferBound
  case neg => exact fun _ => rfl

/-- Settles O23: from 0 the counters are the occurrences, which add up to the input's length (`occurrences_sum`); the later phases,
one by one, keep them. -/
theorem countersAddUpToInputLength : Obligations.CountersAddUpToInputLength := by
  refine ⟨fun s t _ hzero h hbusy => ?_, fun s t i hi _ h hf => ?_⟩
  · have hcount : t.encWork.freq.count = occurrences (s.input .enc) := by
      funext b
      rw [execFtCount_count h (by simp [hbusy]), hzero, Nat.zero_add]
    rw [hcount, occurrences_sum, State.input_length]
    rfl
  · rcases hi with rfl | rfl | rfl | rfl
    · exact execTbBuild_keepsCounters h hf
    · exact execCaAssign_keepsCounters h hf
    · exact execBwPack_keepsCounters h hf
    · exact execEncSerialize_keepsCounters h hf

end Sys2Proof.Machine

/-! The tree builder: the priority collection and `TB.BUILD` (42_tree_builder.md). -/

namespace Sys2Proof.Machine

/-! The primitives (R121, R122). -/

/-- The members after `PQ.INSERT` (R121). -/
theorem EncWork.mem_members_pqInsert {w : EncWork} {i j : Nat} : j ∈ (w.pqInsert i).members ↔ j = i ∨ j ∈ w.members :=
  Table.mem_keys_set w.inq i j ()

/-- `PQ.EXTRACTMIN` with a member to take out (R122). -/
theorem execPqExtractMin_some {s : State} {i : Nat} {w : EncWork} (h : s.encWork.pqExtractMin = some (i, w)) :
    execPqExtractMin s = .next { s.drawn with encWork := w, ret := BitVec.ofNat 32 i } := by
  rw [execPqExtractMin, h]

/-- Settles O24: `PQ.INSERT` writes `INQ` alone, whose members `EncWork.mem_members_pqInsert` gives. -/
theorem pqInsertAddsMember : Obligations.PqInsertAddsMember :=
  fun _ _ => ⟨_, rfl, fun _ => EncWork.mem_members_pqInsert, rfl⟩

/-- Settles O25: with a member there, `EncWork.pqExtractMin_some` gives the one that comes first, and erasing its bit leaves the
others (`Table.mem_keys_erase`). -/
theorem pqExtractMinTakesTheFirst : Obligations.PqExtractMinTakesTheFirst := by
  intro s hne
  obtain ⟨i, hi, hfirst, hextract⟩ := EncWork.pqExtractMin_some hne
  exact ⟨_, i, execPqExtractMin_some hextract, hi, hfirst, rfl, Table.mem_keys_erase s.encWork.inq i, rfl⟩

/-! `TB.BUILD` (R123 to R126). -/

/-- `TB.BUILD` with no symbol (R123, R125). -/
theorem execTbBuild_empty {s : State} (h : s.enc.diag.nsym = 0) : execTbBuild s = .next (s.raise .enc .emptyInput) := by
  rw [execTbBuild, if_pos h]

/-- `ROOT` does not enter a weight. -/
theorem EncWork.weight_withRoot (w : EncWork) (r : Option Nat) (i : Nat) :
    EncWork.weight { w with root := r } i = w.weight i := rfl

/-- A tree with one leaf for each symbol that occurs weighs as much as all frequencies together (R126 (c)). -/
theorem CodeTree.total_of_symbols_perm {f : Table Nat} {t : CodeTree}
    (h : t.symbols.Perm ((occurring f).map (BitVec.ofNat 8))) : t.total f = ((occurring f).map f.count).sum := by
  have hbyte : ∀ i ∈ occurring f, f.count (BitVec.ofNat 8 i).toNat = f.count i := by
    intro i hi
    have hlt : i < 256 := List.mem_range.1 (List.mem_filter.1 hi).1
    rw [BitVec.toNat_ofNat, Nat.mod_eq_of_lt hlt]
  calc t.total f = (t.symbols.map (fun b => f.count b.toNat)).sum := t.total_eq f
    _ = (((occurring f).map (BitVec.ofNat 8)).map (fun b => f.count b.toNat)).sum := (h.map _).sum_eq
    _ = ((occurring f).map f.count).sum := by rw [List.map_map]; exact congrArg List.sum (List.map_congr_left hbyte)

/-- Settles O26: `EncWork.addLeaves` is the leaf loop, `EncWork.built_turns` makes the merges turns, and one member is left
(`EncWork.built_spec`). -/
theorem buildJoinsTheTwoFirst : Obligations.BuildJoinsTheTwoFirst := by
  refine ⟨fun s h => ⟨_, execTbBuild_empty h, s.raise_faulted .enc .emptyInput⟩, fun s hn hk hnode hinq hnint => ?_⟩
  obtain ⟨r, -, hmembers, -⟩ := s.encWork.built_spec hnode hinq hnint hk
  obtain ⟨t, ht, hkept, henc, hwork⟩ := execTbBuild_some hn hmembers
  obtain ⟨hleaves, hframe⟩ := s.encWork.addLeaves_leavesOf hnode hinq hnint
  exact ⟨t, s.encWork.addLeaves, s.encWork.built, r, ht, hkept, hframe, hleaves, s.encWork.built_turns hnode hinq hnint,
    hmembers, hwork, henc⟩

/-- Settles O27: the merges keep a forest over the symbols that occur (`Forest.merge`), so the one member left is the root of a tree
over all of them (`EncWork.built_spec`); with one symbol it is that symbol's leaf (`EncWork.built_single`). -/
theorem builtTreeIsAWeighedCodeTree : Obligations.BuiltTreeIsAWeighedCodeTree := by
  intro s hn hk hnode hinq hnint
  obtain ⟨r, tree, hmembers, -, hsymbols, hweight, hcount, hroot, -, -, -, -, htree⟩ :=
    s.encWork.built_spec hnode hinq hnint hk
  obtain ⟨t, ht, -, -, hwork⟩ := execTbBuild_some hn hmembers
  refine ⟨t, r, tree, ht, congrArg EncWork.root hwork, ?_⟩
  simp only [hwork, EncWork.weight_withRoot]
  refine ⟨htree, hsymbols, hweight.trans (CodeTree.total_of_symbols_perm hsymbols), hcount, fun h2 => ?_, fun h1 => ?_⟩
  · have hr := hroot (by omega)
    omega
  · exact (s.encWork.built_single hnode hinq hnint h1).symm.trans hmembers

end Sys2Proof.Machine

/-! The code assigner (43_code_assigner.md), and that no step stops. -/

namespace Sys2Proof.Machine

/-- Settles O47: the next state is the one of `step_inv`. -/
theorem machineNeverStops : Obligations.MachineNeverStops := by
  intro s h
  obtain ⟨t, ht, -⟩ := step_inv h
  exact ⟨t, ht⟩

/-! `CA.ASSIGN` (R135 to R137). -/

/-- `CA.ASSIGN` on the arena of a tree (R135, R136). -/
theorem execCaAssign_tree {s : State} {r : Nat} {t : CodeTree} (hroot : s.encWork.root = some r)
    (hat : t.At s.encWork.node r) (hlen : t.symbols.length ≤ 256) (hcode : s.encWork.code = []) :
    ∃ s', execCaAssign s = .next s' ∧ Kept .enc s s' ∧ s'.enc = { s.enc with phase := phasePack } ∧
      s'.encWork = { s.encWork with code := writeCodes [] t.codes } := by
  apply execCaAssign_ok
  rw [hroot, hcode]
  exact assignCodes_tree t r [] hat hlen

/-- `CA.ASSIGN` on an arena that is malformed (R137). -/
theorem execCaAssign_malformed {s : State}
    (h : assignCodes s.encWork.node s.encWork.root s.encWork.code = .error .malformed) :
    ∃ t, execCaAssign s = .next t ∧ Faulted .enc .malformedTree s t := by
  rw [execCaAssign, h]
  exact ⟨_, rfl, s.raise_faulted .enc .malformedTree⟩

theorem CodeTree.exists_toNat_symbols {t : CodeTree} {i : Nat} :
    (∃ b ∈ t.symbols, b.toNat = i) ↔ ∃ e ∈ t.codes, e.1.toNat = i := by
  simp [← t.codes_symbols]

/-- Settles O28: the traversal writes the tree's codes (`execCaAssign_tree`), and a table written so holds them and no other
(`bits_writeCodes`). -/
theorem assignGivesLeafPaths : Obligations.AssignGivesLeafPaths := by
  intro s r tree hroot hat hnodup hcode
  obtain ⟨t, ht, hkept, henc, hwork⟩ := execCaAssign_tree hroot hat (CodeTree.symbols_le_of_nodup hnodup) hcode
  obtain ⟨hcodes, hothers⟩ := bits_writeCodes tree hnodup
  refine ⟨t, _, ht, hkept, henc, hwork, fun b bits hmem => hcodes (b, bits) hmem, fun i hi => hothers i fun e he hei => ?_⟩
  obtain ⟨b, hb, hbi⟩ := CodeTree.exists_toNat_symbols.2 ⟨e, he, hei⟩
  exact hi b hb hbi

/-- Settles O29: a traversal that ends meets its first defect (`assignCodes_defect`), and `NIL` is one at the root. -/
theorem assignRaisesMalformedTree : Obligations.AssignRaisesMalformedTree := by
  refine ⟨fun s r sh hroot hat hends hdefect => execCaAssign_malformed ?_, fun s hroot => execCaAssign_malformed ?_⟩
  · rw [hroot]
    exact assignCodes_defect sh r _ hat hends hdefect
  · rw [hroot, assignCodes]

/-! How the codes of a tree divide the bit strings (R138, R139). -/

/-- No code starts with another one (R138 (c)). -/
theorem CodeTree.eq_of_codes_prefix {t : CodeTree} {d e : Byte × Bits} (hd : d ∈ t.codes) (he : e ∈ t.codes)
    (h : d.2 <+: e.2) : d = e := by
  have hpairs := List.pairwise_map.1 t.codes_prefixFree
  have : Std.Symm fun a b : Byte × Bits => ¬ a.2 <+: b.2 ∧ ¬ b.2 <+: a.2 := ⟨fun _ _ => And.symm⟩
  by_contra hne
  exact (hpairs.forall hd he hne).1 h

/-- With at least two leaves every bit string that is long enough starts with a code (R138 (d)). -/
theorem CodeTree.exists_codes_prefix {t : CodeTree} (h2 : 2 ≤ t.symbols.length) {bs : Bits}
    (hbs : t.symbols.length ≤ bs.length + 1) : ∃ e ∈ t.codes, e.2 <+: bs := by
  cases t with
  | leaf s => simp [CodeTree.symbols] at h2
  | node l r =>
    refine CodeTree.paths_complete _ bs fun e he => ?_
    have := CodeTree.path_length_lt _ e he
    omega

/-- A tree with one leaf has the one code "0" (R136). -/
theorem CodeTree.codes_eq_of_length_one {t : CodeTree} (h : t.symbols.length = 1) : ∀ e ∈ t.codes, e.2 = [false] := by
  cases t with
  | leaf s => simp [CodeTree.codes]
  | node l r =>
    have hl := l.symbols_length_pos
    have hr := r.symbols_length_pos
    rw [CodeTree.symbols, List.length_append] at h
    omega

/-- The symbols with a code in the table `CA.ASSIGN` writes are those at the leaves (R138 (a)). -/
theorem bits_writeCodes_ne_nil {t : CodeTree} (h : t.symbols.Nodup) {i : Nat} :
    Table.bits (writeCodes [] t.codes) i ≠ [] ↔ ∃ b ∈ t.symbols, b.toNat = i := by
  rw [CodeTree.exists_toNat_symbols]
  constructor
  · intro hi
    obtain ⟨e, he, hei, -⟩ := mem_codes_of_bits h i hi
    exact ⟨e, he, hei⟩
  · rintro ⟨e, he, rfl⟩
    rw [(bits_writeCodes t h).1 e he]
    exact List.ne_nil_of_length_pos (t.codes_length e he).1

/-- In the table `CA.ASSIGN` writes, no symbol's code starts with another symbol's (R138 (c)). -/
theorem eq_of_bits_writeCodes_prefix {t : CodeTree} (h : t.symbols.Nodup) {i j : Nat}
    (hi : Table.bits (writeCodes [] t.codes) i ≠ []) (hj : Table.bits (writeCodes [] t.codes) j ≠ [])
    (hp : Table.bits (writeCodes [] t.codes) i <+: Table.bits (writeCodes [] t.codes) j) : i = j := by
  obtain ⟨d, hd, hdi, hdbits⟩ := mem_codes_of_bits h i hi
  obtain ⟨e, he, hej, hebits⟩ := mem_codes_of_bits h j hj
  rw [← hdbits, ← hebits] at hp
  rw [← hdi, ← hej, CodeTree.eq_of_codes_prefix hd he hp]

/-- With at least two leaves, every bit string that is long enough starts with exactly one code of the table (R138 (d)). -/
theorem existsUnique_bits_writeCodes_prefix {t : CodeTree} (h : t.symbols.Nodup) (h2 : 2 ≤ t.symbols.length) {bs : Bits}
    (hbs : t.symbols.length ≤ bs.length + 1) :
    ∃! i, i < 256 ∧ Table.bits (writeCodes [] t.codes) i ≠ [] ∧ Table.bits (writeCodes [] t.codes) i <+: bs := by
  obtain ⟨e, he, hp⟩ := CodeTree.exists_codes_prefix h2 hbs
  rw [← (bits_writeCodes t h).1 e he] at hp
  have hne := (bits_writeCodes_ne_nil h).2 (CodeTree.exists_toNat_symbols.2 ⟨e, he, rfl⟩)
  refine ⟨e.1.toNat, ⟨e.1.isLt, hne, hp⟩, fun j ⟨_, hnej, hpj⟩ => ?_⟩
  rcases List.prefix_or_prefix_of_prefix hpj hp with hc | hc
  · exact eq_of_bits_writeCodes_prefix h hnej hne hc
  · exact (eq_of_bits_writeCodes_prefix h hne hnej hc).symm

/-- A tree over the symbols that occur has a leaf for the symbol `i` exactly when its counter is above 0 (R126). -/
theorem exists_symbol_iff_count_pos {f : Table Nat} {t : CodeTree}
    (h : t.symbols.Perm ((occurring f).map (BitVec.ofNat 8))) {i : Nat} (hi : i < 256) :
    (∃ b ∈ t.symbols, b.toNat = i) ↔ 0 < f.count i := by
  have hbyte : ∀ k ∈ occurring f, (BitVec.ofNat 8 k).toNat = k := fun k hk => by
    rw [BitVec.toNat_ofNat, Nat.mod_eq_of_lt (mem_occurring.1 hk).1]
  calc (∃ b ∈ t.symbols, b.toNat = i) ↔ ∃ k ∈ occurring f, (BitVec.ofNat 8 k).toNat = i := by simp [h.mem_iff]
    _ ↔ i ∈ occurring f := ⟨fun ⟨k, hk, hki⟩ => hki ▸ (hbyte k hk).symm ▸ hk, fun hocc => ⟨i, hocc, hbyte i hocc⟩⟩
    _ ↔ 0 < f.count i := by rw [mem_occurring, and_iff_right hi]

/-- `TB.BUILD` that does not fault leaves the code table alone. -/
theorem execTbBuild_code {s t : State} (hn : s.enc.diag.nsym ≠ 0) (h : execTbBuild s = .next t) :
    t.encWork.code = s.encWork.code := by
  obtain ⟨t', r, ht', -, -, hwork⟩ := execTbBuild_next hn
  obtain ⟨-, hcode, -⟩ := s.encWork.built_frame
  cases ht'.symm.trans h
  rw [hwork, ← hcode]

/-- Settles O30: `TB.BUILD` leaves a tree over the symbols that occur (O27), whose codes `CA.ASSIGN` writes (`execCaAssign_tree`);
each clause is a law above of the codes of such a tree. -/
theorem codeTableIsACompletePrefixCode : Obligations.CodeTableIsACompletePrefixCode := by
  intro s hn hk hnode hinq hnint hcode
  obtain ⟨t1, r, tree, ht1, hroot, htree, hsymbols, -⟩ := builtTreeIsAWeighedCodeTree s hn hk hnode hinq hnint
  have hnodup : tree.symbols.Nodup := hsymbols.nodup_iff.2 (occurring_nodup _)
  have hlen : tree.symbols.length = distinctSymbols s.encWork.freq := by
    rw [hsymbols.length_eq, List.length_map, distinctSymbols_eq]
  have hmax : tree.symbols.length ≤ 256 := CodeTree.symbols_le_of_nodup hnodup
  obtain ⟨t2, ht2, -, -, hwork⟩ := execCaAssign_tree hroot htree.at hmax ((execTbBuild_code hn ht1).trans hcode)
  refine ⟨t1, t2, writeCodes [] tree.codes, ht1, ht2, by rw [hwork], ?_, ?_, ?_, ?_, ?_⟩
  · exact fun i hi => (bits_writeCodes_ne_nil hnodup).trans (exists_symbol_iff_count_pos hsymbols hi)
  · exact bits_writeCodes_length tree hmax
  · exact fun i j _ _ hij hi hj hp => hij (eq_of_bits_writeCodes_prefix hnodup hi hj hp)
  · exact fun h2 bs hbs => existsUnique_bits_writeCodes_prefix hnodup (by omega) (by omega)
  · intro h1 i _ hi
    obtain ⟨e, he, -, hebits⟩ := mem_codes_of_bits hnodup i hi
    rw [← hebits, CodeTree.codes_eq_of_length_one (hlen.trans h1) e he]

end Sys2Proof.Machine

/-! The BitWriter and the BitReader (44_bit_writer_reader.md), and `BW.PACK`. -/

namespace Sys2Proof.Machine

/-! The BitWriter's primitives (R145 to R149). -/

/-- The encoder's BitWriter in its empty state (R145). -/
theorem State.bitWriter_eq_empty {s : State} (hpay : s.encWork.pay = []) (hbit : s.enc.diag.bitcnt = 0) :
    s.bitWriter = BitWriter.empty := by
  rw [State.bitWriter, hpay, hbit, BitWriter.empty]

/-- Settles O31: both primitives store back the BitWriter that `BitWriter.putBit_holds` and `BitWriter.putCode_holds` are about. -/
theorem bitWriterAppendsBits : Obligations.BitWriterAppendsBits :=
  ⟨fun _ _ b h hlt => ⟨_, _, rfl, BitWriter.putBit_holds b h hlt, rfl⟩,
    fun _ _ cs h hlt => ⟨_, _, rfl, BitWriter.putCode_holds cs h hlt, rfl⟩⟩

/-- `PAY` after `BW.PUTCODE(bs)` from the empty state (R149). -/
theorem execBwPutCode_empty {s : State} (hpay : s.encWork.pay = []) (hbit : s.enc.diag.bitcnt = 0) (bs : Bits) :
    ∃ t, execBwPutCode bs s = .next t ∧ t.encWork.pay = packbits bs := by
  rw [execBwPutCode, State.bitWriter_eq_empty hpay hbit]
  exact ⟨_, rfl, rfl⟩

/-- The entry of a symbol that has a code (R89, R149). -/
theorem entryBytes_of_ne_nil {code : Table Bits} {i : Nat} (h : code.bits i ≠ []) :
    entryBytes code i = BitVec.ofNat 8 i :: BitVec.ofNat 8 (code.bits i).length :: packbits (code.bits i) := by
  rw [entryBytes, if_pos (List.length_pos_iff.2 h)]

/-- Settles O32: the bits' places and the zero padding are the two cases, inside and beyond `bs`, of `bitat_packbits`. -/
theorem packbitsLaysBitsMostSignificantFirst : Obligations.PackbitsLaysBitsMostSignificantFirst := by
  intro bs hlt
  refine ⟨fun s hpay hbit => execBwPutCode_empty hpay hbit bs, packbits_length bs hlt, fun t ht => ?_, fun t ht => ?_,
    codeBits_packbits bs hlt, ?_⟩
  · exact (bitat_packbits bs hlt t).trans (List.getD_eq_getElem bs false ht)
  · exact (bitat_packbits bs hlt t).trans (List.getD_eq_default bs false ht)
  · rintro code i rfl hne
    exact entryBytes_of_ne_nil hne

/-! `BW.PACK` (R148). -/

/-- From the empty state the loop over the input bytes leaves the packed codes in `PAY`. -/
theorem packInput_empty_pay (code : Table Bits) (x : List Byte) :
    (packInput code BitWriter.empty x).pay = packbits (inputCodes code x) := by
  rw [packInput_eq, packbits]

/-- Settles O33: from the empty state the loop leaves a BitWriter that holds the input's codes (`packInput_holds`); their total
length is counted symbol by symbol in `occurrences_weighted`. -/
theorem packPacksTheInputsCodes : Obligations.PackPacksTheInputsCodes := by
  intro s hpay hbit hlen
  obtain ⟨t, ht, hkept, henc, hwork⟩ := execBwPack_next s
  rw [State.bitWriter_eq_empty hpay hbit] at henc hwork
  rw [packInput_empty_pay] at hwork
  have hinput : (s.input .enc).length < 2 ^ 32 := by
    rw [State.input_length]
    exact BitVec.isLt _
  have hcount := (packInput_holds s.encWork.code (s.input .enc) hlen hinput).count
  exact ⟨t, _, ht, hkept, hwork, henc, hcount, hcount.trans (occurrences_weighted ..).symm⟩

/-! The BitReader (R150). -/

theorem State.inByte_of_read {s : State} {u : UnitId} {a : Nat} {b : Byte} (h : (s.block u).inBuf.read a = some b) :
    s.inByte u a = b := by
  rw [State.inByte, h, Option.getD_some]

/-- A bit handed over in a register reads as 0 or 1. -/
theorem toNat_ofNat_bool (b : Bool) : (BitVec.ofNat 32 b.toNat).toNat = b.toNat := by cases b <;> rfl

/-- Settles O42: `ret` is the payload bit as a number, read from the byte at `PAY_OFF + BITPOS div 8` where that is listed. -/
theorem getBitYieldsTheNextPayloadBit : Obligations.GetBitYieldsTheNextPayloadBit := by
  intro s
  refine ⟨_, rfl, rfl, ?_, fun b hb => ?_⟩
  · rw [toNat_ofNat_bool]
    exact Bool.toNat_lt _
  · rw [toNat_ofNat_bool, payloadBit, State.inByte_of_read (u := .dec) hb, bitOfByte]

end Sys2Proof.Machine

/-! The encoder: `encode(x)`, `ENC.SERIALIZE`, and an empty input (45_encoder.md R160 to R163). -/

namespace Sys2Proof.Machine

/-! `encode(x)` on two states (R163). -/

/-- The outcome of an `ENCODE` by what it leaves in the registers and in `OUT`, as the outcome of a `DECODE` is given. -/
def encodeEnding (o : Except (BitVec 4 × Failure) (List Byte × Diag)) : Except (BitVec 4 × Failure) (Memory × Word × Diag) :=
  o.map fun r => (Memory.writeAll [] 0 r.1, BitVec.ofNat 32 r.1.length, r.2)

/-- Both units end a command alike: the same fields are set in `DONE`, and the same in `FAULT` (R161, R180, R233). -/
theorem EncEnds.decEnds {o : Except (BitVec 4 × Failure) (List Byte × Diag)} {b : Block} (h : EncEnds o b) :
    DecEnds (encodeEnding o) b := by cases o <;> exact h

/-- Settles O54: both runs end with `encodeOutcome` of the parameters and `x` (`encodeBytes_spec`), which looks at neither state. -/
theorem encodeIsDeterministic : Obligations.EncodeIsDeterministic := by
  intro s s' x hb hb' hp hx
  obtain ⟨t, ht, -, -, -, -, -, -, -, hends, hres⟩ := encodeBytes_spec s x hb hx
  obtain ⟨t', ht', -, -, -, -, -, -, -, hends', hres'⟩ := encodeBytes_spec s' x hb' (by rwa [hp])
  rw [hp] at hends' hres'
  obtain ⟨hstate, hphase, herr, hlen, hout, hdiag⟩ := hends.decEnds.agree hends'.decEnds
  exact ⟨t, t', ht, ht', hres'.trans hres.symm, hstate, hphase, herr, hlen, fun a => by rw [hout], hdiag⟩

/-! `ENC.SERIALIZE` (R161). -/

/-- A container that fits `OUT` has a length that `OUT_LEN` can hold (R25). -/
theorem State.toNat_container_length {s : State} (h : s.container.length ≤ s.params.encOutCap.toNat) :
    (BitVec.ofNat 32 s.container.length).toNat = s.container.length := by
  rw [BitVec.toNat_ofNat, Nat.mod_eq_of_lt (h.trans_lt s.params.encOutCap.isLt)]

/-- Settles O34: the bytes named are `State.container`, and the two cases are those of `execEncSerialize_fits` and
`execEncSerialize_tooLong`. -/
theorem serializeWritesTheContainer : Obligations.SerializeWritesTheContainer := by
  intro s c hc
  obtain rfl : c = s.container := hc
  refine ⟨fun hfit => ?_, fun hlong => ⟨_, execEncSerialize_tooLong hlong, s.raise_faulted .enc .bufferBound⟩⟩
  obtain ⟨t, ht, hkept, henc, hwork⟩ := execEncSerialize_fits hfit
  refine ⟨t, ht, hkept, hwork, by rw [henc]; rfl, ?_, fun a => ?_⟩
  · rw [henc]
    exact State.toNat_container_length hfit
  · rw [henc]
    exact Memory.read_writeAll_zero ..

/-! The empty input (R160, R162). -/

/-- The acceptance of `ENCODE` when the input fits (R206). -/
theorem execEncode_start {s : State} (hb : s.busy .enc = false) (hfit : s.enc.inLen ≤ s.params.encInCap) :
    ∃ t, execEncode s = .next t ∧ EncStart t ∧ t.params = s.params ∧ t.enc.inLen = s.enc.inLen := by
  rw [execEncode, unlessBusy, hb, if_neg Bool.false_ne_true, s.accept_fits .enc hfit]
  exact ⟨_, rfl, ⟨rfl, rfl, rfl, rfl, rfl, rfl⟩, rfl, rfl⟩

theorem distinctSymbols_nil : distinctSymbols [] = 0 := by simp [distinctSymbols, Table.count_nil]

/-- With no code there is no entry, so the container is `K = 0` and `N = 0` (R162). -/
theorem containerBytes_empty : containerBytes 0 0 [] [] = List.replicate 6 0 := by
  have hentries : (List.range 256).flatMap (entryBytes []) = [] := List.flatMap_eq_nil_iff.2 fun _ _ => rfl
  rw [containerBytes, hentries]
  rfl

/-- The step `COUNT` on empty input leads to `SERIALIZE` (R160). -/
theorem unitStep_count_empty {s : State} (h : EncStart s) (hin : s.enc.inLen = 0) :
    ∃ t, unitStep .enc s = .next t ∧ t.params = s.params ∧
      t.enc = { s.enc with phase := phaseSerialize, diag := Diag.zero } ∧ t.encWork = EncWork.initial := by
  have hinput : s.input .enc = [] := by
    rw [← List.length_eq_zero_iff, State.input_length]
    exact congrArg BitVec.toNat hin
  have hcount : countBytes s.params.cntW s.encWork.freq (s.input .enc) = some [] := by rw [hinput, h.work]; rfl
  obtain ⟨t, ht, hkept, henc, hwork⟩ := execFtCount_some hcount
  refine ⟨t, ?_, hkept.params, ?_, ?_⟩
  · rw [unitStep_of_busy (State.busy_enc h.state), unitPhase_count h.phase, ht]
  · simp [henc, distinctSymbols_nil, hin, h.bitcnt, Diag.zero]
  · rw [hwork, h.work]
    rfl

/-- The step `SERIALIZE` with no symbol counted, no code and no payload writes six zero bytes (R162). -/
theorem unitStep_serialize_empty {s : State} (hb : s.enc.state = .busy) (hphase : s.enc.phase = 5) (hdiag : s.enc.diag = Diag.zero)
    (hwork : s.encWork = EncWork.initial) (hcap : 6 ≤ s.params.encOutCap.toNat) :
    ∃ t, unitStep .enc s = .next t ∧
      t.enc = s.enc.finished 6 Diag.zero (s.enc.outBuf.writeAll 0 (List.replicate 6 0)) ∧ t.encWork = EncWork.initial := by
  have hcontainer : s.container = List.replicate 6 0 := by
    rw [State.container, hdiag, hwork]
    exact containerBytes_empty
  obtain ⟨t, ht, -, henc, hwork'⟩ := execEncSerialize_fits (s := s) (by rwa [hcontainer])
  refine ⟨t, ?_, ?_, hwork'.trans hwork⟩
  · rw [unitStep_of_busy (State.busy_enc hb), unitPhase_serialize hphase, ht]
  · rw [henc, hcontainer, hdiag]
    rfl

/-- A buffer that holds six zero bytes and nothing else. -/
theorem Memory.read_writeAll_six_zeros (a : Nat) :
    Memory.read (Memory.writeAll [] 0 (List.replicate 6 0)) a = if a < 6 then some 0 else none := by
  rw [Memory.read_writeAll_zero, List.length_replicate]
  by_cases h : a < 6
  · rw [if_pos h, if_pos h, List.getD_replicate _ h]
  · rw [if_neg h, if_neg h]
    rfl

/-- Settles O36: acceptance (`execEncode_start`), then the two steps `unitStep_count_empty` and `unitStep_serialize_empty`. -/
theorem emptyInputGivesTheEmptyContainer : Obligations.EmptyInputGivesTheEmptyContainer := by
  intro s hb hin hcap
  have hfit : s.enc.inLen ≤ s.params.encInCap := by rw [hin]; exact BitVec.le_def.2 (Nat.zero_le _)
  obtain ⟨t0, ht0, hstart, hparams0, hin0⟩ := execEncode_start hb hfit
  obtain ⟨t1, ht1, hparams1, henc1, hwork1⟩ := unitStep_count_empty hstart (hin0.trans hin)
  obtain ⟨t2, ht2, henc2, hwork2⟩ := unitStep_serialize_empty (by rw [henc1]; exact hstart.state) (by rw [henc1]; rfl)
    (by rw [henc1]) hwork1 (by rwa [hparams1, hparams0])
  have herr : t1.enc.err = .none := by rw [henc1]; exact hstart.err
  have hout : t1.enc.outBuf = [] := by rw [henc1]; exact hstart.outBuf
  refine ⟨t0, t1, t2, ht0, ht1, by rw [henc1]; rfl, ht2, ?_⟩
  rw [henc2, hwork2, hout]
  exact ⟨rfl, rfl, herr, rfl, Memory.read_writeAll_six_zeros, rfl, rfl, rfl, rfl, rfl⟩

end Sys2Proof.Machine

/-! The decoder: `DEC.PARSE`, the trie, `TW.WALK`, and the round trip (46_decoder.md R176 to R182). -/

namespace Sys2Proof.Machine

/-! `DEC.PARSE` (R176, R177). -/

/-- `DEC.PARSE` of what is no container (R176, R181). -/
theorem execDecParse_none {s : State} (h : parseHeader (s.inByte .dec) s.dec.inLen.toNat = none) :
    execDecParse s = .next (s.raise .dec .corruptData) := by rw [execDecParse, h]

/-- Settles O37: a container's parts are its header (`parseHeader_of_container`), and `PAY_OFF`, which is at most `IN_LEN`, and
`PAY_LEN` fit their registers. -/
theorem parseReadsTheContainer : Obligations.ParseReadsTheContainer := by
  intro s es n pay hc hn
  obtain ⟨hheader, hpay, hle⟩ := parseHeader_of_container hc
  obtain ⟨t, ht, hkept, hdec, hwork⟩ := execDecParse_some hheader (Nat.one_le_iff_ne_zero.1 hn)
  have hoff : t.decWork.payOff.toNat = s.dec.inLen.toNat - pay.length := by
    rw [hwork]
    exact (BitVec.toNat_ofNat ..).trans (Nat.mod_eq_of_lt ((Nat.sub_le ..).trans_lt s.dec.inLen.isLt))
  have hlen : t.decWork.payLen = BitVec.ofNat 32 pay.length := by
    rw [hwork]
    exact congrArg (BitVec.ofNat 32) (Nat.sub_sub_self hle)
  refine ⟨t, ht, hkept, hdec, ?_, by rw [hoff]; exact Nat.sub_add_cancel hle, by rw [hoff]; exact hpay⟩
  rw [← hlen, hwork]
  rfl

/-- Settles O38: with `N = 0` the command ends in `PARSE` (`execDecParse_zero`), and a header holds neither trie nor `BITPOS`. -/
theorem parseOfZeroSymbolsEndsTheCommand : Obligations.ParseOfZeroSymbolsEndsTheCommand := by
  intro s es pay hc
  obtain ⟨hheader, -, -⟩ := parseHeader_of_container hc
  obtain ⟨t, ht, hkept, hdec, hwork⟩ := execDecParse_zero hheader rfl
  exact ⟨t, ht, hkept, hdec, by rw [hwork]; rfl, by rw [hwork]; rfl⟩

/-- Settles O39: a header that `DEC.PARSE` accepts is one of a container (`container_of_parseHeader`), so there is none. -/
theorem parseRejectsWhatIsNoContainer : Obligations.ParseRejectsWhatIsNoContainer := by
  intro s hno
  have hnone : parseHeader (s.inByte .dec) s.dec.inLen.toNat = none := by
    refine Option.eq_none_iff_forall_ne_some.2 fun h hp => ?_
    obtain ⟨pay, hc, -, -⟩ := container_of_parseHeader hp
    exact hno _ _ _ hc
  exact ⟨_, execDecParse_none hnone, s.raise_faulted .dec .corruptData⟩

/-! `TR.INSERT` (R178). -/

theorem execTrInsert_some {s : State} {sym : Byte} {bs : Bits} {t : Trie} {seen : Table Unit}
    (h : trieInsert s.decWork.trie s.decWork.seen sym bs = some (t, seen)) :
    execTrInsert sym bs s = .next { s with decWork := { s.decWork with trie := t, seen := seen } } := by
  rw [execTrInsert, h]

theorem execTrInsert_none {s : State} {sym : Byte} {bs : Bits} (h : trieInsert s.decWork.trie s.decWork.seen sym bs = none) :
    execTrInsert sym bs s = .next (s.raise .dec .corruptData) := by rw [execTrInsert, h]

/-- Marking a symbol in `SEEN` marks it and no other (R178). -/
theorem isSome_get_set_unit (seen : Table Unit) (i j : Nat) :
    (Table.get (Table.set seen i ()) j).isSome ↔ j = i ∨ (Table.get seen j).isSome := by
  rw [Table.get_set]
  by_cases h : i = j
  · simp [h]
  · simp [h, Ne.symm h]

/-- Settles O40: an insertion succeeds exactly under the three conditions, and what it leaves is `trieInsert_spec`'s; a trie that
grows spells all it spelled (`Trie.Grows.spells`). -/
theorem trInsertPlacesACode : Obligations.TrInsertPlacesACode := by
  intro s sym bs hbs hroot hcap hbounded
  have hspec := trieInsert_spec (seen := s.decWork.seen) sym bs (List.length_pos_iff.1 hbs) hroot hcap hbounded
  cases hins : trieInsert s.decWork.trie s.decWork.seen sym bs with
  | none =>
    rw [hins] at hspec
    exact ⟨fun h => absurd h hspec, fun _ => ⟨_, execTrInsert_none hins, s.raise_faulted .dec .corruptData⟩⟩
  | some p =>
    obtain ⟨tr, seen⟩ := p
    rw [hins] at hspec
    obtain ⟨hok, hlen, hgrows, hspells, rfl⟩ := hspec
    exact ⟨fun _ => ⟨_, tr, _, execTrInsert_some hins, rfl, hspells, fun _ _ => hgrows.spells hbounded, hlen,
      isSome_get_set_unit s.decWork.seen sym.toNat⟩, fun h => absurd hok h⟩

/-! `TR.REBUILD` (R179). -/

theorem execTrRebuild_none {s : State} (h : s.decWork.rebuild = none) : execTrRebuild s = .next (s.raise .dec .corruptData) := by
  rw [execTrRebuild, h]

section RebuildFromEmpty

variable {w : DecWork} (ht : w.trie = []) (hs : w.seen = []) (hlen : w.entries.length = w.k.toNat)
  (hne : ∀ e ∈ w.entries, e.bits ≠ [])
include ht hs hlen hne

/-- A code table can be rebuilt from an empty arena (R179). -/
theorem DecWork.rebuild_some (hk : w.k ≠ 0) (hb : Buildable w.entries) :
    ∃ tr seen L, w.rebuild = some (tr, seen) ∧ Inserted tr seen w.entries L := by
  have hspec := w.rebuild_inserted ht hs hk hlen hne
  cases hr : w.rebuild with
  | none =>
    rw [hr] at hspec
    exact absurd hb hspec
  | some p =>
    obtain ⟨tr, seen⟩ := p
    rw [hr] at hspec
    obtain ⟨L, hins⟩ := hspec
    exact ⟨tr, seen, L, rfl, hins⟩

/-- No entries, or entries that are no code table, cannot be rebuilt (R179, R181). -/
theorem DecWork.rebuild_none (h : w.k = 0 ∨ ¬ Buildable w.entries) : w.rebuild = none := by
  by_cases hk : w.k = 0
  · rw [DecWork.rebuild, if_pos hk]
  · have hspec := w.rebuild_inserted ht hs hk hlen hne
    cases hr : w.rebuild with
    | none => rfl
    | some p =>
      rw [hr] at hspec
      obtain ⟨L, hins⟩ := hspec
      exact absurd hins.ok (h.resolve_left hk)

end RebuildFromEmpty

/-- The trie of a set of entries has one node for the root and one for each path (R178). -/
theorem Inserted.length_eq {t : Trie} {seen : Table Unit} {es : List Entry} {L : Bits → Option Byte} (h : Inserted t seen es L) :
    t.length = trieNodes (es.map Entry.bits) := h.inv.card.trans (trieNodes_eq _).symm

/-- Settles O41: a code table is inserted whole (`DecWork.rebuild_some`), and the trie of the entries inserted spells exactly them
(`Inserted.spells_iff`); anything else is refused (`DecWork.rebuild_none`). -/
theorem rebuildSpellsExactlyTheEntries : Obligations.RebuildSpellsExactlyTheEntries := by
  intro s ht hs hlen hbits
  have hne : ∀ e ∈ s.decWork.entries, e.bits ≠ [] := fun e he => List.length_pos_iff.1 (hbits e he)
  refine ⟨fun ⟨hk, hb⟩ => ?_, fun h => ?_⟩
  · obtain ⟨tr, seen, L, hr, hins⟩ := DecWork.rebuild_some ht hs hlen hne hk hb
    obtain ⟨t, hexec, hkept, hdec, hwork⟩ := execTrRebuild_some hr
    exact ⟨t, tr, seen, hexec, hkept, hdec, hwork, hins.spells_iff hne, hins.length_eq, hins.root_no_leaf, hins.marks⟩
  · exact ⟨_, execTrRebuild_none (DecWork.rebuild_none ht hs hlen hne h), s.raise_faulted .dec .corruptData⟩

/-! `TW.WALK` (R180). -/

/-- `TW.WALK` with more symbols to emit than `OUT` has bytes (R180, R231). -/
theorem execTwWalk_tooLong {s : State} (h : s.params.decOutCap < s.decWork.n) :
    execTwWalk s = .next (s.raise .dec .bufferBound) := by rw [execTwWalk, if_pos h]

/-- `TW.WALK` that meets a defect of the payload (R180). -/
theorem execTwWalk_error {s : State} {e : Failure} (hn : s.decWork.n ≤ s.params.decOutCap) (h : s.walk = .error e) :
    ∃ t, execTwWalk s = .next t ∧ Faulted .dec e s t := by
  rw [execTwWalk, if_neg (BitVec.not_lt.2 hn), h]
  exact ⟨_, rfl, s.raise_faulted .dec e⟩

/-- Settles O43: the walk emits the symbols spelled (`State.walk_ok`), and its count of bits fits `BITCNT` and `BITPOS`. -/
theorem walkEmitsTheSpelledSymbols : Obligations.WalkEmitsTheSpelledSymbols := by
  intro s x bs rest hpayload hspells hn hcap hbits
  obtain ⟨t, ht, hkept, hdec, hwork⟩ := execTwWalk_ok hcap (s.walk_ok x bs rest hpayload hspells hn.symm)
  refine ⟨t, ht, hkept, by rw [hdec]; rfl, ?_, fun a => ?_, ?_⟩
  · rw [hdec]
    exact (BitVec.toNat_ofNat ..).trans (Nat.mod_eq_of_lt hbits)
  · rw [hdec]
    exact Memory.read_writeAll_zero ..
  · rw [hwork, hdec, ← hn, BitVec.ofNat_toNat, BitVec.setWidth_eq]
    rfl

/-- Settles O44: a payload that is too long is refused before the walk, and the two ways in which the walk itself fails are
`State.walk_truncated` and `State.walk_corrupt`. -/
theorem walkFaults : Obligations.WalkFaults := by
  refine ⟨fun s h => ?_, fun s x bs r m hcap hpayload hspells hinner hn => ?_,
    fun s x bs r rest b m hcap hpayload hspells hinner hchild hn => ?_⟩
  · exact ⟨_, execTwWalk_tooLong h, s.raise_faulted .dec .bufferBound⟩
  · exact execTwWalk_error hcap (s.walk_truncated x bs r m hpayload hspells hinner hn)
  · exact execTwWalk_error hcap (s.walk_corrupt x bs r rest b m hpayload hspells hinner hchild hn)

/-! The round trip (R182). -/

/-- An `encode(x)` that hands over a container ended with it. -/
theorem encodeOutcome_of_success {p : Params} {x c : List Byte} (h : hostResult (encodeOutcome p x) = .success c) :
    ∃ d, encodeOutcome p x = .ok (c, d) := by
  cases ho : encodeOutcome p x with
  | error f =>
    rw [ho] at h
    cases h
  | ok r =>
    rw [ho] at h
    cases h
    exact ⟨r.2, rfl⟩

/-- Settles O53: `encode(x)` leaves the decoder as it was, and `decode` of a container that `encode(x)` handed over ends with `x`
and the encoder's diagnostics (`decodeOutcome_encodeOutcome`). -/
theorem decodeOfEncodeIsTheInput : Obligations.DecodeOfEncodeIsTheInput := by
  intro s t x c hbusyE hbusyD hinE houtD hencode hsuccess hinD
  obtain ⟨t1, ht1, hparams, -, hdec, -, -, -, -, hendsE, hresE⟩ := encodeBytes_spec s x hbusyE hinE
  obtain rfl : t1 = t := by
    cases ht1.symm.trans hencode
    rfl
  obtain ⟨d, hout⟩ := encodeOutcome_of_success (hresE.symm.trans hsuccess)
  rw [hout] at hendsE
  obtain ⟨-, -, -, -, hdiagE, -⟩ := hendsE
  have hx : x.length < 2 ^ 32 := hinE.trans_lt s.params.encInCap.isLt
  have hbusy : t1.busy .dec = false := (State.busy_of_block (u := .dec) hdec).trans hbusyD
  obtain ⟨t', ht', -, -, henc, -, -, -, -, hendsD, hresD⟩ := decodeBytes_spec t1 c hbusy (by rwa [hparams])
  rw [hparams, decodeOutcome_encodeOutcome hout hx houtD] at hendsD hresD
  obtain ⟨hstate, -, -, hlen, hdiagD, hbuf⟩ := hendsD
  refine ⟨t', ht', ?_, hstate, ?_, fun a => ?_, ?_⟩
  · rw [hresD, decodeResult, outputOf_writeAll x hx]
  · rw [hlen, BitVec.toNat_ofNat, Nat.mod_eq_of_lt hx]
  · rw [hbuf]
    exact Memory.read_writeAll_zero ..
  · rw [hdiagD, henc, hdiagE]

end Sys2Proof.Machine

/-! The host's accesses and the moves of the agenda (47_host_commands.md R200 to R204, R211). -/

namespace Sys2Proof.Machine

/-! The moves of the agenda (R200 to R204, R211). -/

/-- A step takes the next move off the agenda. -/
theorem step_of_agenda {s : State} {e : Event} {rest : List Event} (ha : s.agenda = e :: rest) :
    step s = perform e (s.withAgenda rest) := by
  unfold step
  rw [ha]
  rfl

theorem step_of_agenda_nil {s : State} (ha : s.agenda = []) : step s = freeStep s := by
  unfold step
  rw [ha]

/-- A state with the agenda that it has. -/
theorem State.withAgenda_of_agenda {s : State} {a : List Event} (ha : s.agenda = a) : s.withAgenda a = s := by
  rw [← ha]
  rfl

/-- A step of a `BUSY` unit runs what its `STATUS` word decodes to (R211). -/
theorem unitStep_of_decode {u : UnitId} {s : State} {i : Instr} (hb : s.busy u = true)
    (hd : decode (.phase u (s.block u).statusWord) = .ok i) : unitStep u s = exec i s := by
  rw [unitStep, if_pos hb, runFetched_of_decode hd]

/-- While a host waits for a `BUSY` unit, the wait stays the next move and the unit takes a step (R212). -/
theorem step_of_agenda_wait {s : State} {u : UnitId} {rest : List Event} (ha : s.agenda = .wait u :: rest)
    (hb : s.busy u = true) : step s = unitStep u s := by
  have hbusy : (s.withAgenda rest).busy u = true := by rwa [State.withAgenda_busy]
  rw [step_of_agenda ha, perform, if_pos hbusy]
  exact congrArg (unitStep u) (State.withAgenda_of_agenda ha)

/-- Settles O6: a command word runs what it decodes to, and every step of a unit is one of `unitStep_of_decode`. -/
theorem stepRunsDecodedInstruction : Obligations.StepRunsDecodedInstruction := by
  refine ⟨fun s u w rest i ha hd => ?_, fun s u rest i ha hb hd => ?_, fun s u rest i ha hb hd => ?_,
    fun s u i ha hb hother hd => ?_, fun s i j ha henc hdec hdi hdj => ?_, fun s x rest ha => ?_, fun s c rest ha => ?_⟩
  · exact (step_of_agenda ha).trans (runFetched_of_decode hd _)
  · rw [step_of_agenda_unitStep ha]
    exact unitStep_of_decode (by rwa [State.withAgenda_busy]) (by rwa [State.withAgenda_block])
  · rw [step_of_agenda_wait ha hb, unitStep_of_decode hb hd]
  · rw [step_of_agenda_nil ha, freeStep_alone hb hother, unitStep_of_decode hb hd]
  · rw [step_of_agenda_nil ha]
    exact (freeStep_both henc hdec).imp (·.trans (unitStep_of_decode henc hdi)) (·.trans (unitStep_of_decode hdec hdj))
  · exact step_of_agenda ha
  · exact step_of_agenda ha

/-- Settles O8: each clause is a step of a unit that is not `BUSY` (`unitStep_of_not_busy`, `freeStep_none`). -/
theorem onlyBusyUnitsStep : Obligations.OnlyBusyUnitsStep := by
  refine ⟨fun s u hb => unitStep_of_not_busy hb, fun s ha henc hdec => ?_, fun s u rest ha hb => ?_⟩
  · rw [step_of_agenda_nil ha]
    exact freeStep_none fun u => by cases u <;> assumption
  · rw [step_of_agenda_unitStep ha]
    exact unitStep_of_not_busy (by rwa [State.withAgenda_busy])

/-! Registers (R201, R202). -/

theorem State.withAgenda_regValue (s : State) (a : List Event) (u : UnitId) (r : BitVec 4) :
    (s.withAgenda a).regValue u r = s.regValue u r := by cases u <;> rfl

theorem State.regValue_outLen {s : State} {u : UnitId} (h : (s.block u).state ≠ .busy) : s.regValue u 3 = (s.block u).outLen :=
  if_neg (by simpa [State.busy] using h)

theorem State.toNat_regValue_nsym (s : State) (u : UnitId) : (s.regValue u 4).toNat = (s.visibleDiag u).nsym.toNat :=
  BitVec.toNat_setWidth_of_le (by decide)

theorem State.toNat_regValue_bitcnt_lo (s : State) (u : UnitId) :
    (s.regValue u 6).toNat = (s.visibleDiag u).bitcnt.toNat % 2 ^ 32 := by
  show ((s.visibleDiag u).bitcnt.extractLsb' 0 32).toNat = _
  rw [BitVec.extractLsb'_toNat, Nat.shiftRight_zero]

theorem State.toNat_regValue_bitcnt_hi (s : State) (u : UnitId) :
    (s.regValue u 7).toNat = (s.visibleDiag u).bitcnt.toNat / 2 ^ 32 := by
  have hlt := (s.visibleDiag u).bitcnt.isLt
  show (((s.visibleDiag u).bitcnt.extractLsb' 32 8).setWidth 32).toNat = _
  rw [BitVec.toNat_setWidth_of_le (by decide), BitVec.extractLsb'_toNat, Nat.shiftRight_eq_div_pow]
  omega

/-- Registers 10 to 15 read 0 (R21, R201). -/
theorem State.regValue_reserved {s : State} {u : UnitId} {r : BitVec 4} (h : 10 ≤ r.toNat) : s.regValue u r = 0 := by
  unfold State.regValue
  split
  case h_11 => rfl
  all_goals omega

/-- In `IDLE` and `DONE` a host reads the diagnostic registers as they are (R44). -/
theorem State.visibleDiag_of_defined {s : State} {u : UnitId} (h : (s.block u).state = .idle ∨ (s.block u).state = .done) :
    s.visibleDiag u = (s.block u).diag := if_pos (by simpa [Block.diagDefined] using h)

/-- Settles O9: the value handed over is `State.regValue` of the register named. -/
theorem regReadReturnsRegister : Obligations.RegReadReturnsRegister := by
  intro s u r rest ha
  have hret : ((s.withAgenda rest).regRead u r).ret = s.regValue u r := State.withAgenda_regValue s rest u r
  refine ⟨_, step_of_agenda ha, rfl, ?_⟩
  rw [hret]
  refine ⟨?_, ?_, ?_, ?_, fun hdefined => ⟨?_, ?_, ?_, ?_⟩, ?_, ?_, ?_, ?_, State.regValue_reserved⟩
  all_goals rintro rfl
  case refine_1 => rfl
  case refine_2 => rfl
  case refine_3 => rfl
  case refine_4 => exact State.regValue_outLen
  case refine_5 => rw [State.toNat_regValue_nsym, State.visibleDiag_of_defined hdefined]
  case refine_6 => exact congrArg Diag.symcnt (State.visibleDiag_of_defined hdefined)
  case refine_7 => rw [State.toNat_regValue_bitcnt_lo, State.visibleDiag_of_defined hdefined]
  case refine_8 => rw [State.toNat_regValue_bitcnt_hi, State.visibleDiag_of_defined hdefined]
  case refine_9 =>
    rw [State.toNat_regValue_nsym]
    exact BitVec.isLt _
  case refine_10 =>
    rw [State.toNat_regValue_bitcnt_hi]
    exact Nat.div_lt_of_lt_mul (BitVec.isLt _)
  case refine_11 => rfl
  case refine_12 => rfl

theorem State.writeInLen_of_busy {s : State} {u : UnitId} (h : s.busy u = true) (v : Word) : s.writeInLen u v = s := if_pos h

theorem State.writeInLen_of_not_busy {s : State} {u : UnitId} (h : s.busy u = false) (v : Word) :
    s.writeInLen u v = s.withBlock u { s.block u with inLen := v } := if_neg (by simp [h])

/-- Settles O10: the clauses are the cases of `regWrite`, and of `State.writeInLen` for register 2. -/
theorem regWriteEffect : Obligations.RegWriteEffect := by
  intro s u r v rest ha
  rw [step_of_agenda ha, perform, regWrite]
  refine ⟨fun h0 => ?_, fun h2 hb => ?_, fun h2 hb => ?_, fun h0 h2 => ?_⟩
  · rw [if_pos h0]
    rfl
  · rw [h2, if_neg (by decide), if_pos rfl, State.withAgenda_writeInLen, State.writeInLen_of_not_busy hb,
      ← State.withAgenda_withBlock]
    rfl
  · rw [h2, if_neg (by decide), if_pos rfl, State.withAgenda_writeInLen, State.writeInLen_of_busy hb]
    rfl
  · rw [if_neg h0, if_neg h2]
    rfl

/-! Buffers (R200, R203, R204). -/

theorem State.writeIn_stores {s : State} {u : UnitId} {a : Nat} (hb : s.busy u = false) (ha : a < (s.inCap u).toNat) (b : Byte) :
    s.writeIn u a b = s.withBlock u { s.block u with inBuf := (s.block u).inBuf.write a b } := if_pos ⟨hb, ha⟩

theorem State.writeIn_ignored {s : State} {u : UnitId} {a : Nat} (h : s.busy u = true ∨ (s.inCap u).toNat ≤ a) (b : Byte) :
    s.writeIn u a b = s := by
  refine if_neg fun ⟨hb, ha⟩ => ?_
  rcases h with h | h
  · simp [h] at hb
  · exact h.not_gt ha

/-- Acceptance of a command, with or without a fault, keeps what no operation of the unit changes (R206, R207). -/
theorem State.accept_kept (s : State) (u : UnitId) : Kept u s (s.accept u) := by
  by_cases h : (s.block u).inLen ≤ s.inCap u
  · rw [State.accept_fits s u h]
    cases u <;> exact ⟨rfl, rfl, rfl, rfl, ⟨rfl, rfl⟩, rfl, rfl, fun _ => rfl⟩
  · rw [State.accept_tooLong s u (BitVec.not_le.1 h)]
    refine Kept.trans ?_ (State.raise_kept _ u .bufferBound)
    cases u <;> exact ⟨rfl, rfl, rfl, rfl, ⟨rfl, rfl⟩, rfl, rfl, fun _ => rfl⟩

/-- Settles O11: the byte is stored (`State.writeIn_stores`), which acceptance keeps, or the write is ignored
(`State.writeIn_ignored`). -/
theorem hostWriteInStoresByte : Obligations.HostWriteInStoresByte := by
  intro s u a b rest hagenda
  have hstep : step s = .next ((s.writeIn u a b).withAgenda rest) :=
    (step_of_agenda hagenda).trans (congrArg Host.Outcome.next (State.withAgenda_writeIn ..))
  refine ⟨fun hb ha => ?_, fun hignored => ?_⟩
  · rw [State.writeIn_stores hb ha, ← State.withAgenda_withBlock] at hstep
    have hread (a' : Nat) : ((s.block u).inBuf.write a b).read a' = if a' = a then some b else (s.block u).inBuf.read a' := by
      rw [Memory.read_write]
      exact if_congr eq_comm rfl rfl
    refine ⟨_, hstep, ?_, fun a' => ?_, State.inByte_of_read ?_⟩
    · rw [State.block_withBlock]
      rfl
    · rw [State.block_withBlock]
      exact hread a'
    · rw [(State.accept_kept _ u).inByte, State.block_withBlock]
      exact (hread a).trans (if_pos rfl)
  · rw [hstep, State.writeIn_ignored hignored]
    rfl

/-- A byte handed over in a register (R204). -/
theorem toNat_setWidth_byte (b : Byte) : (b.setWidth 32).toNat = b.toNat := BitVec.toNat_setWidth_of_le (by decide)

theorem State.ret_readIn {s : State} {u : UnitId} {a : Nat} {b : Byte} (ha : a < (s.inCap u).toNat)
    (hb : (s.block u).inBuf.read a = some b) : (s.readIn u a).ret = b.setWidth 32 := by
  rw [State.readIn, if_pos ha, State.inByte_of_read hb]

/-- The byte that a host reads of `OUT` in `DONE` (R74, R204). -/
theorem State.outByte_of_read {s : State} {u : UnitId} {a : Nat} {b : Byte} (hd : (s.block u).state = .done)
    (ha : a < (s.block u).outLen.toNat) (hb : (s.block u).outBuf.read a = some b) : s.outByte u a = b := by
  simp [State.outByte, Block.outDefined, hd, ha, hb]

/-- Settles O12: either read hands over a byte, and the one listed where there is one. -/
theorem hostReadsReturnBytes : Obligations.HostReadsReturnBytes := by
  refine ⟨fun s u a rest hagenda => ?_, fun s u a rest hagenda => ?_⟩
  · refine ⟨_, step_of_agenda hagenda, rfl, ?_, fun b ha hb => ?_⟩
    · exact (toNat_setWidth_byte _).trans_lt (BitVec.isLt _)
    · rw [State.ret_readIn (by rwa [State.withAgenda_inCap]) (by rwa [State.withAgenda_block]), toNat_setWidth_byte]
  · refine ⟨_, step_of_agenda hagenda, rfl, ?_, fun b hd ha hb => ?_⟩
    · exact (toNat_setWidth_byte _).trans_lt (BitVec.isLt _)
    · rw [← State.withAgenda_block s rest u] at hd ha hb
      rw [State.readOut, State.outByte_of_read hd ha hb, toNat_setWidth_byte]

/-- Settles O13: the move is taken off the agenda and does nothing. -/
theorem hostWritesToOutAreIgnored : Obligations.HostWritesToOutAreIgnored := fun _ _ _ _ _ ha => step_of_agenda ha

end Sys2Proof.Machine

/-! The commands (47_host_commands.md R205 to R209). -/

namespace Sys2Proof.Machine

/-! What a command does to a unit that is `BUSY`, and to one that is not (R82, R209). -/

theorem unlessBusy_of_busy {u : UnitId} {s : State} (h : s.busy u = true) (f : State → State) :
    unlessBusy u s f = s.markIllegal u := if_pos h

theorem unlessBusy_of_not_busy {u : UnitId} {s : State} (h : s.busy u = false) (f : State → State) :
    unlessBusy u s f = f s := if_neg (by simp [h])

theorem exec_encode_of_not_busy {s : State} (h : s.busy .enc = false) : exec .encode s = .next (s.accept .enc) :=
  congrArg Host.Outcome.next (unlessBusy_of_not_busy h _)

theorem exec_decode_of_not_busy {s : State} (h : s.busy .dec = false) : exec .decode s = .next (s.accept .dec) :=
  congrArg Host.Outcome.next (unlessBusy_of_not_busy h _)

/-! The commands one by one. -/

/-- Settles O16: `NOP` hands on the state. -/
theorem nopChangesNothing : Obligations.NopChangesNothing := fun u _ => ⟨decode_encode (.nop u) Config.defaults _ rfl rfl, rfl⟩

/-- Settles O17: the block is `Block.accepted`, the working state `EncWork.initial` (`State.accept_fits`). -/
theorem encodeIsAccepted : Obligations.EncodeIsAccepted := by
  intro s hb hfit
  refine ⟨_, exec_encode_of_not_busy hb, s.accept_kept .enc, ?_⟩
  rw [s.accept_fits .enc hfit]
  exact ⟨rfl, rfl, rfl, rfl, fun _ => rfl, fun _ => rfl, fun _ => rfl, rfl, rfl, rfl, fun _ => rfl, rfl, rfl⟩

/-- Settles O18: the block is `Block.accepted`, the working state `DecWork.initial` (`State.accept_fits`). -/
theorem decodeIsAccepted : Obligations.DecodeIsAccepted := by
  intro s hb hfit
  refine ⟨_, exec_decode_of_not_busy hb, s.accept_kept .dec, ?_⟩
  rw [s.accept_fits .dec hfit]
  exact ⟨rfl, rfl, rfl, rfl, fun _ => rfl, rfl, rfl, rfl, rfl, rfl, fun _ => rfl, rfl, rfl, rfl⟩

/-- The fault at acceptance (R231). -/
theorem State.accept_tooLong_block {s : State} {u : UnitId} (h : s.inCap u < (s.block u).inLen) :
    ((s.accept u).block u).state = .fault ∧ ((s.accept u).block u).phase = 0 ∧ ((s.accept u).block u).err = .bufferBound ∧
      ((s.accept u).block u).outLen = 0 := by
  rw [State.accept_tooLong s u h, State.raise_block, State.block_withBlock]
  exact ⟨rfl, rfl, rfl, rfl⟩

/-- Settles O19: both commands are accepted with the fault of `State.accept_tooLong_block`. -/
theorem tooLongInputFaultsAtAcceptance : Obligations.TooLongInputFaultsAtAcceptance :=
  ⟨fun s hb hlong => ⟨_, exec_encode_of_not_busy hb, s.accept_kept .enc, State.accept_tooLong_block (u := .enc) hlong⟩,
    fun s hb hlong => ⟨_, exec_decode_of_not_busy hb, s.accept_kept .dec, State.accept_tooLong_block (u := .dec) hlong⟩⟩

/-- A word that names no command of a unit decodes to the illegal command (R82). -/
theorem decodeCommand_illegal {u : UnitId} {w : Word}
    (h : cmdRsv w ≠ 0 ∨ 4 ≤ (cmdOp w).toNat ∨ (u = .dec ∧ cmdOp w = 1) ∨ (u = .enc ∧ cmdOp w = 2)) :
    decodeCommand u w = .illegal u w := by
  unfold decodeCommand
  by_cases hrsv : cmdRsv w ≠ 0
  · rw [if_pos hrsv]
  · rw [if_neg hrsv]
    rcases h.resolve_left hrsv with hop | ⟨rfl, hop⟩ | ⟨rfl, hop⟩
    · have hne (n : BitVec 8) (hn : n.toNat < 4) : cmdOp w ≠ n := by
        rintro rfl
        omega
      rw [if_neg (hne 0 (by decide)), if_neg fun h1 => hne 1 (by decide) h1.1, if_neg fun h2 => hne 2 (by decide) h2.1,
        if_neg (hne 3 (by decide))]
    · simp [hop]
    · simp [hop]

/-- Settles O20: such words decode to the illegal command, which, like any command but `NOP` while `BUSY`, is
`State.markIllegal`. -/
theorem illegalCommandSetsOnlyIll : Obligations.IllegalCommandSetsOnlyIll :=
  ⟨fun _ _ h => congrArg Except.ok (decodeCommand_illegal h), fun _ _ _ => rfl,
    fun _ h => congrArg Host.Outcome.next (unlessBusy_of_busy h _),
    fun _ h => congrArg Host.Outcome.next (unlessBusy_of_busy h _),
    fun _ _ h => congrArg Host.Outcome.next (unlessBusy_of_busy h _)⟩

/-- Settles O21: the block is `Block.cleared`, and the rest is as `State.returnToIdle` leaves it. -/
theorem clearReturnsToIdle : Obligations.ClearReturnsToIdle := by
  intro u s hb
  refine ⟨s.returnToIdle u, congrArg Host.Outcome.next (unlessBusy_of_not_busy hb _), ?_⟩
  rw [State.returnToIdle_block]
  refine ⟨rfl, rfl, rfl, rfl, rfl, rfl, rfl, rfl, fun _ => rfl, rfl, fun _ => rfl, ?_, State.returnToIdle_kept_other s u, ?_⟩
  · cases u <;> rfl
  · cases u <;> rfl

end Sys2Proof.Machine

/-! The pseudo-operations `encode(x)` and `decode(c)` (47_host_commands.md R212 to R214). -/

namespace Sys2Proof.Machine

theorem toNat_ofNat_of_lt {w n : Nat} (h : n < 2 ^ w) : (BitVec.ofNat w n).toNat = n := by
  rw [BitVec.toNat_ofNat, Nat.mod_eq_of_lt h]

/-! `encode(x)` (R213). -/

/-- The code table for the symbols counted in `f` (R138); with no symbol counted there is no code (R160, R162). -/
def countedCodes (f : Table Nat) : Table Bits := if distinctSymbols f = 0 then [] else codeTableOf f

theorem countedCodes_zero {f : Table Nat} (h : distinctSymbols f = 0) : countedCodes f = [] := if_pos h

theorem countedCodes_pos {f : Table Nat} (h : distinctSymbols f ≠ 0) : countedCodes f = codeTableOf f := if_neg h

theorem codeEntries_nil : codeEntries [] = [] := List.filterMap_eq_nil_iff.2 fun _ _ => rfl

theorem countedCodes_length_le (f : Table Nat) (i : Nat) : ((countedCodes f).bits i).length ≤ 255 := by
  by_cases h : distinctSymbols f = 0
  · rw [countedCodes_zero h]
    exact Nat.zero_le 255
  · rw [countedCodes_pos h]
    exact codeTableOf_length f i

theorem codeEntries_countedCodes_length (f : Table Nat) : (codeEntries (countedCodes f)).length = distinctSymbols f := by
  by_cases h : distinctSymbols f = 0
  · rw [countedCodes_zero h, codeEntries_nil, h, List.length_nil]
  · rw [countedCodes_pos h]
    exact (codeTableOf_entries f (Nat.one_le_iff_ne_zero.2 h)).1

/-- No code of a symbol counted starts another one (R138 (c)). -/
theorem countedCodes_prefixFree (f : Table Nat) : PrefixFree ((codeEntries (countedCodes f)).map Entry.bits) := by
  by_cases h : distinctSymbols f = 0
  · rw [countedCodes_zero h, codeEntries_nil]
    exact List.Pairwise.nil
  · rw [countedCodes_pos h]
    obtain ⟨-, ⟨-, hprefix, -⟩, -⟩ := codeTableOf_entries f (Nat.one_le_iff_ne_zero.2 h)
    exact hprefix

/-- Exactly the symbols counted have a code (R138 (a)). -/
theorem exists_countedCodes_entry {f : Table Nat} {b : Byte} :
    (∃ e ∈ codeEntries (countedCodes f), e.sym = b) ↔ b.toNat ∈ occurring f := by
  by_cases h : distinctSymbols f = 0
  · have hocc : occurring f = [] := List.length_eq_zero_iff.1 h
    simp [countedCodes_zero h, codeEntries_nil, hocc]
  · rw [countedCodes_pos h]
    exact codeTableOf_symbols f (Nat.one_le_iff_ne_zero.2 h) b

/-- `es` is a code table of exactly the symbols of `x`, and `bs` is the codes that it gives `x` (R88, R92, R138). -/
structure CodesOf (x : List Byte) (es : List Entry) (bs : Bits) : Prop where
  sorted     : (es.map (fun e => e.sym.toNat)).Pairwise (· < ·)
  symbols    : ∀ b, (∃ e ∈ es, e.sym = b) ↔ b ∈ x
  lengths    : ∀ e ∈ es, 1 ≤ e.bits.length ∧ e.bits.length ≤ 255
  prefixFree : PrefixFree (es.map Entry.bits)
  spelled    : EntriesSpell es x bs

/-- The code table for the symbols of an input is one for the input (R138). -/
theorem codesOf_countedCodes {w : Nat} {f : Table Nat} {x : List Byte} (h : countBytes w [] x = some f) :
    CodesOf x (codeEntries (countedCodes f)) (inputCodes (countedCodes f) x) where
  sorted := codeEntries_sorted _
  symbols := fun b => exists_countedCodes_entry.trans (mem_occurring_of_count h b)
  lengths := fun e he => by
    obtain ⟨hne, hbits⟩ := mem_codeEntries.1 he
    exact ⟨List.length_pos_iff.2 hne, hbits ▸ countedCodes_length_le f e.sym.toNat⟩
  prefixFree := countedCodes_prefixFree f
  spelled := entriesSpell_inputCodes fun b hb => exists_countedCodes_entry.2 ((mem_occurring_of_count h b).2 hb)

/-- The end of an `ENCODE` whose code table is `es` and whose packed codes are `bs` (R161): the container, if it fits. -/
def containerOutcome (p : Params) (n : Nat) (es : List Entry) (bs : Bits) : Except (BitVec 4 × Failure) (List Byte × Diag) :=
  if p.encOutCap.toNat < (encoderContainer es n (packbits bs)).length then .error (5, .bufferBound)
  else .ok (encoderContainer es n (packbits bs),
    { nsym := BitVec.ofNat 9 es.length, symcnt := BitVec.ofNat 32 n, bitcnt := BitVec.ofNat 40 bs.length })

/-- The end of an `ENCODE` whose counters do not overflow (R160). -/
theorem encodeOutcome_of_count {p : Params} {f : Table Nat} {x : List Byte} (h : countBytes p.cntW [] x = some f)
    (hx : x.length < 2 ^ 32) :
    encodeOutcome p x =
      containerOutcome p x.length (codeEntries (countedCodes f)) (inputCodes (countedCodes f) x) := by
  have hwriter : (if distinctSymbols f = 0 then BitWriter.empty else packInput (countedCodes f) BitWriter.empty x) =
      packInput (countedCodes f) BitWriter.empty x := by
    split
    case isTrue h0 =>
      rw [(distinctSymbols_zero h).1 h0]
      rfl
    case isFalse => rfl
  have hcount : (packInput (countedCodes f) BitWriter.empty x).bitcnt =
      BitVec.ofNat 40 (inputCodes (countedCodes f) x).length := by
    rw [← (packInput_holds _ x (countedCodes_length_le f) hx).count, BitVec.ofNat_toNat, BitVec.setWidth_eq]
  have hcode : (if distinctSymbols f = 0 then [] else codeTableOf f) = countedCodes f := rfl
  unfold encodeOutcome
  rw [h]
  simp only [hcode, hwriter]
  rw [hcount, packInput_empty_pay, ← codeEntries_countedCodes_length f, containerBytes_eq]
  rfl

/-- The end of an `ENCODE` with a symbol that occurs too often (R110, R112). -/
theorem encodeOutcome_overflow {p : Params} {x : List Byte} (h : ∃ i, 2 ^ p.cntW - 1 < occurrences x i) :
    encodeOutcome p x = .error (1, .overflow) := by
  have hnone : countBytes p.cntW [] x = none := by
    refine (countBytes_none fun _ => Nat.zero_le _).2 ?_
    simpa [Table.count_nil] using h
  rw [encodeOutcome, hnone]

/-- The end of an `ENCODE` whose counts fit (R160, R161): the container of a code table for the input. -/
theorem encodeOutcome_of_fits {p : Params} {x : List Byte} (h : ∀ i, occurrences x i ≤ 2 ^ p.cntW - 1)
    (hx : x.length < 2 ^ 32) :
    ∃ es bs, CodesOf x es bs ∧ es.length ≤ 256 ∧ bs.length < 2 ^ 40 ∧
      encodeOutcome p x = containerOutcome p x.length es bs := by
  obtain ⟨f, hf⟩ := countBytes_fits (f := []) (x := x) (by simpa [Table.count_nil] using h)
  exact ⟨_, _, codesOf_countedCodes hf, (codeEntries_countedCodes_length f).trans_le (distinctSymbols_le f),
    inputCodes_length_lt _ x (countedCodes_length_le f) hx, encodeOutcome_of_count hf hx⟩

theorem containerOutcome_tooLong {p : Params} {n : Nat} {es : List Entry} {bs : Bits}
    (h : p.encOutCap.toNat < (encoderContainer es n (packbits bs)).length) :
    containerOutcome p n es bs = .error (5, .bufferBound) := if_pos h

theorem containerOutcome_fits {p : Params} {n : Nat} {es : List Entry} {bs : Bits}
    (h : (encoderContainer es n (packbits bs)).length ≤ p.encOutCap.toNat) :
    containerOutcome p n es bs = .ok (encoderContainer es n (packbits bs),
      { nsym := BitVec.ofNat 9 es.length, symcnt := BitVec.ofNat 32 n, bitcnt := BitVec.ofNat 40 bs.length }) :=
  if_neg h.not_gt

/-- Settles O51: `encode(x)` ends with `encodeOutcome` (`encodeBytes_spec`), which is `Overflow` for counts that do not fit and else
`containerOutcome` of the code table for `x`. -/
theorem encodeBytesGivesAContainer : Obligations.EncodeBytesGivesAContainer := by
  intro s x hbusy hlen
  have hx : x.length < 2 ^ 32 := hlen.trans_lt s.params.encInCap.isLt
  obtain ⟨t, ht, hparams, hagenda, hdec, hdecWork, hin, hill, hread, hends, hres⟩ := encodeBytes_spec s x hbusy hlen
  refine ⟨t, ht, hparams, hagenda, hdec, hdecWork, hill, hin, fun a ha => ?_, fun hover => ?_, fun hfit => ?_⟩
  · rw [hread, Memory.read_writeAll_zero, if_neg ha.not_gt]
  · rw [hres, encodeOutcome_overflow hover]
    rfl
  · obtain ⟨es, bs, hcodes, hes, hbs, hout⟩ := encodeOutcome_of_fits hfit hx
    rw [hout] at hends hres
    refine ⟨es, bs, _, hcodes.sorted, hcodes.symbols, hcodes.lengths, hcodes.prefixFree, hcodes.spelled, rfl,
      fun hlong => ?_, fun hc => ?_⟩
    · rw [hres, containerOutcome_tooLong hlong]
      rfl
    · rw [containerOutcome_fits hc] at hends hres
      obtain ⟨hstate, -, -, houtLen, hdiag, hbuf⟩ := hends
      refine ⟨hres, hstate, ?_, fun a => ?_, ?_, ?_, ?_⟩
      · rw [houtLen, toNat_ofNat_of_lt (hc.trans_lt s.params.encOutCap.isLt)]
      · rw [hbuf]
        exact Memory.read_writeAll_zero ..
      · rw [hdiag]
        exact toNat_ofNat_of_lt (by omega)
      · rw [hdiag]
        exact toNat_ofNat_of_lt hx
      · rw [hdiag]
        exact toNat_ofNat_of_lt hbs

/-! `decode(c)` (R214). -/

/-- The end of a `DECODE` of what is no container (R176, R181). -/
theorem decodeOutcome_of_noContainer {p : Params} {c : List Byte} (h : ∀ es n pay, ¬ Container c es n pay) :
    decodeOutcome p c = .error (1, .corruptData) := by
  have hnone : parseHeader (listReader c) c.length = none := by
    refine Option.eq_none_iff_forall_ne_some.2 fun hd hp => ?_
    obtain ⟨pay, hc, -, -⟩ := container_of_parseHeader hp
    rw [memRead_listReader] at hc
    exact h _ _ _ hc
  rw [decodeOutcome, hnone]

/-- The header of a container of `len` bytes (R37, R176). -/
def headerOf (es : List Entry) (n len : Nat) (pay : List Byte) : Header :=
  { k := es.length, entries := es, n := n, payOff := len - pay.length }

section OfContainer

variable {p : Params} {c : List Byte} {es : List Entry} {n : Nat} {pay : List Byte} (hc : Container c es n pay)
include hc

theorem parseHeader_listReader : parseHeader (listReader c) c.length = some (headerOf es n c.length pay) := by
  rw [← memRead_listReader c] at hc
  exact (parseHeader_of_container hc).1

/-- The payload of a container is its last bytes (R87). -/
theorem memRead_payload : memRead (listReader c) (c.length - pay.length) pay.length = pay ∧ pay.length ≤ c.length := by
  rw [← memRead_listReader c] at hc
  exact (parseHeader_of_container hc).2

theorem Container.length_le : es.length ≤ 256 := by
  obtain ⟨hk, -⟩ := hc
  exact hk

theorem Container.n_lt : n < 2 ^ 32 := by
  obtain ⟨-, hn, -⟩ := hc
  exact hn

theorem Container.bits_ne_nil : ∀ e ∈ es, e.bits ≠ [] := by
  obtain ⟨-, -, -, -, hbits⟩ := header_bounds (parseHeader_listReader hc)
  exact fun e he => List.length_pos_iff.1 (hbits e he).1

/-- No trie is built from a container without entries, or with entries that are no code table (R179, R181). -/
theorem Container.rebuild_none (h : es = [] ∨ ¬ Buildable es) :
    (DecWork.initial.withHeader (headerOf es n c.length pay) c.length).rebuild = none := by
  refine DecWork.rebuild_none rfl rfl ?_ hc.bits_ne_nil (h.imp_left ?_)
  · exact (toNat_ofNat_of_lt (hc.length_le.trans_lt (by decide))).symm
  · rintro rfl
    rfl

/-- From a container's code table a trie is built that spells every entry (R179). -/
theorem Container.rebuild_some (hne : es ≠ []) (hb : Buildable es) :
    ∃ tr seen, (DecWork.initial.withHeader (headerOf es n c.length pay) c.length).rebuild = some (tr, seen) ∧
      ∀ e ∈ es, tr.Spells 0 e.bits e.sym :=
  rebuild_of_header (headerOf es n c.length pay) c.length rfl (fun h => hne (List.length_eq_zero_iff.1 h)) hc.length_le
    hc.bits_ne_nil hb

/-- The payload bits, as the walk reads them (R150). -/
theorem Container.bitsAt_payload :
    BitsAt (listReader c) (c.length - pay.length) 0 ((List.range (8 * pay.length)).map (bitat pay)) := by
  obtain ⟨hpay, -⟩ := memRead_payload hc
  intro i hi
  rw [List.length_map, List.length_range] at hi
  have hlt : i / 8 < pay.length := by omega
  have hbyte : listReader c (c.length - pay.length + i / 8) = pay[i / 8] := by
    rw [← memRead_getElem (listReader c) (c.length - pay.length) pay.length (i / 8) (by simpa using hlt)]
    simp only [hpay]
  rw [List.getElem_map, List.getElem_range, Nat.zero_add, payloadBit, hbyte, bitat, List.getD_eq_getElem _ _ hlt]

/-- The end of a `DECODE` of a container with `N = 0` (R177). -/
theorem decodeOutcome_of_zero (h0 : n = 0) :
    decodeOutcome p c = .ok ([], 0, { nsym := BitVec.ofNat 9 es.length, symcnt := 0, bitcnt := 0 }) := by
  rw [decodeOutcome, parseHeader_listReader hc]
  exact if_pos h0

/-- The end of a `DECODE` whose entries are no code table (R179, R181). -/
theorem decodeOutcome_of_noTable (h0 : 1 ≤ n) (h : es = [] ∨ ¬ Buildable es) :
    decodeOutcome p c = .error (2, .corruptData) := by
  rw [decodeOutcome, parseHeader_listReader hc]
  refine (if_neg (Nat.one_le_iff_ne_zero.1 h0)).trans ?_
  rw [hc.rebuild_none h]

/-- `N` as a register is as large as `N` (R37, R91). -/
theorem Container.toNat_n : (BitVec.ofNat 32 n).toNat = n := toNat_ofNat_of_lt hc.n_lt

/-- The end of a `DECODE` with more symbols than `OUT` has bytes (R180, R231). -/
theorem decodeOutcome_of_tooLong (h0 : 1 ≤ n) (hne : es ≠ []) (hb : Buildable es) (hcap : p.decOutCap.toNat < n) :
    decodeOutcome p c = .error (3, .bufferBound) := by
  obtain ⟨tr, seen, hr, -⟩ := hc.rebuild_some hne hb
  rw [decodeOutcome, parseHeader_listReader hc]
  refine (if_neg (Nat.one_le_iff_ne_zero.1 h0)).trans ?_
  rw [hr]
  refine if_pos ?_
  rw [BitVec.lt_def]
  exact hcap.trans_eq hc.toNat_n.symm

/-- The end of a `DECODE` of a payload that starts with the codes of `N` symbols (R180). -/
theorem decodeOutcome_of_spelled {x : List Byte} {bs rest : Bits} (hn : n = x.length) (hx : x ≠ []) (hb : Buildable es)
    (hcap : n ≤ p.decOutCap.toNat) (hspell : EntriesSpell es x bs)
    (hbits : (List.range (8 * pay.length)).map (bitat pay) = bs ++ rest) :
    decodeOutcome p c = .ok (Memory.writeAll [] 0 x, BitVec.ofNat 32 n,
      { nsym := BitVec.ofNat 9 es.length, symcnt := BitVec.ofNat 32 n, bitcnt := BitVec.ofNat 40 bs.length }) := by
  have hne : es ≠ [] := by
    rintro rfl
    cases x with
    | nil => exact hx rfl
    | cons b x =>
      obtain ⟨e, he, -⟩ := hspell
      cases he
  obtain ⟨tr, seen, hr, hspells⟩ := hc.rebuild_some hne hb
  have hat := hc.bitsAt_payload
  rw [hbits] at hat
  obtain ⟨-, hle⟩ := memRead_payload hc
  have hleft : 8 * (c.length - (c.length - pay.length)) = bs.length + rest.length := by
    rw [Nat.sub_sub_self hle, ← List.length_append, ← hbits, List.length_map, List.length_range]
  have hwalk : walkLoop (listReader c) (c.length - pay.length) n tr (bs.length + rest.length)
      { cur := 0, emitted := 0, bitpos := 0, out := [] } =
      .ok { cur := 0, emitted := 0 + x.length, bitpos := 0 + bs.length, out := Memory.writeAll [] 0 x } := by
    rw [walkLoop_spellsAll (w := { cur := 0, emitted := 0, bitpos := 0, out := [] }) (spellsAll_of_entriesSpell hspells hspell)
      hat.left (by simp [hn]) rfl, walkLoop_done (by simp [hn])]
  rw [decodeOutcome, parseHeader_listReader hc]
  refine (if_neg (show n ≠ 0 from fun h => hx (List.length_eq_zero_iff.1 (hn.symm.trans h)))).trans ?_
  rw [hr]
  refine (if_neg (show ¬ p.decOutCap < BitVec.ofNat 32 n from ?_)).trans ?_
  · rw [BitVec.not_lt, BitVec.le_def, hc.toNat_n]
    exact hcap
  · simp only [headerOf, hleft, hwalk, Nat.zero_add]

end OfContainer

/-- Settles O52: `decode(c)` ends with `decodeOutcome` (`decodeBytes_spec`), and each clause is one of its cases. -/
theorem decodeBytesGivesTheSpelledSymbols : Obligations.DecodeBytesGivesTheSpelledSymbols := by
  intro s c hbusy hlen
  have hc32 : c.length < 2 ^ 32 := hlen.trans_lt s.params.decInCap.isLt
  obtain ⟨t, ht, hparams, hagenda, henc, hencWork, hin, hill, hread, hends, hres⟩ := decodeBytes_spec s c hbusy hlen
  refine ⟨t, ht, hparams, hagenda, henc, hencWork, hill, hin, fun a ha => ?_, fun hno => ?_, fun es n pay hc => ?_⟩
  · rw [hread, Memory.read_writeAll_zero, if_neg ha.not_gt]
  · rw [hres, decodeOutcome_of_noContainer hno]
    rfl
  · refine ⟨fun h0 => ?_, fun h1 htab => ?_, fun h1 hne hb hcap => ?_, fun x bs rest hn hx hb hcap hspell hbits => ?_⟩
    · rw [hres, decodeOutcome_of_zero hc h0]
      rfl
    · rw [hres, decodeOutcome_of_noTable hc h1 htab]
      rfl
    · rw [hres, decodeOutcome_of_tooLong hc h1 hne hb hcap]
      rfl
    · rw [decodeOutcome_of_spelled hc hn hx hb hcap hspell hbits] at hends hres
      obtain ⟨hstate, -, -, houtLen, hdiag, hbuf⟩ := hends
      have hbs : bs.length < 2 ^ 40 := by
        obtain ⟨-, hpay⟩ := memRead_payload hc
        have hsum := congrArg List.length hbits
        simp only [List.length_map, List.length_range, List.length_append] at hsum
        omega
      refine ⟨?_, hstate, ?_, fun a => ?_, ?_⟩
      · rw [hres, hn]
        exact congrArg HostResult.success (outputOf_writeAll x (hn ▸ hc.n_lt))
      · rw [houtLen, hc.toNat_n, hn]
      · rw [hbuf]
        exact Memory.read_writeAll_zero ..
      · rw [hdiag]
        exact toNat_ofNat_of_lt hbs

/-! The host sequences (R212 to R214). -/

/-- The command that a unit's pseudo-operation issues (R213, R214). -/
def startCommand (u : UnitId) : Instr :=
  match u with
  | .enc => .encode
  | .dec => .decode

/-- The word of that command (R81). -/
def startWord (u : UnitId) : Word :=
  match u with
  | .enc => 0x00000001
  | .dec => 0x00000002

/-- A unit's pseudo-operation. -/
def pseudoInstr (u : UnitId) (x : List Byte) : Instr :=
  match u with
  | .enc => .encodeBytes x
  | .dec => .decodeBytes x

/-- The state in which a pseudo-operation issues its command: the input and its length written (R213, R214). -/
def State.loaded (s : State) (u : UnitId) (x : List Byte) : State :=
  (s.writeInAll u 0 x).writeInLen u (BitVec.ofNat 32 x.length)

theorem decodeCommand_startWord (u : UnitId) : decodeCommand u (startWord u) = startCommand u := by cases u <;> rfl

theorem exec_startCommand (u : UnitId) (s : State) : exec (startCommand u) s = .next (unlessBusy u s fun s => s.accept u) := by
  cases u <;> rfl

/-- A pseudo-operation by its parts (R213, R214). -/
theorem exec_pseudoInstr (u : UnitId) (x : List Byte) (s : State) :
    exec (pseudoInstr u x) s = andThen (exec (startCommand u) (s.loaded u x)) fun s =>
      andThen (unitRun u (maxPhases u) s) fun s => .next ((s.waitRead u).collect u) := by
  cases u <;> rfl

theorem State.withAgenda_writeInAll (s : State) (ag : List Event) (u : UnitId) (a : Nat) (x : List Byte) :
    (s.withAgenda ag).writeInAll u a x = (s.writeInAll u a x).withAgenda ag := by
  induction x generalizing s a with
  | nil => rfl
  | cons b x ih => rw [State.writeInAll, State.withAgenda_writeIn, ih, State.writeInAll]

theorem State.withAgenda_loaded (s : State) (ag : List Event) (u : UnitId) (x : List Byte) :
    (s.withAgenda ag).loaded u x = (s.loaded u x).withAgenda ag := by
  rw [State.loaded, State.withAgenda_writeInAll, State.withAgenda_writeInLen, State.loaded]

section Loaded

variable {s : State} {u : UnitId} {x : List Byte} (hb : s.busy u = false) (hl : x.length ≤ (s.inCap u).toNat)
include hb hl

theorem State.loaded_eq : s.loaded u x =
    s.withBlock u { s.block u with inLen := BitVec.ofNat 32 x.length, inBuf := (s.block u).inBuf.writeAll 0 x } :=
  prepared s u x hb hl

theorem State.busy_loaded : (s.loaded u x).busy u = false := by
  rw [State.loaded_eq hb hl, State.busy, State.block_withBlock]
  exact hb

theorem State.loaded_fits : ((s.loaded u x).block u).inLen ≤ (s.loaded u x).inCap u := by
  rw [State.loaded_eq hb hl, State.block_withBlock, State.withBlock_inCap, BitVec.le_def, BitVec.toNat_ofNat]
  exact (Nat.mod_le ..).trans hl

theorem State.agenda_loaded : (s.loaded u x).agenda = s.agenda := by rw [State.loaded_eq hb hl, State.withBlock_agenda]

theorem hasInput_loaded : HasInput u (s.loaded u x) x := by
  have hblock : (s.loaded u x).block u =
      { s.block u with inLen := BitVec.ofNat 32 x.length, inBuf := (s.block u).inBuf.writeAll 0 x } := by
    rw [State.loaded_eq hb hl, State.block_withBlock]
  exact hasInput_of_block (s := s) (hl.trans_lt (inCap_lt s u)) (by rw [hblock]) (by rw [hblock])

end Loaded

theorem encStart_accept_loaded {s : State} {x : List Byte} (hb : s.busy .enc = false) (hl : x.length ≤ (s.inCap .enc).toNat) :
    EncStart ((s.loaded .enc x).accept .enc) := by
  rw [State.accept_fits _ _ (State.loaded_fits hb hl)]
  exact ⟨rfl, rfl, rfl, rfl, rfl, rfl⟩

theorem decStart_accept_loaded {s : State} {x : List Byte} (hb : s.busy .dec = false) (hl : x.length ≤ (s.inCap .dec).toNat) :
    DecStart ((s.loaded .dec x).accept .dec) := by
  rw [State.accept_fits _ _ (State.loaded_fits hb hl)]
  exact ⟨rfl, rfl, rfl, rfl, rfl⟩

/-- A unit whose command has ended is not `BUSY` (R233, R180). -/
theorem DecEnds.state_ne_busy {o : Except (BitVec 4 × Failure) (Memory × Word × Diag)} {b : Block} (h : DecEnds o b) :
    b.state ≠ .busy := by
  cases o with
  | error f =>
    obtain ⟨hstate, -⟩ := h
    simp [hstate]
  | ok r =>
    obtain ⟨hstate, -⟩ := h
    simp [hstate]

/-- The command of a pseudo-operation ends within the unit's phases (R17). -/
theorem exists_unitRun_accept_loaded {s : State} {u : UnitId} {x : List Byte} (hb : s.busy u = false)
    (hl : x.length ≤ (s.inCap u).toNat) :
    ∃ t, unitRun u (maxPhases u) ((s.loaded u x).accept u) = .next t ∧ t.busy u = false ∧ t.agenda = s.agenda := by
  have haccept : Kept u (s.loaded u x) ((s.loaded u x).accept u) := State.accept_kept _ u
  have hagenda := haccept.agenda.trans (State.agenda_loaded hb hl)
  have hin := (hasInput_loaded hb hl).kept haccept
  cases u with
  | enc =>
    obtain ⟨t, ht, hkept, hends⟩ := encode_run _ x (encStart_accept_loaded hb hl) hin
    exact ⟨t, ht, decide_eq_false hends.decEnds.state_ne_busy, hkept.agenda.trans hagenda⟩
  | dec =>
    obtain ⟨t, ht, hkept, hends⟩ := decode_run _ x (decStart_accept_loaded hb hl) hin
    exact ⟨t, ht, decide_eq_false hends.state_ne_busy, hkept.agenda.trans hagenda⟩

/-- The lines of a unit's pseudo-operation, as moves of the host, lead to its outcome (R213, R214). -/
theorem exists_run_eq_exec_pseudoInstr {s : State} {u : UnitId} {x : List Byte} {rest : List Event} (hb : s.busy u = false)
    (hl : x.length ≤ (s.inCap u).toNat)
    (ha : s.agenda = x.mapIdx (fun i b => Event.writeIn u i b) ++
      [.regWrite u 2 (BitVec.ofNat 32 x.length), .regWrite u 0 (startWord u), .wait u, .collect u] ++ rest) :
    ∃ k, Sys2Proof.core.run k s = exec (pseudoInstr u x) (s.withAgenda rest) := by
  have hacc (ag : List Event) : exec (startCommand u) ((s.loaded u x).withAgenda ag) =
      .next (((s.loaded u x).accept u).withAgenda ag) := by
    have hbusy : ((s.loaded u x).withAgenda ag).busy u = false := by
      rw [State.withAgenda_busy, State.busy_loaded hb hl]
    rw [exec_startCommand, unlessBusy_of_not_busy hbusy, State.withAgenda_accept]
  obtain ⟨t, ht, hbusy, hagenda⟩ := exists_unitRun_accept_loaded (s := s.withAgenda rest) (by rwa [State.withAgenda_busy])
    (by rwa [State.withAgenda_inCap])
  rw [State.withAgenda_loaded, State.withAgenda_accept] at ht
  obtain ⟨k, hk⟩ := run_expansion u (startCommand u) (startWord u) (decodeCommand_startWord u) s t x rest (maxPhases u) hacc ht
    hbusy hagenda ha
  refine ⟨k, hk.trans ?_⟩
  rw [exec_pseudoInstr, State.withAgenda_loaded, hacc, andThen, ht, andThen]
  rfl

/-- Settles O56: both expansions are the one that `exists_run_eq_exec_pseudoInstr` runs. -/
theorem pseudoOperationsAreTheirExpansions : Obligations.PseudoOperationsAreTheirExpansions :=
  ⟨fun _ _ _ hb hl ha => exists_run_eq_exec_pseudoInstr (u := .enc) hb hl ha,
    fun _ _ _ hb hl ha => exists_run_eq_exec_pseudoInstr (u := .dec) hb hl ha⟩

end Sys2Proof.Machine

/-! Taking a fault, and leaving it (60_exceptions.md R233, R234). -/

namespace Sys2Proof.Machine

/-- A unit in `FAULT` is not `BUSY`. -/
theorem State.busy_of_fault {s : State} {u : UnitId} (h : (s.block u).state = .fault) : s.busy u = false := by
  simp [State.busy, h]

/-! What a move makes of `STATE` and `ERR` of a unit that it does not command (R20, R200, R211). -/

/-- Unit `u` shows in `t` the `STATE` and the `ERR` that it shows in `s`. -/
def SameStateErr (u : UnitId) (s t : State) : Prop :=
  (t.block u).state = (s.block u).state ∧ (t.block u).err = (s.block u).err

theorem sameStateErr_of_block_eq {u : UnitId} {s t : State} (h : t.block u = s.block u) : SameStateErr u s t :=
  ⟨congrArg Block.state h, congrArg Block.err h⟩

/-- A move that changes neither block, as the host's reads do. -/
theorem sameStateErr_of_blocks_eq {u : UnitId} {s t : State} (henc : t.enc = s.enc) (hdec : t.dec = s.dec) :
    SameStateErr u s t :=
  sameStateErr_of_block_eq (by cases u <;> assumption)

/-- A new block for any unit that has the old one's `STATE` and `ERR`. -/
theorem sameStateErr_withBlock (u : UnitId) {s : State} {v : UnitId} {b : Block} (hstate : b.state = (s.block v).state)
    (herr : b.err = (s.block v).err) : SameStateErr u s (s.withBlock v b) := by
  by_cases hu : u = v
  · subst hu
    rw [SameStateErr, State.block_withBlock]
    exact ⟨hstate, herr⟩
  · exact sameStateErr_of_block_eq (State.block_withBlock_other s b hu)

theorem sameStateErr_writeInLen (u : UnitId) (s : State) (v : UnitId) (w : Word) : SameStateErr u s (s.writeInLen v w) := by
  unfold State.writeInLen
  split_ifs
  · exact sameStateErr_of_block_eq rfl
  · exact sameStateErr_withBlock u rfl rfl

theorem sameStateErr_writeIn (u : UnitId) (s : State) (v : UnitId) (a : Nat) (b : Byte) :
    SameStateErr u s (s.writeIn v a b) := by
  unfold State.writeIn
  split_ifs
  · exact sameStateErr_withBlock u rfl rfl
  · exact sameStateErr_of_block_eq rfl

/-- The other unit's block, where an operation of `v` leaves the other unit alone (R20). -/
theorem SameOther.block_eq {u v : UnitId} {s t : State} (h : SameOther v s t) (hu : u ≠ v) : t.block u = s.block u := by
  cases u <;> cases v
  case enc.dec => exact h.1
  case dec.enc => exact h.1
  all_goals exact absurd rfl hu

theorem State.markIllegal_sameOther (s : State) (u : UnitId) : SameOther u s (s.markIllegal u) := by
  cases u <;> exact ⟨rfl, rfl⟩

theorem unlessBusy_sameOther {u : UnitId} {s : State} {f : State → State} (hf : SameOther u s (f s)) :
    SameOther u s (unlessBusy u s f) := by
  unfold unlessBusy
  split_ifs
  · exact s.markIllegal_sameOther u
  · exact hf

/-- Whatever word is written to a unit's `CMD`, the other unit stays as it is (R20, R202). -/
theorem command_sameOther {u : UnitId} {w : Word} {s t : State} (h : runFetched (.command u w) s = .next t) :
    SameOther u s t := by
  change exec (decodeCommand u w) s = .next t at h
  rcases decodeCommand_cases u w with e | ⟨e, rfl⟩ | ⟨e, rfl⟩ | e | e <;> rw [e] at h <;> cases h
  · exact (Kept.refl u s).other
  · exact unlessBusy_sameOther (s.accept_kept .enc).other
  · exact unlessBusy_sameOther (s.accept_kept .dec).other
  · exact unlessBusy_sameOther (s.returnToIdle_kept_other u)
  · exact s.markIllegal_sameOther u

/-- A phase leaves the other unit alone (R20). -/
theorem unitPhase_sameOther {u : UnitId} {s t : State} (h : unitPhase u s = .next t) : SameOther u s t := by
  rw [(unitPhase_eq_graft h).1]
  cases u <;> exact ⟨rfl, rfl⟩

/-- A step of any unit leaves a unit that is not `BUSY` alone (R20, R211). -/
theorem unitStep_block_eq {u v : UnitId} {s t : State} (hb : s.busy u = false) (h : unitStep v s = .next t) :
    t.block u = s.block u := by
  cases hv : s.busy v with
  | true =>
    have hu : u ≠ v := by
      rintro rfl
      simp [hb] at hv
    rw [unitStep_of_busy hv] at h
    exact (unitPhase_sameOther h).block_eq hu
  | false =>
    cases (unitStep_of_not_busy hv).symm.trans h
    rfl

/-- A register write that is no command to `u` keeps `STATE` and `ERR` of `u` (R202). -/
theorem regWrite_sameStateErr {u v : UnitId} {r : BitVec 4} {w : Word} {s t : State} (hcmd : r = 0 → u ≠ v)
    (h : regWrite v r w s = .next t) : SameStateErr u s t := by
  unfold regWrite at h
  split_ifs at h with h0
  · exact sameStateErr_of_block_eq ((command_sameOther h).block_eq (hcmd h0))
  · cases h
    exact sameStateErr_writeInLen u s v w
  · cases h
    exact sameStateErr_of_block_eq rfl

/-- A move that is neither the reset nor a command to `u` nor a pseudo-operation keeps `STATE` and `ERR` of `u`, unless `u` is
`BUSY`. -/
theorem perform_sameStateErr {u : UnitId} {e : Event} {s t : State} (hb : s.busy u = false) (h : perform e s = .next t)
    (hreset : e ≠ .reset) (hcmd : ∀ v, e ≠ .regWrite u 0 v) (henc : ∀ x, e ≠ .encodeBytes x)
    (hdec : ∀ c, e ≠ .decodeBytes c) : SameStateErr u s t := by
  cases e with
  | regRead | writeOut | readIn | readOut | collect =>
    cases h
    exact sameStateErr_of_blocks_eq rfl rfl
  | regWrite v r w =>
    refine regWrite_sameStateErr ?_ h
    rintro rfl rfl
    exact hcmd w rfl
  | writeIn v a b =>
    cases h
    exact sameStateErr_writeIn u s v a b
  | wait v =>
    cases hv : s.busy v with
    | true =>
      rw [perform, if_pos hv] at h
      have hblock := unitStep_block_eq (s := s.withAgenda (.wait v :: s.agenda)) (by rwa [State.withAgenda_busy]) h
      exact sameStateErr_of_block_eq (by rwa [State.withAgenda_block] at hblock)
    | false =>
      rw [perform, if_neg (by simp [hv])] at h
      cases h
      exact sameStateErr_of_blocks_eq rfl rfl
  | unitStep v => exact sameStateErr_of_block_eq (unitStep_block_eq hb h)
  | reset => exact absurd rfl hreset
  | encodeBytes x => exact absurd rfl (henc x)
  | decodeBytes c => exact absurd rfl (hdec c)

/-- Settles O58: `CLEAR` and an accepted command write the block that `clearReturnsToIdle`, `encodeIsAccepted` and
`decodeIsAccepted` name, and a unit in `FAULT` is not `BUSY`, so that no other move writes its `STATE` or `ERR`
(`perform_sameStateErr`). -/
theorem faultIsLeftOnlyByCommandOrReset : Obligations.FaultIsLeftOnlyByCommandOrReset := by
  intro s u hf
  have hb := State.busy_of_fault hf
  refine ⟨unitStep_of_not_busy hb, ?_, ?_, ?_, ?_⟩
  · obtain ⟨t, ht, hstate, -, herr, -⟩ := clearReturnsToIdle u s hb
    exact ⟨t, ht, hstate, herr⟩
  · rintro rfl hfit
    obtain ⟨t, ht, -, hstate, -, herr, -⟩ := encodeIsAccepted s hb hfit
    exact ⟨t, ht, hstate, herr⟩
  · rintro rfl hfit
    obtain ⟨t, ht, -, hstate, -, herr, -⟩ := decodeIsAccepted s hb hfit
    exact ⟨t, ht, hstate, herr⟩
  · intro e t h hreset hcmd henc hdec
    obtain ⟨hstate, herr⟩ := perform_sameStateErr hb h hreset hcmd henc hdec
    exact ⟨hstate.trans hf, herr⟩

/-! What a host reads of a unit that has taken a fault (R44, R233). -/

/-- Outside `DONE` a host reads an unspecified byte of `OUT` (R44, R204). -/
theorem State.outByte_of_not_done {s : State} {u : UnitId} (h : (s.block u).state ≠ .done) (a : Nat) :
    s.outByte u a = Config.unspecByte s.tick a := by
  simp [State.outByte, Block.outDefined, h]

/-- In `FAULT` a host reads unspecified diagnostic registers (R44, R201). -/
theorem State.visibleDiag_of_fault {s : State} {u : UnitId} (h : (s.block u).state = .fault) :
    s.visibleDiag u = Config.unspecDiag s.tick := by
  simp [State.visibleDiag, Block.diagDefined, h]

/-- Settles O57: a host reads free values of a unit in `FAULT`, and the encoder's `PAY` and `BITCNT` are those of one
`freeBitWriter`, which is sound (`freeBitWriter_sound`). -/
theorem raiseTakesTheFault : Obligations.RaiseTakesTheFault := by
  intro s u e
  have hfaulted := s.raise_faulted u e
  have hnotDone : ((s.raise u e).block u).state ≠ .done := by simp [hfaulted.state]
  refine ⟨hfaulted, fun a => ⟨_, State.outByte_of_not_done hnotDone a⟩, ⟨_, State.visibleDiag_of_fault hfaulted.state⟩, ?_, ?_,
    unitStep_of_not_busy (State.busy_of_fault hfaulted.state)⟩
  · rintro rfl
    exact ⟨s.tick, rfl, rfl, freeBitWriter_sound s.tick⟩
  · rintro rfl
    exact ⟨s.tick, rfl⟩

end Sys2Proof.Machine

/-! `Reset` (70_reset_and_hazards.md R250, R251). -/

namespace Sys2Proof.Machine

/-! What `Reset` makes of the blocks, and the parts of the state that it leaves as they were. -/

theorem State.resetUnit_block (s : State) (u : UnitId) : (s.resetUnit u).block u = Block.reset := by
  simp [State.resetUnit]

theorem State.resetUnit_block_other (s : State) {u v : UnitId} (h : v ≠ u) : (s.resetUnit u).block v = s.block v := by
  simp [State.resetUnit, State.block_withBlock_other s _ h]

theorem State.resetUnits_block (s : State) (u : UnitId) : s.resetUnits.block u = Block.reset := by
  rw [State.resetUnits, State.drawn_block]
  cases u with
  | enc => rw [State.resetUnit_block_other _ (by decide), State.resetUnit_block]
  | dec => exact State.resetUnit_block _ _

theorem State.resetUnits_params (s : State) : s.resetUnits.params = s.params := rfl
theorem State.resetUnits_agenda (s : State) : s.resetUnits.agenda = s.agenda := rfl
theorem State.resetUnits_ret (s : State) : s.resetUnits.ret = s.ret := rfl
theorem State.resetUnits_result (s : State) : s.resetUnits.result = s.result := rfl

theorem State.resetUnits_inCap (s : State) (u : UnitId) : s.resetUnits.inCap u = s.inCap u := by
  simp only [State.inCap, State.resetUnits_params]

theorem State.resetUnits_outCap (s : State) (u : UnitId) : s.resetUnits.outCap u = s.outCap u := by
  simp only [State.outCap, State.resetUnits_params]

/-- Settles O15: each block becomes `Block.reset`, whatever it was (`State.resetUnits_block`), so that its registers read as after
reset (`State.regValue_of_block_reset`); the capacities are parameters, which `Reset` keeps. -/
theorem resetReturnsBothUnitsToIdle : Obligations.ResetReturnsBothUnitsToIdle := by
  intro s rest ha
  refine ⟨_, step_of_agenda ha, State.resetUnits_params _, State.resetUnits_agenda _, State.resetUnits_ret _,
    State.resetUnits_result _, fun u => ?_⟩
  have hblock := State.resetUnits_block (s.withAgenda rest) u
  rw [hblock]
  exact ⟨rfl, fun _ hr => State.regValue_of_block_reset hblock hr, State.resetUnits_inCap _ u, State.resetUnits_outCap _ u,
    fun _ => rfl, fun _ => rfl⟩

end Sys2Proof.Machine
